-- ==== Sys2Proof/Word.lean ====
section
/-! DEFINITION. The value types of the MNC block: the 32-bit register word, the byte of LRAM and of the wire, the byte
string, and the one-bit sequence number (00_scope.md R10, R11). -/

namespace Sys2Proof

/-- A register or aperture word: "Every register value is an unsigned 32-bit number" (R10). -/
abbrev Word := BitVec 32

/-- A byte of LRAM, of a string, or of a datagram (R11). -/
abbrev Byte := BitVec 8

/-- A byte string: "finite sequences of 8-bit values" (R11). -/
abbrev Bytes := List Byte

/-- The alternating sequence bit of a segment (R43, R91). -/
abbrev SeqBit := BitVec 1

/-- The sequence bit is flipped by `s XOR 1` (R12). -/
def SeqBit.flip (s : SeqBit) : SeqBit := s ^^^ 1#1

end Sys2Proof
end

