-- ==== Sys2Proof/Machine/Types.lean ====
section
/-! DEFINITION. The data the block and its environment exchange: frame values (30_encoding.md R91), endpoints and datagrams
(20_memory.md R72), host accesses (R62), the injector's draws (00_scope.md R11), routers (R77), and the turns of the agents
(R7, R13). Types only: no meaning stands here. -/

namespace Sys2Proof.Machine

/-- An application message `m` (R91). `ts` is its timestampSeconds. -/
structure Message where
  type       : Bytes
  senderAddr : Bytes
  text       : Bytes
  ts         : BitVec 64
deriving DecidableEq, Repr, Inhabited

/-- A transport segment (R91); a payload of `none` is the null payload. -/
structure Segment where
  seq     : SeqBit
  isAck   : Bool
  payload : Option Message
deriving DecidableEq, Repr, Inhabited

/-- A network packet (R91). -/
structure Packet where
  srcLog : Bytes
  dstLog : Bytes
  ttl    : Word
  seg    : Segment
deriving DecidableEq, Repr, Inhabited

/-- A frame value `f` (R91). -/
structure Frame where
  srcPhys  : Bytes
  dstPhys  : Bytes
  checksum : Word
  pkt      : Packet
deriving DecidableEq, Repr, Inhabited

/-- A real endpoint `(ip, port)` (R31, R72). -/
structure Endpoint where
  ip   : Word
  port : BitVec 16
deriving DecidableEq, Repr, Inhabited

/-- A datagram on the wire (R72): its bytes, the endpoint it is addressed to, and the endpoint it comes from. -/
structure Datagram where
  bytes : Bytes
  dst   : Endpoint
  src   : Endpoint
deriving DecidableEq, Repr, Inhabited

/-- Who put a datagram on the wire (R74): the block's injector, a router's, or another emitter outside this block. An emitter
is one agent, whatever source endpoint its datagrams show. -/
inductive Emitter
  /-- The block's own injector (R73). -/
  | block
  /-- The injector of the `i`-th router (R77). -/
  | router (i : Nat)
  /-- The `n`-th of the other emitters, such as another block (R183). -/
  | other (n : Nat)
deriving DecidableEq, Repr, Inhabited

/-- A datagram in flight, with its emitter: NET's order is kept for one emitter and one destination (R75). -/
structure Transit where
  emitter  : Emitter
  datagram : Datagram
deriving DecidableEq, Repr, Inhabited

/-- The width of a host access (R62). -/
inductive AccessWidth
  | w8 | w16 | w32 | w64
deriving DecidableEq, Repr, Inhabited

/-- One HOST load or store; `offset` is the host address less MNC_BASE (R57). A store of fewer than 64 bits uses the low
bits of `value`. -/
inductive HostAccess
  | read  (width : AccessWidth) (offset : Nat)
  | write (width : AccessWidth) (offset : Nat) (value : BitVec 64)
deriving DecidableEq, Repr, Inhabited

/-- What the bus answered to the host's last access (R62). -/
inductive BusResponse
  /-- No access yet. -/
  | idle
  /-- A read returned this word. -/
  | data (value : Word)
  /-- A write was taken (stored, acted on, or ignored as its register's access rule says). -/
  | written
  /-- The access was refused: wrong width or alignment (R62, R179). -/
  | busError
  /-- No answer: the block is held in hard reset (R185). -/
  | noResponse
deriving DecidableEq, Repr, Inhabited

/-- The draws one injector attempt may consume (R11, R107 to R109). `pos` and `delay` are brought into their closed
interval by `drawRange`; every value of the interval is reached. -/
structure Draws where
  loss    : BitVec 16
  corrupt : BitVec 16
  pos     : Nat
  delay   : Nat
deriving DecidableEq, Repr, Inhabited

/-- An injector's parameters: probabilities over 65536 and latency bounds in milliseconds (R26 to R28, R77). -/
structure ChannelParams where
  pLoss    : BitVec 17
  pCorrupt : BitVec 17
  latMin   : Word
  latMax   : Word
deriving DecidableEq, Repr, Inhabited

/-- A router of the network environment (R77): its endpoint, its static route table, its own injector's parameters and
state. -/
structure Router where
  endpoint : Endpoint
  routes   : List (Bytes × Endpoint)
  channel  : ChannelParams
  txq      : List Datagram
  serving  : Option Datagram
  delay    : Word
deriving DecidableEq, Repr, Inhabited

/-- One step of one agent (R7, R13, R86), with the inputs that agent takes from outside the block: a run is a sequence of
turns, and every interleaving is a sequence (93_implementation_defined.md I8). A turn given to an agent that has no enabled
step changes nothing. -/
inductive Turn
  /-- HOST: one aperture access (R62). -/
  | host (a : HostAccess)
  /-- CMD.exec (R163). -/
  | cmdExec
  /-- ARQ.complete (R135). -/
  | arqComplete
  /-- ARQ.timeout (R136). -/
  | arqTimeout
  /-- RXE.take (R146). -/
  | rxeTake
  /-- INJ.start, with its draws (R106 to R109). -/
  | injStart (d : Draws)
  /-- INJ.emit (R111). -/
  | injEmit
  /-- TICK.ms and TICK.inj: one millisecond (R138, R110). -/
  | tick
  /-- NET delivers the `k`-th datagram in flight (R74, R75). -/
  | netDeliver (k : Nat)
  /-- NET loses the `k`-th datagram in flight (R75). -/
  | netLose (k : Nat)
  /-- The `n`-th other emitter, outside this block, puts a datagram on the wire (R74, R183). -/
  | netInject (n : Nat) (d : Datagram)
  /-- A router's injector starts serving a request (R77). -/
  | routerStart (i : Nat) (d : Draws)
  /-- A router's injector emits the request it serves (R77). -/
  | routerEmit (i : Nat)
  /-- The platform asserts (`true`) or releases (`false`) the hard reset input (R185). -/
  | hardReset (asserted : Bool)
  /-- The platform assigns the block's endpoint and the routers, once (R183, R77, R6). -/
  | wire (endpoint : Endpoint) (routers : List Router)
deriving DecidableEq, Repr, Inhabited

/-- TIME_MODEL (R9, R138). -/
inductive TimeModel
  | ticked | untimed
deriving DecidableEq, Repr, Inhabited

/-- NET_MODEL (R9, R75). -/
inductive NetModel
  | fifoLossy | anyOrder
deriving DecidableEq, Repr, Inhabited

/-- ROUTER_FORWARD (R9, R80). -/
inductive RouterForward
  | originalBytes | reencode
deriving DecidableEq, Repr, Inhabited

end Sys2Proof.Machine
end

