-- ==== Sys2Proof/Config.lean ====
section
/-! DEFINITION. What MNC revision 1 fixes, and what it leaves open (00_scope.md R9). The OPEN parameters are constants with
no body: nothing can be proved of their values, so every claim holds for each of them. -/

namespace Sys2Proof.Config

open Sys2Proof.Machine

/-- The aperture: offsets 0x0000 to 0x7FFF (R9, R56). -/
def apertureSize : Nat := 0x8000
/-- MAX_ADDR (R9). -/
def maxAddr : Nat := 64
/-- MAX_TYPE (R9). -/
def maxType : Nat := 32
/-- MAX_TEXT (R9). -/
def maxText : Nat := 1024
/-- FRAME_CAP (R9). -/
def frameCap : Nat := 12288
/-- TXQ_DEPTH (R9, R51). -/
def txqDepth : Nat := 4
/-- RXQ_DEPTH (R9, R53). -/
def rxqDepth : Nat := 4

/-- The constant the ID register holds (R18). -/
def idValue : Word := 0x4D4E4331#32
/-- The constant the REV register holds (R19). -/
def revValue : Word := 0x00000001#32

/-- OPEN: the aperture's base in the host's physical address space, in units of 0x8000 (R57). -/
opaque basePage : Nat
/-- MNC_BASE, "a multiple of 0x8000" (R57). -/
def mncBase : Nat := basePage * apertureSize
/-- HOST offset `o` means host address MNC_BASE + o (R57). -/
def hostAddress (o : Nat) : Nat := mncBase + o

/-- OPEN: CLK_HZ, the block clock in cycles a second (R138). No rule depends on its value. -/
opaque clkHz : Nat
/-- "one tick occurs per millisecond of the block clock, which is CLK_HZ / 1000 cycles" (R138). -/
def cyclesPerTick : Nat := clkHz / 1000

/-- OPEN: TIME_MODEL (R138). -/
opaque timeModel : TimeModel
/-- OPEN: NET_MODEL (R75). -/
opaque netModel : NetModel
/-- OPEN: ROUTER_FORWARD (R80). -/
opaque routerForward : RouterForward

/-- FREE VALUE: the turn taken when the state lists none: which agent moves next, what the host does, which draws the
injector takes and what NET delivers are all "any value" (93_implementation_defined.md I2, I4, I8; RNG, R9). -/
opaque turnAt : Nat → Turn

end Sys2Proof.Config
end

