-- ==== Sys2Proof/Syntax.lean ====
section
/-! DEFINITION. The command set (30_encoding.md R84): one constructor per row of spec/opcode_table.json. A command has no
operand fields (R82): every operand comes from registers and LRAM slots when its execute step runs (R87). -/

namespace Sys2Proof

/-- The nine commands a host can write to CMD (R84). -/
inductive Instr
  /-- 0x00 NOP: nothing but completion (R165). -/
  | nop
  /-- 0x01 ENCODE: workspace fields into the workspace frame buffer (R119). -/
  | encode
  /-- 0x02 DECODE: the workspace frame buffer into the workspace fields (R120). -/
  | decode
  /-- 0x03 CRC32: the checksum of the raw workspace frame buffer (R121). -/
  | crc32
  /-- 0x04 MKPKT: the initial TTL of the workspace packet (R128). -/
  | mkpkt
  /-- 0x05 TTLCHK: the TTL gate on the workspace packet (R129). -/
  | ttlchk
  /-- 0x06 XMIT: the workspace frame buffer through the injector (R113). -/
  | xmit
  /-- 0x07 SEND: open a stop-and-wait session (R132). -/
  | send
  /-- 0x08 RXPOP: release the delivered-message slot (R157). -/
  | rxpop
deriving DecidableEq, Repr

end Sys2Proof
end

