-- ==== Sys2Proof/WellFormed.lean ====
section
/-! DEFINITION. What a well-formed instruction and a well-formed frame value are (30_encoding.md R82, R91). -/

namespace Sys2Proof

open Sys2Proof.Machine

/-- A command has no operand field (R82) and no immediate (R87), so there is nothing to check: every term is well formed. -/
def Instr.wf (_ : Instr) : Bool := true

/-- The capacities of a message's strings (R91). -/
def Machine.Message.wf (m : Message) : Bool :=
  m.type.length ≤ Config.maxType && m.senderAddr.length ≤ Config.maxAddr && m.text.length ≤ Config.maxText

/-- The capacities of a packet's strings (R91). -/
def Machine.Packet.wf (k : Packet) : Bool :=
  k.srcLog.length ≤ Config.maxAddr && k.dstLog.length ≤ Config.maxAddr && k.seg.payload.all Message.wf

/-- The capacities of a frame value's strings (R91). The numeric ranges of R91 are the widths of the fields. -/
def Machine.Frame.wf (f : Frame) : Bool :=
  f.srcPhys.length ≤ Config.maxAddr && f.dstPhys.length ≤ Config.maxAddr && f.pkt.wf

end Sys2Proof
end

