-- ==== Sys2Proof/Decode.lean ====
section
/-! DEFINITION. The command-word decoder and encoder (30_encoding.md R82 to R85). The decoder is total on the 32-bit word and
says by name why it rejects one; rejection is not a stop of the machine: an illegal word completes with E_ILLEGAL (R164). -/

namespace Sys2Proof

/-- The opcode of a command (R84). -/
def Instr.opcode : Instr → BitVec 8
  | .nop    => 0x00#8
  | .encode => 0x01#8
  | .decode => 0x02#8
  | .crc32  => 0x03#8
  | .mkpkt  => 0x04#8
  | .ttlchk => 0x05#8
  | .xmit   => 0x06#8
  | .send   => 0x07#8
  | .rxpop  => 0x08#8

/-- OPC, bits [7:0] of a command word (R82). -/
def commandOpc (w : Word) : BitVec 8 := w.extractLsb' 0 8

/-- RSVD, bits [31:8] of a command word (R82). -/
def commandRsvd (w : Word) : BitVec 24 := w.extractLsb' 8 24

/-- A legal command word: RSVD is zero and OPC is assigned (R82, R85). -/
def commandWordWf (w : Word) : Bool := commandRsvd w == 0#24 && commandOpc w ≤ 0x08#8

/-- Why a command word is illegal (R85). -/
inductive DecodeError
  /-- A bit of RSVD, [31:8], is set. -/
  | rsvdBits (rsvd : BitVec 24)
  /-- OPC is reserved, 0x09 to 0xFF. -/
  | reservedOpcode (opc : BitVec 8)
deriving DecidableEq, Repr

/-- The opcode map (R84), reserved opcodes rejected (R85). -/
def decodeOpc (opc : BitVec 8) : Except DecodeError Instr :=
  if opc = 0x00#8 then .ok .nop
  else if opc = 0x01#8 then .ok .encode
  else if opc = 0x02#8 then .ok .decode
  else if opc = 0x03#8 then .ok .crc32
  else if opc = 0x04#8 then .ok .mkpkt
  else if opc = 0x05#8 then .ok .ttlchk
  else if opc = 0x06#8 then .ok .xmit
  else if opc = 0x07#8 then .ok .send
  else if opc = 0x08#8 then .ok .rxpop
  else .error (.reservedOpcode opc)

/-- The instruction a command word stands for: "the decoder compares all 32 bits" (R84). -/
def decode (w : Word) : Except DecodeError Instr :=
  if commandRsvd w = 0#24 then decodeOpc (commandOpc w) else .error (.rsvdBits (commandRsvd w))

/-- The command word of an instruction, "exactly zext_32(OPC)" (R84). -/
def encode (i : Instr) : Word := i.opcode.setWidth 32

/-- The command word whose low `nbits` bits are those of `w`, every bit above them 0. -/
def tableWord (nbits w : Nat) : Word := BitVec.ofNat 32 (w % 2 ^ nbits)

/-- The instruction the decoder reads from a table word; a command is one 32-bit word (R82, R83), so bits at and above 32 are
not part of it. -/
def decodeTableWord (nbits w : Nat) : Option Instr := (decode (tableWord nbits w)).toOption

end Sys2Proof
end

