-- ==== Sys2Proof/Machine/Codec.lean ====
section
/-! DEFINITION. The frame codec: CRC-32 (41_codec.md R115), the byte-exact text encoding of a frame (30_encoding.md R92 to
R98), the strict parser that accepts exactly the encoder's output (R101, R102), and the encode and decode algorithms that the
commands, the sender, the receive engine and the router share (41_codec.md R117, R118). -/

namespace Sys2Proof.Machine

/-! ### CRC-32 (R115) -/

/-- One of the eight shifts R115 makes for a byte. -/
def crcShift (c : Word) : Word := if c.getLsbD 0 then (c >>> 1) ^^^ 0xEDB88320#32 else c >>> 1

/-- The checksum register after one more input byte (R115). -/
def crcByte (c : Word) (b : Byte) : Word := Nat.repeat crcShift 8 (c ^^^ b.setWidth 32)

/-- `CRC32(s)` (R115): initial value and final XOR 0xFFFFFFFF. -/
def crc32 (s : Bytes) : Word := s.foldl crcByte 0xFFFFFFFF#32 ^^^ 0xFFFFFFFF#32

/-! ### Tokens (R92 to R94) -/

/-- The ASCII bytes of a text (R11). -/
def ascii (s : String) : Bytes := s.toList.map fun c => BitVec.ofNat 8 c.toNat

/-- A lowercase hexadecimal digit, for `n < 16` (R92). -/
def hexDigit (n : Nat) : Byte := BitVec.ofNat 8 (if n < 10 then 0x30 + n else 0x57 + n)

/-- `esc(b)` (R92). -/
def esc (b : Byte) : Bytes :=
  if b = 0x22#8 then [0x5C#8, 0x22#8]
  else if b = 0x5C#8 then [0x5C#8, 0x5C#8]
  else if b = 0x08#8 then [0x5C#8, 0x62#8]
  else if b = 0x0C#8 then [0x5C#8, 0x66#8]
  else if b = 0x0A#8 then [0x5C#8, 0x6E#8]
  else if b = 0x0D#8 then [0x5C#8, 0x72#8]
  else if b = 0x09#8 then [0x5C#8, 0x74#8]
  else if b.toNat < 0x20 ∨ 0x7F ≤ b.toNat then
    [0x5C#8, 0x75#8, 0x30#8, 0x30#8, hexDigit (b.toNat / 16), hexDigit (b.toNat % 16)]
  else [b]

/-- The string token `StrT(s)` (R92). -/
def strT (s : Bytes) : Bytes := 0x22#8 :: (s.flatMap esc ++ [0x22#8])

/-- The decimal digit of `n % 10`. -/
def decDigit (n : Nat) : Byte := BitVec.ofNat 8 (0x30 + n % 10)

/-- The decimal digits of `n` in front of `acc`; `fuel` bounds how many. -/
def decAux : Nat → Nat → Bytes → Bytes
  | 0, _, acc => acc
  | fuel + 1, n, acc => if n < 10 then decDigit n :: acc else decAux fuel (n / 10) (decDigit n :: acc)

/-- `dec(n)`: "the shortest decimal ASCII text of the unsigned integer n" (R11, R93). -/
def dec (n : Nat) : Bytes := decAux (n + 1) n []

/-- The token of a boolean (R94). -/
def boolT (b : Bool) : Bytes := if b then ascii "true" else ascii "false"

/-- The token of the sequence bit, `0` or `1` (R94). -/
def bitT (s : SeqBit) : Bytes := if s = 0#1 then ascii "0" else ascii "1"

/-! ### The fixed texts between the tokens (R95). A brace is the byte 0x7B or 0x7D. -/

def tSenderAddr : Bytes := 0x7B#8 :: ascii "\"senderAddr\": "
def tText : Bytes := ascii ", \"text\": "
def tTimestamp : Bytes := ascii ", \"timestampSeconds\": "
def tType : Bytes := ascii ", \"type\": "
def tIsAck : Bytes := 0x7B#8 :: ascii "\"isAck\": "
def tPayload : Bytes := ascii ", \"payload\": "
def tSequenceBit : Bytes := ascii ", \"sequenceBit\": "
def tPktData : Bytes := 0x7B#8 :: ascii "\"data\": "
def tDstLog : Bytes := ascii ", \"dstLogicalAddr\": "
def tSrcLog : Bytes := ascii ", \"srcLogicalAddr\": "
def tTtl : Bytes := ascii ", \"ttl\": "
def tChecksum : Bytes := 0x7B#8 :: ascii "\"checksum\": "
def tFrameData : Bytes := ascii ", \"data\": "
def tDstPhys : Bytes := ascii ", \"dstPhysAddr\": "
def tSrcPhys : Bytes := ascii ", \"srcPhysAddr\": "
def tNull : Bytes := ascii "null"
def tClose : Bytes := [0x7D#8]

/-! ### Structures (R95, R96) -/

/-- `MsgT(m)` (R95). -/
def msgT (m : Message) : Bytes :=
  tSenderAddr ++ strT m.senderAddr ++ tText ++ strT m.text ++ tTimestamp ++ dec m.ts.toNat ++ tType ++ strT m.type ++ tClose

/-- `PayT(p)` (R95). -/
def payT : Option Message → Bytes
  | none => tNull
  | some m => msgT m

/-- `SegT(s)` (R95). -/
def segT (s : Segment) : Bytes :=
  tIsAck ++ boolT s.isAck ++ tPayload ++ payT s.payload ++ tSequenceBit ++ bitT s.seq ++ tClose

/-- `PktT(k)` (R95). -/
def pktT (k : Packet) : Bytes :=
  tPktData ++ segT k.seg ++ tDstLog ++ strT k.dstLog ++ tSrcLog ++ strT k.srcLog ++ tTtl ++ dec k.ttl.toNat ++ tClose

/-- `FrameT(f, c)` (R95). -/
def frameT (f : Frame) (c : Word) : Bytes :=
  tChecksum ++ dec c.toNat ++ tFrameData ++ pktT f.pkt ++ tDstPhys ++ strT f.dstPhys ++ tSrcPhys ++ strT f.srcPhys ++ tClose

/-- The canonical encoding `Canon(f)`, the input of the checksum (R97). -/
def canon (f : Frame) : Bytes := frameT f 0#32

/-- The wire encoding `Wire(f)` (R98). Its length is what R92 to R95 make it, also where R100's lower bound says otherwise: 177
bytes for the least frame with isAck = true and a one-digit checksum (DEDUCED, assumption log 20). -/
def wire (f : Frame) : Bytes := frameT f f.checksum

/-! ### Parsing (R101, R102). A token reader answers what it read and the bytes that follow. -/

/-- What follows the fixed text `t`, if the input begins with it. -/
def expect : Bytes → Bytes → Option Bytes
  | [], b => some b
  | _ :: _, [] => none
  | x :: t, y :: b => if x = y then expect t b else none

/-- The value of a lowercase hexadecimal digit. -/
def hexValue (b : Byte) : Nat := if b.toNat < 0x3A then b.toNat - 0x30 else b.toNat - 0x57

/-- The byte the next character of a string token can stand for; `charTok` checks that it is spelled as `esc` spells it. -/
def charCandidate : Bytes → Byte
  | [] => 0#8
  | [b] => b
  | b :: e :: rest =>
    if b ≠ 0x5C#8 then b
    else if e = 0x62#8 then 0x08#8
    else if e = 0x66#8 then 0x0C#8
    else if e = 0x6E#8 then 0x0A#8
    else if e = 0x72#8 then 0x0D#8
    else if e = 0x74#8 then 0x09#8
    else if e = 0x75#8 then
      match rest with
      | _ :: _ :: h :: l :: _ => BitVec.ofNat 8 (16 * hexValue h + hexValue l)
      | _ => 0#8
    else e

/-- One character of a string token: the byte `c` whose escape `esc c` the input begins with (R92, R102). -/
def charTok (b : Bytes) : Option (Byte × Bytes) :=
  (expect (esc (charCandidate b)) b).map fun rest => (charCandidate b, rest)

/-- The characters of a string token up to its closing 0x22; `fuel` bounds how many. -/
def charsTok : Nat → Bytes → Option (Bytes × Bytes)
  | 0, _ => none
  | _ + 1, [] => none
  | fuel + 1, x :: b =>
    if x = 0x22#8 then some ([], b)
    else
      match charTok (x :: b) with
      | none => none
      | some (c, rest) =>
        match charsTok fuel rest with
        | none => none
        | some (s, rest') => some (c :: s, rest')

/-- A string token of at most `cap` bytes (R91, R92). -/
def strTok (cap : Nat) (b : Bytes) : Option (Bytes × Bytes) := do
  let b ← expect [0x22#8] b
  let (s, b) ← charsTok b.length b
  if s.length ≤ cap then some (s, b) else none

/-- A decimal digit. -/
def isDigit (b : Byte) : Bool := 0x30#8 ≤ b && b ≤ 0x39#8

/-- The value of a run of decimal digits. -/
def digitsValue (ds : Bytes) : Nat := ds.foldl (fun n d => 10 * n + (d.toNat - 0x30)) 0

/-- A number token below `bound`, in its one decimal form (R93, R102). -/
def numTok (bound : Nat) (b : Bytes) : Option (Nat × Bytes) :=
  let ds := b.takeWhile isDigit
  let n := digitsValue ds
  if dec n = ds ∧ n < bound then some (n, b.drop ds.length) else none

/-- `true` or `false` (R94). -/
def boolTok (b : Bytes) : Option (Bool × Bytes) :=
  match expect (boolT true) b with
  | some rest => some (true, rest)
  | none => (expect (boolT false) b).map fun rest => (false, rest)

/-- `0` or `1` (R94). -/
def bitTok (b : Bytes) : Option (SeqBit × Bytes) :=
  match expect (bitT 0#1) b with
  | some rest => some (0#1, rest)
  | none => (expect (bitT 1#1) b).map fun rest => (1#1, rest)

/-- A message structure (R95). -/
def msgTok (b : Bytes) : Option (Message × Bytes) := do
  let b ← expect tSenderAddr b
  let (senderAddr, b) ← strTok Config.maxAddr b
  let b ← expect tText b
  let (text, b) ← strTok Config.maxText b
  let b ← expect tTimestamp b
  let (ts, b) ← numTok (2 ^ 64) b
  let b ← expect tType b
  let (type, b) ← strTok Config.maxType b
  let b ← expect tClose b
  some ({ type := type, senderAddr := senderAddr, text := text, ts := BitVec.ofNat 64 ts }, b)

/-- `null` or a message (R95). -/
def payTok (b : Bytes) : Option (Option Message × Bytes) :=
  match expect tNull b with
  | some rest => some (none, rest)
  | none => (msgTok b).map fun (m, rest) => (some m, rest)

/-- A segment structure (R95). -/
def segTok (b : Bytes) : Option (Segment × Bytes) := do
  let b ← expect tIsAck b
  let (isAck, b) ← boolTok b
  let b ← expect tPayload b
  let (payload, b) ← payTok b
  let b ← expect tSequenceBit b
  let (seq, b) ← bitTok b
  let b ← expect tClose b
  some ({ seq := seq, isAck := isAck, payload := payload }, b)

/-- A packet structure (R95). -/
def pktTok (b : Bytes) : Option (Packet × Bytes) := do
  let b ← expect tPktData b
  let (seg, b) ← segTok b
  let b ← expect tDstLog b
  let (dstLog, b) ← strTok Config.maxAddr b
  let b ← expect tSrcLog b
  let (srcLog, b) ← strTok Config.maxAddr b
  let b ← expect tTtl b
  let (ttl, b) ← numTok (2 ^ 32) b
  let b ← expect tClose b
  some ({ srcLog := srcLog, dstLog := dstLog, ttl := BitVec.ofNat 32 ttl, seg := seg }, b)

/-- A frame structure (R95). -/
def frameTok (b : Bytes) : Option (Frame × Bytes) := do
  let b ← expect tChecksum b
  let (c, b) ← numTok (2 ^ 32) b
  let b ← expect tFrameData b
  let (pkt, b) ← pktTok b
  let b ← expect tDstPhys b
  let (dstPhys, b) ← strTok Config.maxAddr b
  let b ← expect tSrcPhys b
  let (srcPhys, b) ← strTok Config.maxAddr b
  let b ← expect tClose b
  some ({ srcPhys := srcPhys, dstPhys := dstPhys, checksum := BitVec.ofNat 32 c, pkt := pkt }, b)

/-- `parse(B)` (R101): the frame value `f`, with `f.checksum` the claimed checksum, whose wire encoding is exactly `B`; `none`
where parsing fails, bytes after the closing brace included (R102). -/
def parse (b : Bytes) : Option Frame :=
  match frameTok b with
  | some (f, []) => some f
  | _ => none

/-! ### The encode and decode algorithms -/

/-- `encode_alg` (R117): the wire bytes and the checksum placed in them. -/
def encodeAlg (srcPhys dstPhys : Bytes) (pkt : Packet) : Bytes × Word :=
  let f : Frame := { srcPhys := srcPhys, dstPhys := dstPhys, checksum := 0#32, pkt := pkt }
  let c := crc32 (canon f)
  (wire { f with checksum := c }, c)

/-- `decode_alg` (R118): `none` on a parse failure; else the parsed frame, the recomputed checksum, and whether it equals the
claimed one. -/
def decodeAlg (b : Bytes) : Option (Frame × Word × Bool) :=
  (parse b).map fun f => (f, crc32 (canon f), crc32 (canon f) == f.checksum)

/-- `isTtlValid(p)` (42_packet.md R125). -/
def isTtlValid (ttl : Word) : Bool := ttl != 0#32

end Sys2Proof.Machine
end

