-- ==== Sys2Proof/Machine/State.lean ====
section
/-! DEFINITION. The machine state (10_state.md), the reasons a step can stop, and the state after a hard reset
(70_reset_and_hazards.md R185). The state is plain data: the block's registers, its LRAM, its internal state, the network
environment, and the turns that say which agent moves next. -/

namespace Sys2Proof.Machine

/-- The result codes RESULT.CODE takes (R170). -/
inductive ResultCode
  | ok | eIllegal | eState | eLen | eIntegrity | eOverflow
deriving DecidableEq, Repr

/-- The receive-side discard causes DROP_CAUSE records (R172). -/
inductive DropCause
  | none | integrity | ttl | rxFull | rxqOvf | ignoredAck | rxOff | config
deriving DecidableEq, Repr

/-- The interrupt sources, one IRQ_PEND bit each (R24, R173). -/
inductive IrqBit
  | cmdDone | sendDone | deliver | retx | rxDrop | cmdOvr
deriving DecidableEq, Repr

/-- CMD_PHASE (R54). -/
inductive CmdPhase
  | idle | exec | waitInj
deriving DecidableEq, Repr

/-- ARQ_STATE (R42). -/
inductive ArqState
  | idle | awaitingAck
deriving DecidableEq, Repr

/-- Who asked for an injector request (R51, R104). -/
inductive RequestTag
  | cmdXmit | arqSend | arqRetx | rxeAck
deriving DecidableEq, Repr

/-- The fifteen diagnostic counters (R37). -/
inductive Counter
  | xmit | loss | corrupt | retx | rx | rxIntegrity | rxTtl | rxDup | deliver | ackTx | ackMatch | ackIgnored
  | rxFull | rxqOvf | rxOff
deriving DecidableEq, Repr

/-- The LRAM string slots (R39, R60). -/
inductive Slot
  | myPhys | myLog | peerPhys | peerLog | txmType | txmSender | txmText
  | wsSrcPhys | wsDstPhys | wsSrcLog | wsDstLog | wsType | wsSender | wsText
  | rxmType | rxmSender | rxmText | rxmSrcLog
deriving DecidableEq, Repr

/-- The named registers of the aperture (R17). -/
inductive Reg
  | id | rev | ctrl | status | cmd | result | irqPend | irqEn | pLoss | pCorrupt | latMin | latMax | arqTimeout | ttlInit
  | nextHopIp | nextHopPort | crcOut | timerRemain | wsTtl | wsSeg | wsChecksum | wsTsLo | wsTsHi | wsFrameLen
  | txmTsLo | txmTsHi | rxmTsLo | rxmTsHi | rxmInfo | cnt (c : Counter) | dropCause
deriving DecidableEq, Repr

/-- What stands at an aligned offset of the aperture (R17, R58, R60, R63). -/
inductive ApertureWord
  | reg (r : Reg)
  | slotLen (s : Slot)
  | slotData (s : Slot)
  | frame
  | hole
deriving DecidableEq, Repr

/-- Why the machine stops with a fault. -/
inductive Fault
  /-- A host read or a block step read an LRAM byte of a word that nothing has written since the hard reset (R41, R186,
  93_implementation_defined.md I1 `fault`). Raised by `Memory.readBytes`. Safe: the hardware returns some value that no rule
  depends on, and the model stops. -/
  | unwrittenLram (offset : Nat)
  /-- A host access at an offset the block does not decode (R57). Raised by `hostAccess`. Safe: nothing is claimed of an
  access that does not reach the block. -/
  | outsideAperture (offset : Nat)
deriving DecidableEq, Repr

/-- Why the machine refuses to go on. -/
inductive Refusal
  /-- An instruction without a meaning yet, by its mnemonic in the opcode table. Raised by no arm of `exec` now. Safe: the
  model stops. -/
  | notModelled (mnemonic : String)
deriving DecidableEq, Repr

/-- How a command's checks can end it before its first write: with a result code (R163 `raise Result`), or with a fault. -/
inductive CmdStop
  | result (code : ResultCode)
  | fault (f : Fault)
deriving DecidableEq, Repr

/-- LRAM: the written bytes by aperture offset, offsets strictly rising. An unlisted offset has no value (R41). -/
abbrev Memory := List Host.Cell

/-- RESULT (R23). -/
structure CmdResult where
  code    : ResultCode
  flag    : Bool
  parseOk : Bool
  opc     : BitVec 8
deriving DecidableEq, Repr

/-- The configuration registers (R26 to R31). `channel` holds P_LOSS, P_CORRUPT, LAT_MIN and LAT_MAX. -/
structure ConfigRegs where
  channel     : ChannelParams
  arqTimeout  : Word
  ttlInit     : Word
  nextHopIp   : Word
  nextHopPort : BitVec 16
deriving DecidableEq, Repr

/-- The workspace registers (R34). `seg` is WS_SEG[2:0]: SEQ, ISACK, HASPL from bit 0 up. -/
structure Workspace where
  ttl      : Word
  seg      : BitVec 3
  checksum : Word
  tsLo     : Word
  tsHi     : Word
  frameLen : BitVec 16
deriving DecidableEq, Repr

/-- The timestamp registers of the message SEND transmits (R35). -/
structure TxmRegs where
  tsLo : Word
  tsHi : Word
deriving DecidableEq, Repr

/-- The registers of the delivered message (R36). `info` is RXM_INFO[1:0]: HASPL, SEQ from bit 0 up. -/
structure RxmRegs where
  tsLo : Word
  tsHi : Word
  info : BitVec 2
deriving DecidableEq, Repr

/-- The counters CNT_* (R37). -/
structure Counters where
  xmit        : Word
  loss        : Word
  corrupt     : Word
  retx        : Word
  rx          : Word
  rxIntegrity : Word
  rxTtl       : Word
  rxDup       : Word
  deliver     : Word
  ackTx       : Word
  ackMatch    : Word
  ackIgnored  : Word
  rxFull      : Word
  rxqOvf      : Word
  rxOff       : Word
deriving DecidableEq, Repr

/-- The sender session (R42 to R47). `state` is ARQ_STATE, `txp` ARQ_TXP, `frame` ARQ_FRAME. -/
structure ArqUnit where
  state       : ArqState
  seqBit      : SeqBit
  ackLatch    : Bool
  txp         : Bool
  timerRun    : Bool
  timerRemain : Word
  frame       : Bytes
deriving DecidableEq, Repr

/-- A received datagram in the RXQ (R53). -/
structure RxDatagram where
  bytes : Bytes
  src   : Endpoint
deriving DecidableEq, Repr

/-- The receive engine (R48 to R50, R53). `lastAcc` is LAST_ACC; `none` is the spec's own NONE. -/
structure RxEngine where
  lastAcc : Option SeqBit
  rxmFull : Bool
  rxWait  : Bool
  rxq     : List RxDatagram
deriving DecidableEq, Repr

/-- An injector request (R51, R104). -/
structure Request where
  bytes : Bytes
  dst   : Endpoint
  tag   : RequestTag
deriving DecidableEq, Repr

/-- The injector (R51, R52). `serving` is INJ_REQ; INJ_ACTIVE is 1 exactly when it holds a request. -/
structure Injector where
  txq     : List Request
  serving : Option Request
  delay   : Word
deriving DecidableEq, Repr

/-- The command unit (R54): CMD_PHASE, CMD_WORD, CMD_OPC. -/
structure CmdUnit where
  phase : CmdPhase
  word  : Word
  opc   : BitVec 8
deriving DecidableEq, Repr

/-- The network environment (R74, R77): the endpoint the block is bound to, the datagrams in flight (oldest first), and the
routers. -/
structure Net where
  endpoint : Option Endpoint
  flight   : List Transit
  routers  : List Router
deriving DecidableEq, Repr

/-- The whole machine. The first group is the aperture's registers (R17), then LRAM (R60), then the internal state
(10_state.md section 4); the last group is the model's own: the reset input (R185), the bus's last answer (R62), the
network environment (R74), and the turns to come. -/
structure State where
  rxEn      : Bool
  result    : CmdResult
  irqPend   : BitVec 6
  irqEn     : BitVec 6
  cfg       : ConfigRegs
  crcOut    : Word
  ws        : Workspace
  txm       : TxmRegs
  rxm       : RxmRegs
  cnt       : Counters
  dropCause : DropCause
  lram      : Memory
  arq       : ArqUnit
  rx        : RxEngine
  inj       : Injector
  cmd       : CmdUnit
  resetHeld : Bool
  bus       : BusResponse
  net       : Net
  turns     : List Turn
  turnCount : Nat
deriving DecidableEq, Repr

/-- Right after a hard reset (R185): every register and every internal state at the value the table gives, LRAM with nothing
written. The environment holds nothing: no endpoint assigned, nothing in flight, no routers, no turn listed. -/
def State.reset : State where
  rxEn      := false
  result    := { code := .ok, flag := false, parseOk := false, opc := 0#8 }
  irqPend   := 0#6
  irqEn     := 0#6
  cfg       :=
    { channel     := { pLoss := 0x3333#17, pCorrupt := 0x3333#17, latMin := 100#32, latMax := 500#32 }
      arqTimeout  := 2500#32
      ttlInit     := 10#32
      nextHopIp   := 0#32
      nextHopPort := 0#16 }
  crcOut    := 0#32
  ws        := { ttl := 0#32, seg := 0#3, checksum := 0#32, tsLo := 0#32, tsHi := 0#32, frameLen := 0#16 }
  txm       := { tsLo := 0#32, tsHi := 0#32 }
  rxm       := { tsLo := 0#32, tsHi := 0#32, info := 0#2 }
  cnt       :=
    { xmit := 0#32, loss := 0#32, corrupt := 0#32, retx := 0#32, rx := 0#32, rxIntegrity := 0#32, rxTtl := 0#32,
      rxDup := 0#32, deliver := 0#32, ackTx := 0#32, ackMatch := 0#32, ackIgnored := 0#32, rxFull := 0#32,
      rxqOvf := 0#32, rxOff := 0#32 }
  dropCause := .none
  lram      := []
  arq       :=
    { state := .idle, seqBit := 0#1, ackLatch := false, txp := false, timerRun := false, timerRemain := 0#32, frame := [] }
  rx        := { lastAcc := .none, rxmFull := false, rxWait := false, rxq := [] }
  inj       := { txq := [], serving := .none, delay := 0#32 }
  cmd       := { phase := .idle, word := 0#32, opc := 0#8 }
  resetHeld := false
  bus       := .idle
  net       := { endpoint := .none, flight := [], routers := [] }
  turns     := []
  turnCount := 0

end Sys2Proof.Machine
end

