-- ==== Sys2Proof/Machine/Flags.lean ====
section
/-! DEFINITION. The block's flags (10_state.md R55): the interrupt pending bits and the interrupt output (R174, R175), the
derived STATUS word (R21), the RESULT word (R23), the codes of results and discard causes (R170, R172), and the counters
(R37). -/

namespace Sys2Proof.Machine

/-- The bit of an interrupt source in IRQ_PEND and IRQ_EN (R24, R173). -/
def IrqBit.mask : IrqBit → BitVec 6
  | .cmdDone  => 0x01#6
  | .sendDone => 0x02#6
  | .deliver  => 0x04#6
  | .retx     => 0x08#6
  | .rxDrop   => 0x10#6
  | .cmdOvr   => 0x20#6

/-- `irq(BIT)`: set the pending bit, whether or not it is enabled (R174). -/
def State.irq (s : State) (b : IrqBit) : State := { s with irqPend := s.irqPend ||| b.mask }

/-- The interrupt output: `OR over i of (IRQ_PEND[i] AND IRQ_EN[i])` (R175). -/
def State.irqOutput (s : State) : Bool := s.irqPend &&& s.irqEn != 0#6

/-- RESULT.CODE (R170). -/
def ResultCode.toByte : ResultCode → BitVec 8
  | .ok         => 0#8
  | .eIllegal   => 1#8
  | .eState     => 2#8
  | .eLen       => 3#8
  | .eIntegrity => 4#8
  | .eOverflow  => 5#8

/-- DROP_CAUSE[7:0] (R172). -/
def DropCause.toByte : DropCause → BitVec 8
  | .none       => 0#8
  | .integrity  => 1#8
  | .ttl        => 2#8
  | .rxFull     => 3#8
  | .rxqOvf     => 4#8
  | .ignoredAck => 5#8
  | .rxOff      => 6#8
  | .config     => 7#8

/-- A one-bit field at bit `i` of a register word. -/
def bitField (b : Bool) (i : Nat) : Word := if b then 1#32 <<< i else 0#32

/-- The RESULT word: CODE [7:0], FLAG [8], PARSE_OK [9], OPC [23:16], the rest 0 (R23). -/
def CmdResult.toWord (r : CmdResult) : Word :=
  r.code.toByte.setWidth 32 ||| bitField r.flag 8 ||| bitField r.parseOk 9 ||| (r.opc.setWidth 32 <<< 16)

/-- STATUS.BUSY: 1 exactly when CMD_PHASE is not IDLE (R54). -/
def State.busy (s : State) : Bool := s.cmd.phase != .idle

/-- STATUS.ARQ_AWAIT (R42). -/
def State.arqAwait (s : State) : Bool := s.arq.state == .awaitingAck

/-- STATUS.INJ_ACTIVE (R52). -/
def State.injActive (s : State) : Bool := s.inj.serving.isSome

/-- STATUS.LAST_ACC: 0, 1, or 3 for NONE (R48). -/
def lastAccCode : Option SeqBit → BitVec 2
  | none => 3#2
  | some b => b.setWidth 2

/-- The STATUS word (R21). -/
def State.statusWord (s : State) : Word :=
  bitField s.busy 0 ||| bitField s.arqAwait 1 ||| (s.arq.seqBit.setWidth 32 <<< 2) ||| bitField s.arq.ackLatch 3
    ||| bitField s.arq.timerRun 4 ||| ((lastAccCode s.rx.lastAcc).setWidth 32 <<< 5) ||| bitField s.rx.rxmFull 7
    ||| ((BitVec.ofNat 3 s.inj.txq.length).setWidth 32 <<< 8) ||| ((BitVec.ofNat 3 s.rx.rxq.length).setWidth 32 <<< 11)
    ||| bitField s.injActive 14 ||| bitField s.rx.rxWait 15 ||| bitField s.arq.txp 16

/-- The value of a counter (R37). -/
def Counters.get (c : Counters) : Counter → Word
  | .xmit        => c.xmit
  | .loss        => c.loss
  | .corrupt     => c.corrupt
  | .retx        => c.retx
  | .rx          => c.rx
  | .rxIntegrity => c.rxIntegrity
  | .rxTtl       => c.rxTtl
  | .rxDup       => c.rxDup
  | .deliver     => c.deliver
  | .ackTx       => c.ackTx
  | .ackMatch    => c.ackMatch
  | .ackIgnored  => c.ackIgnored
  | .rxFull      => c.rxFull
  | .rxqOvf      => c.rxqOvf
  | .rxOff       => c.rxOff

/-- One counter incremented "by 1 modulo 2^32" (R37, R12). -/
def Counters.bump (c : Counters) : Counter → Counters
  | .xmit        => { c with xmit := c.xmit + 1#32 }
  | .loss        => { c with loss := c.loss + 1#32 }
  | .corrupt     => { c with corrupt := c.corrupt + 1#32 }
  | .retx        => { c with retx := c.retx + 1#32 }
  | .rx          => { c with rx := c.rx + 1#32 }
  | .rxIntegrity => { c with rxIntegrity := c.rxIntegrity + 1#32 }
  | .rxTtl       => { c with rxTtl := c.rxTtl + 1#32 }
  | .rxDup       => { c with rxDup := c.rxDup + 1#32 }
  | .deliver     => { c with deliver := c.deliver + 1#32 }
  | .ackTx       => { c with ackTx := c.ackTx + 1#32 }
  | .ackMatch    => { c with ackMatch := c.ackMatch + 1#32 }
  | .ackIgnored  => { c with ackIgnored := c.ackIgnored + 1#32 }
  | .rxFull      => { c with rxFull := c.rxFull + 1#32 }
  | .rxqOvf      => { c with rxqOvf := c.rxqOvf + 1#32 }
  | .rxOff       => { c with rxOff := c.rxOff + 1#32 }

/-- `R[CNT_x] <- R[CNT_x] + 1 mod 2^32`. -/
def State.bump (s : State) (c : Counter) : State := { s with cnt := s.cnt.bump c }

/-- `R[DROP_CAUSE] <- cause` (R38). -/
def State.drop (s : State) (cause : DropCause) : State := { s with dropCause := cause }

end Sys2Proof.Machine
end

