-- ==== Sys2Proof/Machine/Ops.lean ====
section
/-! DEFINITION. The named operations the meanings and the agents' steps share: LRAM (20_memory.md R58 to R60), the completion
of a command and `raise Result` (45_control.md R163), the injector queue (40_channel.md R104), and the draws (00_scope.md R11).
The block has no traps (60_exceptions.md R178): `State.raiseResult` is the one way a command ends exceptionally. -/

namespace Sys2Proof.Machine

/-! ### LRAM as a list of cells (R41) -/

/-- The byte at offset `a`; `none` where nothing has been written since the hard reset (R41). -/
def Memory.read (m : Memory) (a : Nat) : Option Byte := (m.find? fun c => c.1 == a).map (·.2)

/-- Cells for the bytes of `bs` at rising offsets from `a`. -/
def cellsAt (a : Nat) : Bytes → Memory
  | [] => []
  | b :: bs => (a, b) :: cellsAt (a + 1) bs

/-- The bytes `bs` stored from offset `a` on, every other offset as before. -/
def Memory.store (m : Memory) (a : Nat) (bs : Bytes) : Memory :=
  m.filter (fun c => c.1 < a) ++ cellsAt a bs ++ m.filter (fun c => a + bs.length ≤ c.1)

/-- How many bytes complete the last 32-bit word of `n` bytes. -/
def wordPad (n : Nat) : Nat := (4 - n % 4) % 4

/-- The `n` bytes from offset `a`, 0 where nothing has been written. -/
def Memory.fill (m : Memory) (a : Nat) : Nat → Bytes
  | 0 => []
  | n + 1 => (m.read a).getD 0#8 :: Memory.fill m (a + 1) n

/-- A block step's write of `bs` from the word-aligned offset `a`. LRAM is absent or written word by word (R41, R186): in a
last word that `bs` fills only in part, the other bytes keep their values, and one that had none reads 0 from then on
(DEDUCED, 95_test_vectors.md P-2 step 29; assumption log 2). -/
def Memory.write (m : Memory) (a : Nat) (bs : Bytes) : Memory :=
  m.store a (bs ++ m.fill (a + bs.length) (wordPad bs.length))

/-- The `n` bytes from offset `a`; a byte without a value is a fault (R41, R186). -/
def Memory.readBytes (m : Memory) (a : Nat) : Nat → Except Fault Bytes
  | 0 => .ok []
  | n + 1 =>
    match m.read a with
    | none => .error (.unwrittenLram a)
    | some b =>
      match Memory.readBytes m (a + 1) n with
      | .error f => .error f
      | .ok bs => .ok (b :: bs)

/-- The word of four bytes, the byte at the lowest offset in bits [7:0] (R58, R64). -/
def wordOfBytes : Bytes → Word
  | [] => 0#32
  | b :: bs => b.setWidth 32 ||| (wordOfBytes bs <<< 8)

/-- The four bytes of a word, bits [7:0] first (R58, R64). -/
def bytesOfWord (w : Word) : Bytes :=
  [w.extractLsb' 0 8, w.extractLsb' 8 8, w.extractLsb' 16 8, w.extractLsb' 24 8]

/-- The 32-bit LRAM word at the aligned offset `a`. -/
def Memory.readWord (m : Memory) (a : Nat) : Except Fault Word :=
  match m.readBytes a 4 with
  | .error f => .error f
  | .ok bs => .ok (wordOfBytes bs)

/-! ### The LRAM map (R60) -/

/-- The base offset of a slot (R60). -/
def Slot.base : Slot → Nat
  | .myPhys    => 0x1000
  | .myLog     => 0x1080
  | .peerPhys  => 0x1100
  | .peerLog   => 0x1180
  | .txmType   => 0x1200
  | .txmSender => 0x1240
  | .txmText   => 0x1300
  | .wsSrcPhys => 0x1800
  | .wsDstPhys => 0x1880
  | .wsSrcLog  => 0x1900
  | .wsDstLog  => 0x1980
  | .wsType    => 0x1A00
  | .wsSender  => 0x1A40
  | .wsText    => 0x1B00
  | .rxmType   => 0x2000
  | .rxmSender => 0x2040
  | .rxmText   => 0x2100
  | .rxmSrcLog => 0x2600

/-- The capacity of a slot (R39, R60). -/
def Slot.cap : Slot → Nat
  | .txmType | .wsType | .rxmType => Config.maxType
  | .txmText | .wsText | .rxmText => Config.maxText
  | .myPhys | .myLog | .peerPhys | .peerLog | .txmSender | .wsSrcPhys | .wsDstPhys | .wsSrcLog | .wsDstLog | .wsSender
  | .rxmSender | .rxmSrcLog => Config.maxAddr

/-- Whether the host may only read a slot (R39, R60, R61). -/
def Slot.readOnly : Slot → Bool
  | .rxmType | .rxmSender | .rxmText | .rxmSrcLog => true
  | .myPhys | .myLog | .peerPhys | .peerLog | .txmType | .txmSender | .txmText | .wsSrcPhys | .wsDstPhys | .wsSrcLog
  | .wsDstLog | .wsType | .wsSender | .wsText => false

/-- The slots in the order of their bases (R60). -/
def Slot.all : List Slot :=
  [.myPhys, .myLog, .peerPhys, .peerLog, .txmType, .txmSender, .txmText, .wsSrcPhys, .wsDstPhys, .wsSrcLog, .wsDstLog,
    .wsType, .wsSender, .wsText, .rxmType, .rxmSender, .rxmText, .rxmSrcLog]

/-- The offset of a slot's data byte 0 (R58). -/
def Slot.data (sl : Slot) : Nat := sl.base + 4

/-- The offset of WS_FRAME byte 0 (R60). -/
def frameBase : Nat := 0x4000

/-! ### String slots (R58, R59) -/

/-- `LEN(SLOT)`: bits [15:0] of the slot's length word (R58). -/
def Memory.slotLen (m : Memory) (sl : Slot) : Except Fault Nat :=
  match m.readWord sl.base with
  | .error f => .error f
  | .ok w => .ok (w.extractLsb' 0 16).toNat

/-- `S[SLOT]`, its data bytes 0 to LEN-1 (R58). -/
def Memory.slotRead (m : Memory) (sl : Slot) : Except Fault Bytes :=
  match m.slotLen sl with
  | .error f => .error f
  | .ok n => m.readBytes sl.data n

/-- `S[SLOT] <- s`: LEN = len(s), then data bytes 0 to len(s)-1 (R58). -/
def Memory.slotWrite (m : Memory) (sl : Slot) (s : Bytes) : Memory :=
  (m.write sl.base (bytesOfWord (BitVec.ofNat 32 s.length))).write sl.data s

/-- LRAM replaced. -/
def State.withLram (s : State) (m : Memory) : State := { s with lram := m }

/-- `S[SLOT] <- bytes` in the state (R58). -/
def State.writeSlot (s : State) (sl : Slot) (bytes : Bytes) : State := s.withLram (s.lram.slotWrite sl bytes)

/-! ### The end of a command (R163) -/

/-- A command ends: RESULT is written, CMD_PHASE becomes IDLE, CMD_DONE is raised (R163). -/
def State.finish (s : State) (r : CmdResult) : State :=
  { s with result := r, cmd := { s.cmd with phase := .idle } }.irq .cmdDone

/-- A command ends with CODE = OK (and FLAG = 0, PARSE_OK = 0). -/
def State.finishOk (s : State) (opc : BitVec 8) : State :=
  s.finish { code := .ok, flag := false, parseOk := false, opc := opc }

/-- `raise Result(code)`, with OPC = CMD_OPC (R163). -/
def State.raiseResult (s : State) (code : ResultCode) : State :=
  s.finish { code := code, flag := false, parseOk := false, opc := s.cmd.opc }

/-- What a command's execute step answers: its next state, the raised result in the state it started from ("a raised command
changes nothing but RESULT, CMD_PHASE and IRQ_PEND.CMD_DONE", R163), or a fault. -/
def State.endCommand (s : State) : Except CmdStop State → Host.Outcome State Fault Refusal
  | .ok t => .next t
  | .error (.result code) => .next (s.raiseResult code)
  | .error (.fault f) => .fault f

/-! ### The injector queue and the draws -/

/-- The real endpoint every emitted datagram is addressed to (R31). -/
def State.nextHop (s : State) : Endpoint := { ip := s.cfg.nextHopIp, port := s.cfg.nextHopPort }

/-- `enqueue(TXQ, (b, NEXT_HOP, tag))` (R11, R104). -/
def State.enqueue (s : State) (b : Bytes) (tag : RequestTag) : State :=
  { s with inj := { s.inj with txq := s.inj.txq ++ [{ bytes := b, dst := s.nextHop, tag := tag }] } }

/-- `draw_range(lo, hi)`: the draw `x` brought into the closed interval; every value of the interval is its own draw (R11). -/
def drawRange (lo hi x : Nat) : Nat := max lo (min x hi)

end Sys2Proof.Machine
end

