-- ==== Sys2Proof/Machine/Operands.lean ====
section
/-! DEFINITION. Operand assembly (30_encoding.md R87): the numeric fields of the workspace and TXM registers, the strings of
the slots with their length checks (20_memory.md R59), the packet ENCODE and SEND build, and the bytes of the workspace frame
buffer (10_state.md R40). -/

namespace Sys2Proof.Machine

/-- `R[WS_SEG].SEQ` (R34). -/
def Workspace.seq (w : Workspace) : SeqBit := w.seg.extractLsb' 0 1
/-- `R[WS_SEG].ISACK` (R34). -/
def Workspace.isAck (w : Workspace) : Bool := w.seg.getLsbD 1
/-- `R[WS_SEG].HASPL` (R34). -/
def Workspace.hasPl (w : Workspace) : Bool := w.seg.getLsbD 2

/-- WS_SEG from its fields (R34). -/
def segBits (seq : SeqBit) (isAck hasPl : Bool) : BitVec 3 :=
  BitVec.ofBool hasPl ++ BitVec.ofBool isAck ++ seq

/-- RXM_INFO from its fields: HASPL in bit 0, SEQ in bit 1 (R36). -/
def infoBits (hasPl : Bool) (seq : SeqBit) : BitVec 2 := seq ++ BitVec.ofBool hasPl

/-- The 64-bit value `HI * 2^32 + LO` (R64, R87). -/
def timestamp (lo hi : Word) : BitVec 64 := hi ++ lo

/-- Bits [31:0] of a timestamp (R64). -/
def timestampLo (t : BitVec 64) : Word := t.extractLsb' 0 32

/-- Bits [63:32] of a timestamp (R64). -/
def timestampHi (t : BitVec 64) : Word := t.extractLsb' 32 32

/-- The slots' LEN words are within capacity, checked in the order listed: the first above its capacity raises E_LEN (R59,
R119, R132). -/
def checkLens (m : Memory) : List Slot → Except CmdStop Unit
  | [] => .ok ()
  | sl :: rest =>
    match m.slotLen sl with
    | .error f => .error (.fault f)
    | .ok n => if sl.cap < n then .error (.result .eLen) else checkLens m rest

/-- `S[SLOT]` as a command's operand. -/
def slotOperand (m : Memory) (sl : Slot) : Except CmdStop Bytes := (m.slotRead sl).mapError .fault

/-- The message held by three slots and a timestamp. -/
def messageOperand (m : Memory) (type sender text : Slot) (ts : BitVec 64) : Except CmdStop Message := do
  let ty ← slotOperand m type
  let se ← slotOperand m sender
  let te ← slotOperand m text
  pure { type := ty, senderAddr := se, text := te, ts := ts }

/-- The workspace payload: the workspace message when HASPL is 1, null otherwise; "message slots are not read when
HASPL = 0" (R119). -/
def workspacePayload (m : Memory) (w : Workspace) : Except CmdStop (Option Message) :=
  if w.hasPl then do
    checkLens m [.wsType, .wsSender, .wsText]
    let msg ← messageOperand m .wsType .wsSender .wsText (timestamp w.tsLo w.tsHi)
    pure (some msg)
  else pure none

/-- The physical addresses and the packet ENCODE reads from the workspace (R119): the checks before the reads. -/
def workspaceOperands (m : Memory) (w : Workspace) : Except CmdStop (Bytes × Bytes × Packet) := do
  checkLens m [.wsSrcPhys, .wsDstPhys, .wsSrcLog, .wsDstLog]
  let payload ← workspacePayload m w
  let srcPhys ← slotOperand m .wsSrcPhys
  let dstPhys ← slotOperand m .wsDstPhys
  let srcLog ← slotOperand m .wsSrcLog
  let dstLog ← slotOperand m .wsDstLog
  pure (srcPhys, dstPhys,
    { srcLog := srcLog, dstLog := dstLog, ttl := w.ttl, seg := { seq := w.seq, isAck := w.isAck, payload := payload } })

/-- The physical addresses and the packet SEND builds (R132): identity slots, the TXM message, TTL_INIT, SEQ_BIT. -/
def sendOperands (s : State) : Except CmdStop (Bytes × Bytes × Packet) := do
  checkLens s.lram [.myPhys, .peerPhys, .myLog, .peerLog, .txmSender, .txmType, .txmText]
  let msg ← messageOperand s.lram .txmType .txmSender .txmText (timestamp s.txm.tsLo s.txm.tsHi)
  let srcPhys ← slotOperand s.lram .myPhys
  let dstPhys ← slotOperand s.lram .peerPhys
  let srcLog ← slotOperand s.lram .myLog
  let dstLog ← slotOperand s.lram .peerLog
  pure (srcPhys, dstPhys,
    { srcLog := srcLog, dstLog := dstLog, ttl := s.cfg.ttlInit,
      seg := { seq := s.arq.seqBit, isAck := false, payload := some msg } })

/-- WS_FRAME bytes 0 to WS_FRAME_LEN-1, with E_LEN where WS_FRAME_LEN exceeds FRAME_CAP (R40, R113, R120, R121). -/
def frameOperand (s : State) : Except CmdStop Bytes :=
  if Config.frameCap < s.ws.frameLen.toNat then .error (.result .eLen)
  else (s.lram.readBytes frameBase s.ws.frameLen.toNat).mapError .fault

end Sys2Proof.Machine
end

