-- ==== Sys2Proof/Machine/Arq.lean ====
section
/-! DEFINITION. The stop-and-wait sender (43_arq.md): SEND (R132), the completion of a transmission (R133, R134), the steps
ARQ.complete (R135) and ARQ.timeout (R136), and the millisecond tick (R138). -/

namespace Sys2Proof.Machine

/-- The writes of a SEND that opens a session with the encoded frame `w` (R132); BUSY stays 1 until the injector completes the
request. -/
def sendWrites (s : State) (w : Bytes) : State :=
  let s1 : State :=
    { s with
      arq :=
        { s.arq with
          frame := w, ackLatch := false, state := .awaitingAck, txp := true, timerRun := false, timerRemain := 0#32 } }
  let s2 := s1.enqueue w .arqSend
  { s2 with cmd := { s2.cmd with phase := .waitInj } }

/-- SEND (R132): E_STATE while a session is open, then E_LEN, then the session opens. -/
def execSend (s : State) : Host.Outcome State Fault Refusal :=
  s.endCommand
    (if s.arq.state = .idle then (sendOperands s).map fun x => sendWrites s (encodeAlg x.1 x.2.1 x.2.2).1
      else .error (.result .eState))

/-- `arq_txdone`: the ARQ transmission has passed through the injector, and the timer starts (R134). -/
def arqTxDone (s : State) : State :=
  { s with arq := { s.arq with txp := false, timerRemain := s.cfg.arqTimeout, timerRun := true } }

/-- TIMER_REMAIN = 0 for the enabling of ARQ.timeout; under UNTIMED it is "treated as already 0" (R138). -/
def timerExpired (s : State) : Bool := s.arq.timerRemain == 0#32 || Config.timeModel == .untimed

/-- ARQ.complete is enabled (R135). -/
def arqCompleteEnabled (s : State) : Bool := s.arq.state == .awaitingAck && !s.arq.txp && s.arq.ackLatch

/-- ARQ.timeout is enabled (R136); a set latch disables it (R137). -/
def arqTimeoutEnabled (s : State) : Bool :=
  s.arq.state == .awaitingAck && !s.arq.txp && s.arq.timerRun && timerExpired s && !s.arq.ackLatch

/-- The effect of ARQ.complete (R135): the timer is cancelled, the sequence bit flips, the session ends. -/
def arqComplete (s : State) : State :=
  { s with
    arq :=
      { s.arq with timerRun := false, timerRemain := 0#32, seqBit := s.arq.seqBit.flip, state := .idle } }.irq .sendDone

/-- The effect of ARQ.timeout (R136): the same frame is queued again. TIMER_REMAIN, already 0 when the timer has run out, is 0
again whenever TIMER_RUN is 0 (R46), also under UNTIMED (DEDUCED, assumption log 7). -/
def arqTimeout (s : State) : State :=
  let s1 : State := { s with arq := { s.arq with timerRun := false, timerRemain := 0#32, txp := true } }
  ((s1.enqueue s.arq.frame .arqRetx).bump .retx).irq .retx

/-- One millisecond of a down-counter that stops at 0. -/
def countDown (w : Word) : Word := if w = 0#32 then 0#32 else w - 1#32

/-- TICK.ms with TICK.inj: the block's two down-counters under TICKED (R138, R110). Under UNTIMED "TICK takes no steps". -/
def tickBlock (s : State) : State :=
  if Config.timeModel = .ticked then
    { s with
      arq := if s.arq.timerRun then { s.arq with timerRemain := countDown s.arq.timerRemain } else s.arq
      inj := if s.injActive then { s.inj with delay := countDown s.inj.delay } else s.inj }
  else s

end Sys2Proof.Machine
end

