-- ==== Sys2Proof/Machine/Channel.lean ====
section
/-! DEFINITION. The channel injector (40_channel.md): one attempt's loss, corruption and delay (R107 to R109), the steps
INJ.start (R106) and INJ.emit (R111), the completion of a request (R112), and the XMIT command (R113, R114). -/

namespace Sys2Proof.Machine

/-- `min(P[16:0], 0x10000)`, the bound a 16-bit draw is compared with (R26, R107). -/
def threshold (p : BitVec 17) : Nat := min p.toNat 0x10000

/-- `b[k] <- b[k] XOR 0xFF` (R108). -/
def complementAt (b : Bytes) (k : Nat) : Bytes := b.modify k (· ^^^ 0xFF#8)

/-- What an attempt does with the bytes it is given (R107 to R109). -/
inductive Attempt
  /-- Discarded by the loss draw. -/
  | lost
  /-- To be emitted after `delay` milliseconds; `corrupted` when one byte was complemented. -/
  | sent (bytes : Bytes) (corrupted : Bool) (delay : Word)
deriving DecidableEq, Repr

/-- Whether the attempt is lost (R107). -/
def isLost (p : ChannelParams) (d : Draws) : Bool := decide (d.loss.toNat < threshold p.pLoss)

/-- Whether one byte is complemented: no corruption draw is taken for an empty datagram (R108). -/
def isCorrupted (p : ChannelParams) (d : Draws) (b : Bytes) : Bool :=
  !b.isEmpty && decide (d.corrupt.toNat < threshold p.pCorrupt)

/-- The delay, drawn in the closed interval of the two bounds in either order (R109). -/
def attemptDelay (p : ChannelParams) (d : Draws) : Word :=
  BitVec.ofNat 32 (drawRange (min p.latMin.toNat p.latMax.toNat) (max p.latMin.toNat p.latMax.toNat) d.delay)

/-- One attempt, in the source's order: loss, then corruption, then delay (R107 to R109). -/
def attempt (p : ChannelParams) (d : Draws) (b : Bytes) : Attempt :=
  if isLost p d then .lost
  else if isCorrupted p d b then .sent (complementAt b (drawRange 0 (b.length - 1) d.pos)) true (attemptDelay p d)
  else .sent b false (attemptDelay p d)

/-- `complete(req)`: the requester's completion action, by the request's tag (R112, R114, R133, R134, R156). -/
def completeRequest (tag : RequestTag) (s : State) : State :=
  match tag with
  | .cmdXmit => s.finishOk 0x06#8
  | .arqSend => (arqTxDone s).finishOk 0x07#8
  | .arqRetx => arqTxDone s
  | .rxeAck  => { s with rx := { s.rx with rxWait := false } }

/-- The injector serves nothing: `INJ_ACTIVE <- 0; INJ_REQ <- none` (R107, R111). -/
def injIdle (s : State) : State := { s with inj := { s.inj with serving := none } }

/-- INJ.start on the head request `req` with `rest` behind it (R106 to R109). -/
def injServe (req : Request) (rest : List Request) (d : Draws) (s : State) : State :=
  let s1 := { s with inj := { s.inj with txq := rest, serving := some req } }.bump .xmit
  match attempt s.cfg.channel d req.bytes with
  | .lost => injIdle (completeRequest req.tag (s1.bump .loss))
  | .sent b corrupted delay =>
    let s2 := { s1 with inj := { s1.inj with serving := some { req with bytes := b }, delay := delay } }
    if corrupted then s2.bump .corrupt else s2

/-- Step INJ.start: enabled when the injector is inactive and TXQ is not empty (R106). -/
def injStart (d : Draws) (s : State) : State :=
  match s.inj.serving, s.inj.txq with
  | none, req :: rest => injServe req rest d s
  | _, _ => s

/-- INJ_DELAY = 0 for the enabling of INJ.emit; under UNTIMED it is "treated as already 0" (R109, R138). -/
def delayElapsed (delay : Word) : Bool := delay == 0#32 || Config.timeModel == .untimed

/-- The source endpoint of what the block emits: its own, or 0.0.0.0:0 while the platform has assigned none. -/
def State.sourceEndpoint (s : State) : Endpoint := s.net.endpoint.getD { ip := 0#32, port := 0#16 }

/-- The datagram goes to NET (R74, R111). -/
def emitDatagram (req : Request) (s : State) : State :=
  { s with
    net :=
      { s.net with
        flight := s.net.flight
          ++ [{ emitter := .block, datagram := { bytes := req.bytes, dst := req.dst, src := s.sourceEndpoint } }] } }

/-- Step INJ.emit: enabled when a request is served and its delay has run out (R111). -/
def injEmit (s : State) : State :=
  match s.inj.serving with
  | none => s
  | some req =>
    if delayElapsed s.inj.delay then injIdle (completeRequest req.tag (emitDatagram req s)) else s

/-- The writes of an accepted XMIT: the request with a private copy of the bytes; BUSY stays 1 (R113, R104). -/
def xmitWrites (s : State) (b : Bytes) : State :=
  let s1 := s.enqueue b .cmdXmit
  { s1 with cmd := { s1.cmd with phase := .waitInj } }

/-- XMIT (R113): the workspace frame buffer, unchecked, through the injector. -/
def execXmit (s : State) : Host.Outcome State Fault Refusal :=
  s.endCommand ((frameOperand s).map (xmitWrites s))

end Sys2Proof.Machine
end

