-- ==== Sys2Proof/Machine/CodecCommands.lean ====
section
/-! DEFINITION. The codec's commands (41_codec.md): ENCODE (R119), DECODE (R120), CRC32 (R121). -/

namespace Sys2Proof.Machine

/-- The writes of a successful ENCODE, in R119's order: WS_FRAME, WS_FRAME_LEN, WS_CHECKSUM, CRC_OUT, then completion. -/
def encodeWrites (s : State) (w : Bytes) (c : Word) : State :=
  { s with
    lram   := s.lram.write frameBase w
    ws     := { s.ws with frameLen := BitVec.ofNat 16 w.length, checksum := c }
    crcOut := c }.finishOk 0x01#8

/-- ENCODE's end once its operands are read: E_OVERFLOW where the frame would exceed FRAME_CAP, "never taken" (R119). -/
def encodeFrom (s : State) (x : Bytes × Bytes × Packet) : Except CmdStop State :=
  if Config.frameCap < (encodeAlg x.1 x.2.1 x.2.2).1.length then .error (.result .eOverflow)
  else .ok (encodeWrites s (encodeAlg x.1 x.2.1 x.2.2).1 (encodeAlg x.1 x.2.1 x.2.2).2)

/-- ENCODE (R119): encode the workspace fields into the workspace frame buffer. -/
def execEncode (s : State) : Host.Outcome State Fault Refusal :=
  s.endCommand ((workspaceOperands s.lram s.ws).bind (encodeFrom s))

/-- The workspace message slots and timestamp registers of a parsed payload; "when the payload is null, the message slots and
WS_TS_* keep their old values" (R120). -/
def decodePayload (s : State) : Option Message → State
  | none => s
  | some m =>
    { ((s.writeSlot .wsType m.type).writeSlot .wsSender m.senderAddr).writeSlot .wsText m.text with
      ws := { s.ws with tsLo := timestampLo m.ts, tsHi := timestampHi m.ts } }

/-- The writes of a DECODE whose bytes parsed to `f` (R120): the workspace strings and registers, the claimed and the
recomputed checksum, then completion. -/
def decodeWrites (s : State) (f : Frame) (recomputed : Word) (valid : Bool) : State :=
  let s1 := (((s.writeSlot .wsSrcPhys f.srcPhys).writeSlot .wsDstPhys f.dstPhys).writeSlot .wsSrcLog f.pkt.srcLog).writeSlot
    .wsDstLog f.pkt.dstLog
  let s2 := decodePayload s1 f.pkt.seg.payload
  { s2 with
    ws :=
      { s2.ws with
        ttl      := f.pkt.ttl
        seg      := segBits f.pkt.seg.seq f.pkt.seg.isAck f.pkt.seg.payload.isSome
        checksum := f.checksum }
    crcOut := recomputed }.finish
      { code := if valid then .ok else .eIntegrity, flag := valid, parseOk := true, opc := 0x02#8 }

/-- DECODE's end on the bytes `b` (R120): on a parse failure no field is written. -/
def decodeFrom (s : State) (b : Bytes) : State :=
  match decodeAlg b with
  | none => s.finish { code := .eIntegrity, flag := false, parseOk := false, opc := 0x02#8 }
  | some (f, recomputed, valid) => decodeWrites s f recomputed valid

/-- DECODE (R120): decode and validate the workspace frame buffer into the workspace fields. -/
def execDecode (s : State) : Host.Outcome State Fault Refusal :=
  s.endCommand ((frameOperand s).map (decodeFrom s))

/-- CRC32's writes (R121). -/
def crcWrites (s : State) (b : Bytes) : State := { s with crcOut := crc32 b }.finishOk 0x03#8

/-- CRC32 (R121): the checksum of the raw bytes of the workspace frame buffer. -/
def execCrc32 (s : State) : Host.Outcome State Fault Refusal :=
  s.endCommand ((frameOperand s).map (crcWrites s))

end Sys2Proof.Machine
end

