-- ==== Sys2Proof/Machine/Control.lean ====
section
/-! DEFINITION. The command unit's own meanings (45_control.md): NOP (R165) and the completion of an illegal command word
(R164). -/

namespace Sys2Proof.Machine

/-- NOP "does nothing but complete" (R165). -/
def execNop (s : State) : Host.Outcome State Fault Refusal := .next (s.finishOk 0x00#8)

/-- An illegal command word completes with E_ILLEGAL and OPC = w[7:0], and "changes no other state" (R164). -/
def execIllegal (s : State) : State :=
  s.finish { code := .eIllegal, flag := false, parseOk := false, opc := s.cmd.word.extractLsb' 0 8 }

end Sys2Proof.Machine
end

