-- ==== Sys2Proof/Machine/PacketCommands.lean ====
section
/-! DEFINITION. The packet model's commands (42_packet.md): MKPKT (R128) and TTLCHK (R129). -/

namespace Sys2Proof.Machine

/-- MKPKT (R128): `R[WS_TTL] <- R[TTL_INIT]`. -/
def execMkpkt (s : State) : Host.Outcome State Fault Refusal :=
  .next ({ s with ws := { s.ws with ttl := s.cfg.ttlInit } }.finishOk 0x04#8)

/-- TTLCHK (R129): FLAG = `isTtlValid` of the workspace packet. -/
def execTtlchk (s : State) : Host.Outcome State Fault Refusal :=
  .next (s.finish { code := .ok, flag := isTtlValid s.ws.ttl, parseOk := false, opc := 0x05#8 })

end Sys2Proof.Machine
end

