-- ==== Sys2Proof/Machine/Receive.lean ====
section
/-! DEFINITION. The receive engine (44_endpoint.md): the network port (R145), the gates (R146 to R153), delivery (R154), the
acknowledgement (R155), and the RXPOP command (R157). -/

namespace Sys2Proof.Machine

/-- A receive-side discard that raises RX_DROP and is counted (R145, R147, R148, R153). -/
def discard (c : Counter) (cause : DropCause) (s : State) : State := ((s.bump c).drop cause).irq .rxDrop

/-- Step NET.arrive: the network port takes a datagram (R145). It never parses the bytes. -/
def netArrive (b : Bytes) (src : Endpoint) (s : State) : State :=
  if !s.rxEn then (s.bump .rxOff).drop .rxOff
  else if Config.frameCap < b.length then discard .rxIntegrity .integrity s
  else if Config.rxqDepth ≤ s.rx.rxq.length then discard .rxqOvf .rxqOvf s
  else { s with rx := { s.rx with rxq := s.rx.rxq ++ [{ bytes := b, src := src }] } }

/-- Gate 3 for an ACK segment (R150): the latch is set when the ACK's bit is the one outstanding; every other ACK is ignored. -/
def takeAck (f : Frame) (s : State) : State :=
  if s.arq.state = .awaitingAck ∧ f.pkt.seg.seq = s.arq.seqBit then
    { s with arq := { s.arq with ackLatch := true } }.bump .ackMatch
  else (s.bump .ackIgnored).drop .ignoredAck

/-- The strings a delivery stores for a payload; a null payload stores empty strings (R154). -/
def deliveredMessage : Option Message → Message
  | some m => m
  | none => { type := [], senderAddr := [], text := [], ts := 0#64 }

/-- Delivery of a new data segment into the RXM slot (R154). -/
def deliver (f : Frame) (s : State) : State :=
  let m := deliveredMessage f.pkt.seg.payload
  let s1 := (((s.writeSlot .rxmType m.type).writeSlot .rxmSender m.senderAddr).writeSlot .rxmText m.text).writeSlot
    .rxmSrcLog f.pkt.srcLog
  ({ s1 with
    rxm := { tsLo := timestampLo m.ts, tsHi := timestampHi m.ts, info := infoBits f.pkt.seg.payload.isSome f.pkt.seg.seq }
    rx  := { s1.rx with rxmFull := true, lastAcc := some f.pkt.seg.seq } }.bump .deliver).irq .deliver

/-- The packet of the acknowledgement of `f` (R155): fresh, with TTL_INIT (R127). -/
def ackPacket (f : Frame) (myLog : Bytes) (ttl : Word) : Packet :=
  { srcLog := myLog, dstLog := f.pkt.srcLog, ttl := ttl, seg := { seq := f.pkt.seg.seq, isAck := true, payload := none } }

/-- The acknowledgement is queued and the engine waits for its injection (R155). -/
def sendAck (f : Frame) (s : State) : Except Fault State := do
  let myLog ← s.lram.slotRead .myLog
  let myPhys ← s.lram.slotRead .myPhys
  let s1 := (s.enqueue (encodeAlg myPhys f.srcPhys (ackPacket f myLog s.cfg.ttlInit)).1 .rxeAck).bump .ackTx
  pure { s1 with rx := { s1.rx with rxWait := true } }

/-- Whether the identity slots let an ACK be built: LEN(MY_PHYS) and LEN(MY_LOG) within MAX_ADDR (R151). -/
def identityFits (m : Memory) : Except Fault Bool :=
  match checkLens m [.myPhys, .myLog] with
  | .ok () => .ok true
  | .error (.result _) => .ok false
  | .error (.fault f) => .error f

/-- Gate 3 for a data segment (R151 to R155): no usable identity, duplicate, no room, or new with room. -/
def takeData (f : Frame) (s : State) : Except Fault State := do
  let fits ← identityFits s.lram
  if !fits then pure ((s.drop .config).irq .rxDrop)
  else if s.rx.lastAcc = some f.pkt.seg.seq then sendAck f (s.bump .rxDup)
  else if s.rx.rxmFull then pure (discard .rxFull .rxFull s)
  else sendAck f (deliver f s)

/-- The gates on the bytes of a taken datagram: integrity (R147), TTL (R148), then the ACK or the data handling. No
destination address is compared (R149). -/
def takeBytes (b : Bytes) (s : State) : Except Fault State :=
  match decodeAlg b with
  | none => .ok (discard .rxIntegrity .integrity s)
  | some (f, _, valid) =>
    if !valid then .ok (discard .rxIntegrity .integrity s)
    else if !isTtlValid f.pkt.ttl then .ok (discard .rxTtl .ttl s)
    else if f.pkt.seg.isAck then .ok (takeAck f s)
    else takeData f s

/-- An outcome of a block step that reads LRAM. -/
def outcomeOf : Except Fault State → Host.Outcome State Fault Refusal
  | .ok s => .next s
  | .error f => .fault f

/-- Step RXE.take: enabled when RX_WAIT = 0 and the RXQ is not empty (R146). -/
def rxeTake (s : State) : Host.Outcome State Fault Refusal :=
  if s.rx.rxWait then .next s
  else
    match s.rx.rxq with
    | [] => .next s
    | d :: rest => outcomeOf (takeBytes d.bytes ({ s with rx := { s.rx with rxq := rest } }.bump .rx))

/-- RXPOP (R157): release the delivered-message slot; E_STATE when it is empty. -/
def execRxpop (s : State) : Host.Outcome State Fault Refusal :=
  s.endCommand
    (if s.rx.rxmFull then .ok ({ s with rx := { s.rx with rxmFull := false } }.finishOk 0x08#8)
      else .error (.result .eState))

end Sys2Proof.Machine
end

