-- ==== Sys2Proof/Machine/Dispatch.lean ====
section
/-! DEFINITION. The dispatch of CMD.exec (45_control.md R163, 30_encoding.md R84): one arm per command. -/

namespace Sys2Proof.Machine

open Sys2Proof

def exec (i : Instr) (s : State) : Host.Outcome State Fault Refusal :=
  match i with
  | .nop => Sys2Proof.Machine.execNop s
  | .encode => Sys2Proof.Machine.execEncode s
  | .decode => Sys2Proof.Machine.execDecode s
  | .crc32 => Sys2Proof.Machine.execCrc32 s
  | .mkpkt => Sys2Proof.Machine.execMkpkt s
  | .ttlchk => Sys2Proof.Machine.execTtlchk s
  | .xmit => Sys2Proof.Machine.execXmit s
  | .send => Sys2Proof.Machine.execSend s
  | .rxpop => Sys2Proof.Machine.execRxpop s

end Sys2Proof.Machine
end

