-- ==== Sys2Proof/Machine/Registers.lean ====
section
/-! DEFINITION. The aperture's register map (10_state.md R17) and what a 32-bit read or write of each register does (R16, R18
to R38). -/

namespace Sys2Proof.Machine

/-- The register map (R17). -/
def regMap : List (Nat × Reg) :=
  [(0x000, .id), (0x004, .rev), (0x008, .ctrl), (0x00C, .status), (0x010, .cmd), (0x014, .result), (0x018, .irqPend),
    (0x01C, .irqEn), (0x020, .pLoss), (0x024, .pCorrupt), (0x028, .latMin), (0x02C, .latMax), (0x030, .arqTimeout),
    (0x034, .ttlInit), (0x038, .nextHopIp), (0x03C, .nextHopPort), (0x040, .crcOut), (0x044, .timerRemain),
    (0x048, .wsTtl), (0x04C, .wsSeg), (0x050, .wsChecksum), (0x054, .wsTsLo), (0x058, .wsTsHi), (0x05C, .wsFrameLen),
    (0x060, .txmTsLo), (0x064, .txmTsHi), (0x068, .rxmTsLo), (0x06C, .rxmTsHi), (0x070, .rxmInfo)]
    ++ [(0x080, .cnt .xmit), (0x084, .cnt .loss), (0x088, .cnt .corrupt), (0x08C, .cnt .retx), (0x090, .cnt .rx),
    (0x094, .cnt .rxIntegrity), (0x098, .cnt .rxTtl), (0x09C, .cnt .rxDup), (0x0A0, .cnt .deliver), (0x0A4, .cnt .ackTx),
    (0x0A8, .cnt .ackMatch), (0x0AC, .cnt .ackIgnored), (0x0B0, .cnt .rxFull), (0x0B4, .cnt .rxqOvf),
    (0x0B8, .cnt .rxOff), (0x0C0, .dropCause)]

/-- The slot whose length word or data words hold the aligned offset `o` (R58, R60). -/
def slotAt (o : Nat) : List Slot → ApertureWord
  | [] => .hole
  | sl :: rest =>
    if o = sl.base then .slotLen sl
    else if sl.data ≤ o ∧ o < sl.data + sl.cap then .slotData sl
    else slotAt o rest

/-- What stands at the aligned offset `o` (R17, R60, R63). -/
def apertureAt (o : Nat) : ApertureWord :=
  match regMap.lookup o with
  | some r => .reg r
  | none => if frameBase ≤ o ∧ o < frameBase + Config.frameCap then .frame else slotAt o Slot.all

/-- The word a read of a register returns (R17 to R38): reserved bits read 0 (R16), CMD reads 0 (R22). -/
def regRead (s : State) : Reg → Word
  | .id          => Config.idValue
  | .rev         => Config.revValue
  | .ctrl        => bitField s.rxEn 0
  | .status      => s.statusWord
  | .cmd         => 0#32
  | .result      => s.result.toWord
  | .irqPend     => s.irqPend.setWidth 32
  | .irqEn       => s.irqEn.setWidth 32
  | .pLoss       => s.cfg.channel.pLoss.setWidth 32
  | .pCorrupt    => s.cfg.channel.pCorrupt.setWidth 32
  | .latMin      => s.cfg.channel.latMin
  | .latMax      => s.cfg.channel.latMax
  | .arqTimeout  => s.cfg.arqTimeout
  | .ttlInit     => s.cfg.ttlInit
  | .nextHopIp   => s.cfg.nextHopIp
  | .nextHopPort => s.cfg.nextHopPort.setWidth 32
  | .crcOut      => s.crcOut
  | .timerRemain => s.arq.timerRemain
  | .wsTtl       => s.ws.ttl
  | .wsSeg       => s.ws.seg.setWidth 32
  | .wsChecksum  => s.ws.checksum
  | .wsTsLo      => s.ws.tsLo
  | .wsTsHi      => s.ws.tsHi
  | .wsFrameLen  => s.ws.frameLen.setWidth 32
  | .txmTsLo     => s.txm.tsLo
  | .txmTsHi     => s.txm.tsHi
  | .rxmTsLo     => s.rxm.tsLo
  | .rxmTsHi     => s.rxm.tsHi
  | .rxmInfo     => s.rxm.info.setWidth 32
  | .cnt c       => s.cnt.get c
  | .dropCause   => s.dropCause.toByte.setWidth 32

/-- A write to CMD: taken while the command unit is idle (R161), dropped with CMD_OVR while BUSY = 1 (R162). -/
def acceptCommand (s : State) (w : Word) : State :=
  if s.cmd.phase = .idle then { s with cmd := { phase := .exec, word := w, opc := w.extractLsb' 0 8 } }
  else s.irq .cmdOvr

/-- The block's state after a hard reset, LRAM unwritten (R185); the environment is not the block's. -/
def hardResetBlock (s : State) : State :=
  { State.reset with resetHeld := s.resetHeld, bus := s.bus, net := s.net, turns := s.turns, turnCount := s.turnCount }

/-- A soft reset (R187): everything R185 names at its reset value, but for the configuration registers, IRQ_EN, the workspace
and TXM registers, and LRAM. -/
def softReset (s : State) : State :=
  { hardResetBlock s with cfg := s.cfg, irqEn := s.irqEn, ws := s.ws, txm := s.txm, lram := s.lram }

/-- A write to CTRL: with SRST = 1 the soft reset happens first, and RX_EN then takes the written bit (R20, R187). -/
def writeCtrl (s : State) (v : Word) : State :=
  { (if v.getLsbD 1 then softReset s else s) with rxEn := v.getLsbD 0 }

/-- The channel parameters replaced. -/
def State.withChannel (s : State) (p : ChannelParams) : State := { s with cfg := { s.cfg with channel := p } }

/-- What a write of `v` to a register does, by its access rule (R17): read-only registers ignore it, reserved bits ignore
theirs (R16), IRQ_PEND is write-1-to-clear (R24). -/
def regWrite (s : State) (v : Word) : Reg → State
  | .ctrl        => writeCtrl s v
  | .cmd         => acceptCommand s v
  | .irqPend     => { s with irqPend := s.irqPend &&& ~~~(v.setWidth 6) }
  | .irqEn       => { s with irqEn := v.setWidth 6 }
  | .pLoss       => s.withChannel { s.cfg.channel with pLoss := v.setWidth 17 }
  | .pCorrupt    => s.withChannel { s.cfg.channel with pCorrupt := v.setWidth 17 }
  | .latMin      => s.withChannel { s.cfg.channel with latMin := v }
  | .latMax      => s.withChannel { s.cfg.channel with latMax := v }
  | .arqTimeout  => { s with cfg := { s.cfg with arqTimeout := v } }
  | .ttlInit     => { s with cfg := { s.cfg with ttlInit := v } }
  | .nextHopIp   => { s with cfg := { s.cfg with nextHopIp := v } }
  | .nextHopPort => { s with cfg := { s.cfg with nextHopPort := v.setWidth 16 } }
  | .wsTtl       => { s with ws := { s.ws with ttl := v } }
  | .wsSeg       => { s with ws := { s.ws with seg := v.setWidth 3 } }
  | .wsChecksum  => { s with ws := { s.ws with checksum := v } }
  | .wsTsLo      => { s with ws := { s.ws with tsLo := v } }
  | .wsTsHi      => { s with ws := { s.ws with tsHi := v } }
  | .wsFrameLen  => { s with ws := { s.ws with frameLen := v.setWidth 16 } }
  | .txmTsLo     => { s with txm := { s.txm with tsLo := v } }
  | .txmTsHi     => { s with txm := { s.txm with tsHi := v } }
  | .id | .rev | .status | .result | .crcOut | .timerRemain | .rxmTsLo | .rxmTsHi | .rxmInfo | .cnt _ | .dropCause => s

end Sys2Proof.Machine
end

