-- ==== Sys2Proof/Machine/HostPort.lean ====
section
/-! DEFINITION. HOST accesses to the aperture (20_memory.md R62 to R66), and the host-program notation of 30_encoding.md R89
and R90 as lists of accesses. -/

namespace Sys2Proof.Machine

/-- `MemRead(o, 4)` at an aligned offset of the aperture (R62): a hole reads 0 (R63); an LRAM word nothing has written is a
fault (R41). -/
def apertureRead (s : State) (o : Nat) : Except Fault Word :=
  match apertureAt o with
  | .reg r => .ok (regRead s r)
  | .slotLen _ | .slotData _ | .frame => s.lram.readWord o
  | .hole => .ok 0#32

/-- `MemWrite(o, 4, v)` at an aligned offset of the aperture (R62): a hole ignores it (R63), a read-only slot ignores it
(R61), a length word keeps bits [15:0] (R58, R59). -/
def apertureWrite (s : State) (o : Nat) (v : Word) : State :=
  match apertureAt o with
  | .reg r => regWrite s v r
  | .slotLen sl => if sl.readOnly then s else s.withLram (s.lram.write o (bytesOfWord ((v.extractLsb' 0 16).setWidth 32)))
  | .slotData sl => if sl.readOnly then s else s.withLram (s.lram.write o (bytesOfWord v))
  | .frame => s.withLram (s.lram.write o (bytesOfWord v))
  | .hole => s

/-- Whether an access has the one width and alignment the block takes (R62). -/
def accessOk (w : AccessWidth) (o : Nat) : Bool := w == .w32 && o % 4 == 0

/-- One host access (R62): refused with a bus error and no change of the block where its width or alignment is wrong; a fault
where the block does not decode the offset (R57). -/
def hostAccess (a : HostAccess) (s : State) : Host.Outcome State Fault Refusal :=
  match a with
  | .read w o =>
    if Config.apertureSize ≤ o then .fault (.outsideAperture o)
    else if !accessOk w o then .next { s with bus := .busError }
    else
      match apertureRead s o with
      | .error f => .fault f
      | .ok v => .next { s with bus := .data v }
  | .write w o v =>
    if Config.apertureSize ≤ o then .fault (.outsideAperture o)
    else if !accessOk w o then .next { s with bus := .busError }
    else .next { apertureWrite s o (v.setWidth 32) with bus := .written }

/-! ### Host-program notation (R89, R90) -/

/-- `W o, v`: `MemWrite(o, 4, v)` (R89). -/
def hostW (o : Nat) (v : Word) : HostAccess := .write .w32 o (v.setWidth 64)

/-- `R o`: `MemRead(o, 4)` (R89). -/
def hostR (o : Nat) : HostAccess := .read .w32 o

/-- `CMD MNEMONIC`: a write of the command word to CMD (R89). -/
def hostCmd (w : Word) : HostAccess := hostW 0x010 w

/-- The word writes of a byte string from offset `o`, a byte past its end written as 0 (R90). -/
def hostBytes (o : Nat) : Bytes → List HostAccess
  | [] => []
  | [a] => [hostW o (wordOfBytes [a])]
  | [a, b] => [hostW o (wordOfBytes [a, b])]
  | [a, b, c] => [hostW o (wordOfBytes [a, b, c])]
  | a :: b :: c :: d :: rest => hostW o (wordOfBytes [a, b, c, d]) :: hostBytes (o + 4) rest

/-- `WSTR SLOT, s` (R90). -/
def hostWstr (sl : Slot) (s : Bytes) : List HostAccess :=
  hostW sl.base (BitVec.ofNat 32 s.length) :: hostBytes sl.data s

/-- `W64 NAME, v`, at the offset of NAME_LO (R90). -/
def hostW64 (o : Nat) (v : BitVec 64) : List HostAccess := [hostW o (timestampLo v), hostW (o + 4) (timestampHi v)]

/-- `WFRM s` (R90). -/
def hostWfrm (s : Bytes) : List HostAccess := hostBytes frameBase s ++ [hostW 0x05C (BitVec.ofNat 32 s.length)]

end Sys2Proof.Machine
end

