-- ==== Sys2Proof/Machine/Network.lean ====
section
/-! DEFINITION. The network environment (20_memory.md section 6): NET's deliveries and losses under NET_MODEL (R74, R75), and
the routers (R77 to R81). -/

namespace Sys2Proof.Machine

/-- Whether two datagrams in flight have the same emitter and the same destination (R75). -/
def samePath (d e : Transit) : Bool := d.emitter == e.emitter && d.datagram.dst == e.datagram.dst

/-- What is in flight once the `k`-th datagram `d` has been delivered (R75): FIFO_LOSSY delivers it once, and what the same
emitter sent to the same destination before it is lost, so deliveries keep emission order; ANY_ORDER may deliver it again
(DEDUCED, assumption log 10). -/
def flightAfter (model : NetModel) (flight : List Transit) (k : Nat) (d : Transit) : List Transit :=
  match model with
  | .fifoLossy => (flight.take k).filter (fun e => !samePath e d) ++ flight.drop (k + 1)
  | .anyOrder => flight

/-- The bytes a router submits for a decoded frame whose decremented ttl is `t` (R80): the received bytes, or the frame
re-encoded with that ttl and a recomputed checksum. -/
def forwardBytes (mode : RouterForward) (received : Bytes) (f : Frame) (t : Word) : Bytes :=
  match mode with
  | .originalBytes => received
  | .reencode => (encodeAlg f.srcPhys f.dstPhys { f.pkt with ttl := t }).1

/-- A router's decision on the bytes of a datagram bound to it: `none` where it discards them silently, else the endpoint and
the bytes it submits to its own injector. The integrity gate (R77), the mathematical decrement of the ttl (R78), the route
(R79), the bytes (R80). -/
def routerDecide (mode : RouterForward) (routes : List (Bytes × Endpoint)) (b : Bytes) : Option (Endpoint × Bytes) :=
  match decodeAlg b with
  | none => none
  | some (f, _, valid) =>
    let t : Int := (f.pkt.ttl.toNat : Int) - 1
    if !valid ∨ t ≤ 0 then none
    else
      match routes.lookup f.pkt.dstLog with
      | none => none
      | some e => some (e, forwardBytes mode b f (BitVec.ofInt 32 t))

/-- A router takes a datagram bound to its endpoint (R77 to R81). -/
def routerReceive (mode : RouterForward) (b : Bytes) (r : Router) : Router :=
  match routerDecide mode r.routes b with
  | none => r
  | some (e, b') => { r with txq := r.txq ++ [{ bytes := b', dst := e, src := r.endpoint }] }

/-- The first router bound to an endpoint takes the bytes; nothing changes where none is (R74). -/
def routersReceive (mode : RouterForward) (dst : Endpoint) (b : Bytes) : List Router → List Router
  | [] => []
  | r :: rest => if r.endpoint = dst then routerReceive mode b r :: rest else r :: routersReceive mode dst b rest

/-- NET's environment replaced. -/
def State.withNet (s : State) (n : Net) : State := { s with net := n }

/-- What is bound at a datagram's destination takes it: the block's network port, or a router; else it is discarded (R74).
While the hard reset is held the block takes no step, so its port takes nothing (R185). -/
def receiveAt (d : Datagram) (s : State) : State :=
  if s.net.endpoint = some d.dst then
    if s.resetHeld then s else netArrive d.bytes d.src s
  else s.withNet { s.net with routers := routersReceive Config.routerForward d.dst d.bytes s.net.routers }

/-- Whether a receiver, the block or a router, is bound at an endpoint (R74). -/
def isBound (n : Net) (e : Endpoint) : Bool := n.endpoint == some e || n.routers.any fun r => r.endpoint == e

/-- NET delivers the `k`-th datagram in flight (R74, R75); "a datagram addressed to an endpoint where nothing is bound is
discarded" (R74). -/
def netDeliver (k : Nat) (s : State) : State :=
  match s.net.flight[k]? with
  | none => s
  | some d =>
    if !isBound s.net d.datagram.dst then s.withNet { s.net with flight := s.net.flight.eraseIdx k }
    else receiveAt d.datagram (s.withNet { s.net with flight := flightAfter Config.netModel s.net.flight k d })

/-- NET loses the `k`-th datagram in flight: it is never delivered again (R75). -/
def netLose (k : Nat) (s : State) : State := s.withNet { s.net with flight := s.net.flight.eraseIdx k }

/-- The `n`-th other emitter puts a datagram on the wire (R74, R183). -/
def netInject (n : Nat) (d : Datagram) (s : State) : State :=
  s.withNet { s.net with flight := s.net.flight ++ [{ emitter := .other n, datagram := d }] }

/-- A router's injector starts serving its queue's head, with the behaviour of 40_channel.md (R77). -/
def routerStartOne (d : Draws) (r : Router) : Router :=
  match r.serving, r.txq with
  | none, req :: rest =>
    match attempt r.channel d req.bytes with
    | .lost => { r with txq := rest }
    | .sent b _ delay => { r with txq := rest, serving := some { req with bytes := b }, delay := delay }
  | _, _ => r

/-- The `i`-th router's injector starts. -/
def routerStart (i : Nat) (d : Draws) (s : State) : State :=
  s.withNet { s.net with routers := s.net.routers.modify i (routerStartOne d) }

/-- The `i`-th router's injector emits the request it serves once its delay has run out (R77, R111). -/
def routerEmit (i : Nat) (s : State) : State :=
  match s.net.routers[i]? with
  | none => s
  | some r =>
    match r.serving with
    | none => s
    | some d =>
      if delayElapsed r.delay then
        s.withNet
          { s.net with
            flight  := s.net.flight ++ [{ emitter := .router i, datagram := d }]
            routers := s.net.routers.modify i fun r => { r with serving := none } }
      else s

/-- One millisecond of every router's injector (R77, R110), under TICKED (R138). -/
def tickRouters (s : State) : State :=
  if Config.timeModel = .ticked then
    s.withNet
      { s.net with
        routers := s.net.routers.map fun r => if r.serving.isSome then { r with delay := countDown r.delay } else r }
  else s

/-- A router as it starts: its injector's queue is empty, it serves nothing, its delay is 0. The spec gives a router no start
state (DESIGN CHOICE, assumption log 19; the values are those R185 gives a block's injector). -/
def routerStarted (r : Router) : Router := { r with txq := [], serving := none, delay := 0#32 }

/-- The platform assigns the block's endpoint and the routers, once: a route table is "static" (R79, R183). The routers start
with nothing queued and nothing served (assumption log 19), so a router emits only what it has received (R81). -/
def wireNet (endpoint : Endpoint) (routers : List Router) (s : State) : State :=
  if s.net.endpoint.isNone then
    s.withNet { s.net with endpoint := some endpoint, routers := routers.map routerStarted }
  else s

end Sys2Proof.Machine
end

