-- ==== Sys2Proof/Machine/Agents.lean ====
section
/-! DEFINITION. One turn of one agent (00_scope.md R7, R13): the steps of CMD, ARQ, RXE, INJ and TICK, the accesses of HOST,
the deliveries of NET, and the hard reset input (70_reset_and_hazards.md R185). -/

namespace Sys2Proof.Machine

/-- Step CMD.exec: enabled when CMD_PHASE = EXEC; it decodes CMD_WORD and runs the command, or completes an illegal word
(R163, R164). -/
def cmdExec (s : State) : Host.Outcome State Fault Refusal :=
  if s.cmd.phase = .exec then
    match decode s.cmd.word with
    | .ok i => exec i s
    | .error _ => .next (execIllegal s)
  else .next s

/-- The hard reset input changes: asserted, every piece of the block's state takes its reset value and is held there; released,
the block goes on from it (R185). -/
def hardReset (asserted : Bool) (s : State) : State :=
  if asserted then { hardResetBlock s with resetHeld := true }
  else if s.resetHeld then { hardResetBlock s with resetHeld := false }
  else s

/-- A turn while the hard reset is held: "the block takes no step" (R185); the environment goes on, and the host gets no
answer (DESIGN CHOICE, assumption log 9). -/
def heldTurn (t : Turn) (s : State) : Host.Outcome State Fault Refusal :=
  match t with
  | .host _ => .next { s with bus := .noResponse }
  | .cmdExec | .arqComplete | .arqTimeout | .rxeTake | .injStart _ | .injEmit => .next s
  | .tick => .next (tickRouters s)
  | .netDeliver k => .next (netDeliver k s)
  | .netLose k => .next (netLose k s)
  | .netInject n d => .next (netInject n d s)
  | .routerStart i d => .next (routerStart i d s)
  | .routerEmit i => .next (routerEmit i s)
  | .hardReset b => .next (hardReset b s)
  | .wire e rs => .next (wireNet e rs s)

/-- A turn of the running block (R13). An agent whose step is not enabled changes nothing. -/
def liveTurn (t : Turn) (s : State) : Host.Outcome State Fault Refusal :=
  match t with
  | .host a => hostAccess a s
  | .cmdExec => cmdExec s
  | .arqComplete => .next (if arqCompleteEnabled s then arqComplete s else s)
  | .arqTimeout => .next (if arqTimeoutEnabled s then arqTimeout s else s)
  | .rxeTake => rxeTake s
  | .injStart d => .next (injStart d s)
  | .injEmit => .next (injEmit s)
  | .tick => .next (tickRouters (tickBlock s))
  | .netDeliver k => .next (netDeliver k s)
  | .netLose k => .next (netLose k s)
  | .netInject n d => .next (netInject n d s)
  | .routerStart i d => .next (routerStart i d s)
  | .routerEmit i => .next (routerEmit i s)
  | .hardReset b => .next (hardReset b s)
  | .wire e rs => .next (wireNet e rs s)

/-- One turn of one agent. -/
def runTurn (t : Turn) (s : State) : Host.Outcome State Fault Refusal :=
  if s.resetHeld then heldTurn t s else liveTurn t s

/-- The next turn, and the state with it taken from the list; where the list is empty it is a free value (R7,
93_implementation_defined.md I8). -/
def takeTurn (s : State) : Turn × State :=
  match s.turns with
  | t :: rest => (t, { s with turns := rest })
  | [] => (Config.turnAt s.turnCount, { s with turnCount := s.turnCount + 1 })

/-- The state with a command accepted and CMD the next agent to move, so that the next step runs the command word `w`. -/
def placeCommand (s : State) (w : Word) : State :=
  { s with
    cmd       := { phase := .exec, word := w, opc := w.extractLsb' 0 8 }
    turns     := .cmdExec :: s.turns
    resetHeld := false }

end Sys2Proof.Machine
end

