-- ==== Sys2Proof/Machine/Step.lean ====
section
/-! DEFINITION. The step: the next turn, run (00_scope.md R13). The block fetches nothing (10_state.md R14): its "instruction"
is the command word the command unit holds when CMD.exec runs (45_control.md R163). -/

namespace Sys2Proof.Machine

/-- One atomic transition of one agent (R13). -/
def step (s : State) : Host.Outcome State Fault Refusal := runTurn (takeTurn s).1 (takeTurn s).2

/-- The state whose very next step runs the command word of `nbits` bits `w`: accepted (R161), with CMD's turn next. It stands
for a host's write to CMD followed by CMD.exec (assumption log 1). -/
def State.withFetchWord (s : State) (nbits w : Nat) : State := placeCommand s (tableWord nbits w)

end Sys2Proof.Machine
end

