-- ==== Sys2Proof/Safety.lean ====
section
/-! DEFINITION. What claims call a sound state and a safe run: the canonical form of LRAM, the bookkeeping of the protocol
units (R46, R54, R105, R130, R131), a quiescent block (45_control.md R168), and the enabling conditions of the internal steps. -/

namespace Sys2Proof.Machine

/-- The canonical form of LRAM: offsets strictly rising. (An unlisted offset has no value, so no entry can equal it.) -/
abbrev Memory.wf (m : Memory) : Prop := m.Pairwise fun c d => c.1 < d.1

/-- The offset is a byte of a slot's length word or data, or of WS_FRAME (R60). -/
def isLramOffset (o : Nat) : Bool :=
  Slot.all.any (fun sl => decide (sl.base ≤ o ∧ o < sl.data + sl.cap))
    || decide (frameBase ≤ o ∧ o < frameBase + Config.frameCap)

/-- LRAM is written word by word: where one byte of a word has a value, all four have (R41, R186). -/
abbrev Memory.wholeWords (m : Memory) : Prop :=
  ∀ c ∈ m, ∀ i ∈ [0, 1, 2, 3], (Memory.read m (c.1 / 4 * 4 + i)).isSome = true

/-- LRAM is in canonical form, lists only offsets of the map, and whole words of them. -/
abbrev State.memoryOk (s : State) : Prop :=
  s.lram.wf ∧ (∀ c ∈ s.lram, isLramOffset c.1 = true) ∧ s.lram.wholeWords

/-- The injector's outstanding requests: the one served, then the queued ones (R105). -/
def State.outstanding (s : State) : List Request := s.inj.serving.toList ++ s.inj.txq

/-- A request of the command unit: XMIT's, or the first transmission of a SEND (R105). -/
def isCmdRequest (r : Request) : Bool := r.tag == .cmdXmit || r.tag == .arqSend

/-- A request of the ARQ unit: the first transmission of a SEND, or a retransmission (R131). -/
def isArqRequest (r : Request) : Bool := r.tag == .arqSend || r.tag == .arqRetx

/-- A request of the receive engine: an acknowledgement (R155). -/
def isAckRequest (r : Request) : Bool := r.tag == .rxeAck

/-- Each requester has exactly the requests its own state says it waits for (R105, R131, R155, R162). -/
abbrev State.requestsOk (s : State) : Prop :=
  s.outstanding.countP isCmdRequest = (if s.cmd.phase = .waitInj then 1 else 0)
    ∧ s.outstanding.countP isArqRequest = (if s.arq.txp = true then 1 else 0)
    ∧ s.outstanding.countP isAckRequest = (if s.rx.rxWait = true then 1 else 0)

/-- The sender session's phases (R46, R130): in IDLE nothing is transmitted and the timer is stopped; in AWAITING_ACK the timer
runs exactly when no transmission is in the injector; a stopped timer reads 0. -/
abbrev State.sessionOk (s : State) : Prop :=
  (s.arq.state = .idle → s.arq.txp = false ∧ s.arq.timerRun = false)
    ∧ (s.arq.state = .awaitingAck → s.arq.timerRun = !s.arq.txp)
    ∧ (s.arq.timerRun = false → s.arq.timerRemain = 0#32)

/-- The bounds of the queues and of the byte strings they hold (R47, R51, R53), and CMD_OPC (R54). -/
abbrev State.boundsOk (s : State) : Prop :=
  s.rx.rxq.length ≤ Config.rxqDepth ∧ (∀ d ∈ s.rx.rxq, d.bytes.length ≤ Config.frameCap)
    ∧ (∀ r ∈ s.outstanding, r.bytes.length ≤ Config.frameCap) ∧ s.arq.frame.length ≤ Config.frameCap
    ∧ s.cmd.opc = s.cmd.word.extractLsb' 0 8

/-- The bookkeeping of the protocol units. -/
abbrev State.protocolOk (s : State) : Prop := s.requestsOk ∧ s.sessionOk ∧ s.boundsOk

/-- A sound state. -/
abbrev State.Inv (s : State) : Prop := s.memoryOk ∧ s.protocolOk

/-- A quiescent block (R168). -/
abbrev State.quiescent (s : State) : Prop :=
  s.cmd.phase = .idle ∧ s.arq.state = .idle ∧ s.inj.txq = [] ∧ s.inj.serving = none ∧ s.rx.rxq = [] ∧ s.rx.rxWait = false

/-- A turn that is a step of the block's own agents (R86). -/
def Turn.isInternal : Turn → Bool
  | .cmdExec | .arqComplete | .arqTimeout | .rxeTake | .injStart _ | .injEmit | .tick => true
  | .host _ | .netDeliver _ | .netLose _ | .netInject _ _ | .routerStart _ _ | .routerEmit _ | .hardReset _ | .wire _ _ => false

/-- A turn whose step resets the block's dynamic state: a write of CTRL with SRST, or the hard reset input (R185, R187). -/
def Turn.isReset : Turn → Bool
  | .host (.write .w32 o v) => o == 0x008 && v.getLsbD 1
  | .hardReset _ => true
  | .host _ | .cmdExec | .arqComplete | .arqTimeout | .rxeTake | .injStart _ | .injEmit | .tick | .netDeliver _
  | .netLose _ | .netInject _ _ | .routerStart _ _ | .routerEmit _ | .wire _ _ => false

/-- A string slot of LRAM holds the string `x`, within its capacity (R58, R59). -/
def Memory.holds (m : Memory) (sl : Slot) (x : Bytes) : Prop :=
  m.slotLen sl = .ok x.length ∧ x.length ≤ sl.cap ∧ m.readBytes sl.data x.length = .ok x

/-- The byte offsets a block step's write of the string `x` to a slot touches: the length word, then the words of the data. -/
def slotTouched (sl : Slot) (x : Bytes) (a : Nat) : Prop :=
  sl.base ≤ a ∧ a < sl.data + x.length + wordPad x.length

/-- The byte offsets a write of the string `x` to a slot stores to: the length word and the string's own bytes (R58). The bytes
`slotTouched` adds complete the last word; "Data bytes len(s) to CAP-1 are not changed" (R58) holds of them where they have a
value. -/
def slotWritten (sl : Slot) (x : Bytes) (a : Nat) : Prop := sl.base ≤ a ∧ a < sl.data + x.length

/-- With the turn `tn` next, the step from `s` answers the next state `t`. -/
def takesTurn (tn : Turn) (s t : State) : Prop :=
  ∀ rest, step { s with turns := tn :: rest } = .next { t with turns := rest }

/-- The runs from `s`: `t` is reached in `k` steps, none of which faulted or was refused. -/
def reachesIn : Nat → State → State → Prop
  | 0, s, t => s = t
  | k + 1, s, t => ∃ u, step s = .next u ∧ reachesIn k u t

end Sys2Proof.Machine
end

