-- ==== Sys2Proof/Certificates/Slice0/Obligations.lean ====
section
/-! DEFINITION. The statements for the provers: what each command does and leaves unchanged, what the agents' steps do, the
codec's round trip and its rejection of corruption, the host's accesses, the resets, and the invariants every step keeps. -/

open Sys2Proof Sys2Proof.Machine

/-! ### Command words -/

/-- R84: the decoder compares all 32 bits, and each opcode has exactly one command word; that word decodes back to its
command. -/
def Obligations.CommandWordsDecodeExactly : Prop :=
  (∀ i : Instr, decode (encode i) = .ok i)
    ∧ ∀ w : Word,
      (decode w = .ok .nop ↔ w = 0x00000000#32) ∧ (decode w = .ok .encode ↔ w = 0x00000001#32)
        ∧ (decode w = .ok .decode ↔ w = 0x00000002#32) ∧ (decode w = .ok .crc32 ↔ w = 0x00000003#32)
        ∧ (decode w = .ok .mkpkt ↔ w = 0x00000004#32) ∧ (decode w = .ok .ttlchk ↔ w = 0x00000005#32)
        ∧ (decode w = .ok .xmit ↔ w = 0x00000006#32) ∧ (decode w = .ok .send ↔ w = 0x00000007#32)
        ∧ (decode w = .ok .rxpop ↔ w = 0x00000008#32)

/-- Step CMD.exec runs the decoded command (R163): with CMD's turn next and CMD_PHASE = EXEC, the step is `exec` of the
command CMD_WORD decodes to, on the state with the turn taken from the list. -/
def Obligations.StepRunsDecodedCommand : Prop :=
  ∀ (s : State) (i : Instr) (rest : List Turn),
    s.resetHeld = false → s.turns = .cmdExec :: rest → s.cmd.phase = .exec → decode s.cmd.word = .ok i →
      step s = exec i { s with turns := rest }

/-- R164: an illegal command word completes with E_ILLEGAL and its own low byte as OPC, and changes no other state. -/
def Obligations.IllegalWordCompletes : Prop :=
  ∀ s : State, s.resetHeld = false → s.cmd.phase = .exec →
    (s.cmd.word.extractLsb' 8 24 ≠ 0#24 ∨ 0x09 ≤ (s.cmd.word.extractLsb' 0 8).toNat) →
      takesTurn .cmdExec s
        { s with
          result  := { code := .eIllegal, flag := false, parseOk := false, opc := s.cmd.word.extractLsb' 0 8 }
          irqPend := s.irqPend ||| 0x01#6
          cmd     := { s.cmd with phase := .idle } }

/-! ### The commands -/

/-- R165: NOP completes with RESULT = 0 and CMD_DONE, and changes nothing else. -/
def Obligations.NopOnlyCompletes : Prop :=
  ∀ s : State, exec .nop s = .next
    { s with
      result  := { code := .ok, flag := false, parseOk := false, opc := 0x00#8 }
      irqPend := s.irqPend ||| 0x01#6
      cmd     := { s.cmd with phase := .idle } }

/-- MKPKT gives the workspace packet its initial TTL and changes nothing else but its completion (R128's pseudocode). -/
def Obligations.MkpktSetsInitialTtl : Prop :=
  ∀ s : State, exec .mkpkt s = .next
    { s with
      ws      := { s.ws with ttl := s.cfg.ttlInit }
      result  := { code := .ok, flag := false, parseOk := false, opc := 0x04#8 }
      irqPend := s.irqPend ||| 0x01#6
      cmd     := { s.cmd with phase := .idle } }

/-- TTLCHK answers FLAG = (WS_TTL > 0) and changes nothing else but its completion (R129, R125). -/
def Obligations.TtlchkAnswersTtlGate : Prop :=
  ∀ s : State, exec .ttlchk s = .next
    { s with
      result  := { code := .ok, flag := decide (0 < s.ws.ttl.toNat), parseOk := false, opc := 0x05#8 }
      irqPend := s.irqPend ||| 0x01#6
      cmd     := { s.cmd with phase := .idle } }

/-- R157: RXPOP releases a held slot; on an empty slot it ends with E_STATE and releases nothing. -/
def Obligations.RxpopReleasesSlot : Prop :=
  ∀ s : State,
    (s.rx.rxmFull = true → exec .rxpop s = .next
      { s with
        rx      := { s.rx with rxmFull := false }
        result  := { code := .ok, flag := false, parseOk := false, opc := 0x08#8 }
        irqPend := s.irqPend ||| 0x01#6
        cmd     := { s.cmd with phase := .idle } })
    ∧ (s.rx.rxmFull = false → exec .rxpop s = .next
      { s with
        result  := { code := .eState, flag := false, parseOk := false, opc := s.cmd.opc }
        irqPend := s.irqPend ||| 0x01#6
        cmd     := { s.cmd with phase := .idle } })

/-- R121: CRC32 puts the checksum of WS_FRAME's first WS_FRAME_LEN bytes in CRC_OUT and changes nothing else but its
completion; E_LEN where WS_FRAME_LEN exceeds FRAME_CAP. -/
def Obligations.Crc32ChecksumsFrameBuffer : Prop :=
  ∀ (s : State) (b : Bytes),
    (s.ws.frameLen.toNat ≤ 12288 → b.length = s.ws.frameLen.toNat →
      (∀ i < b.length, s.lram.read (0x4000 + i) = b[i]?) →
        exec .crc32 s = .next
          { s with
            crcOut  := crc32 b
            result  := { code := .ok, flag := false, parseOk := false, opc := 0x03#8 }
            irqPend := s.irqPend ||| 0x01#6
            cmd     := { s.cmd with phase := .idle } })
    ∧ (12288 < s.ws.frameLen.toNat →
        exec .crc32 s = .next
          { s with
            result  := { code := .eLen, flag := false, parseOk := false, opc := s.cmd.opc }
            irqPend := s.irqPend ||| 0x01#6
            cmd     := { s.cmd with phase := .idle } })

/-- DECODE of bytes that do not parse ends with E_INTEGRITY, FLAG 0, PARSE_OK 0 and writes no field; DECODE with WS_FRAME_LEN
above FRAME_CAP ends with E_LEN and writes no field (R120). -/
def Obligations.DecodeRejectsWithoutWriting : Prop :=
  ∀ (s : State) (b : Bytes),
    (s.ws.frameLen.toNat ≤ 12288 → b.length = s.ws.frameLen.toNat →
      (∀ i < b.length, s.lram.read (0x4000 + i) = b[i]?) → parse b = none →
        exec .decode s = .next
          { s with
            result  := { code := .eIntegrity, flag := false, parseOk := false, opc := 0x02#8 }
            irqPend := s.irqPend ||| 0x01#6
            cmd     := { s.cmd with phase := .idle } })
    ∧ (12288 < s.ws.frameLen.toNat →
        exec .decode s = .next
          { s with
            result  := { code := .eLen, flag := false, parseOk := false, opc := s.cmd.opc }
            irqPend := s.irqPend ||| 0x01#6
            cmd     := { s.cmd with phase := .idle } })

/-- DECODE of bytes that parse to the frame `f` with a message payload (R120): the strings are written to their slots, every
workspace register but WS_FRAME_LEN takes the frame's value, CRC_OUT the recomputed checksum, RESULT says whether it equals the
claimed one; every LRAM byte outside the words of the seven strings, every byte past a string's end that has a value (R58), and
every other field, is unchanged. -/
def Obligations.DecodeWritesMessageFrame : Prop :=
  ∀ (s : State) (b : Bytes) (f : Frame) (m : Message),
    s.ws.frameLen.toNat ≤ 12288 → b.length = s.ws.frameLen.toNat →
    (∀ i < b.length, s.lram.read (0x4000 + i) = b[i]?) → parse b = some f → f.pkt.seg.payload = some m →
      ∃ t, exec .decode s = .next t
        ∧ t.lram.holds .wsSrcPhys f.srcPhys ∧ t.lram.holds .wsDstPhys f.dstPhys
        ∧ t.lram.holds .wsSrcLog f.pkt.srcLog ∧ t.lram.holds .wsDstLog f.pkt.dstLog
        ∧ t.lram.holds .wsType m.type ∧ t.lram.holds .wsSender m.senderAddr ∧ t.lram.holds .wsText m.text
        ∧ (∀ a, ¬ slotTouched .wsSrcPhys f.srcPhys a → ¬ slotTouched .wsDstPhys f.dstPhys a →
            ¬ slotTouched .wsSrcLog f.pkt.srcLog a → ¬ slotTouched .wsDstLog f.pkt.dstLog a →
            ¬ slotTouched .wsType m.type a → ¬ slotTouched .wsSender m.senderAddr a → ¬ slotTouched .wsText m.text a →
              t.lram.read a = s.lram.read a)
        ∧ (∀ a v, s.lram.read a = some v →
            ¬ slotWritten .wsSrcPhys f.srcPhys a → ¬ slotWritten .wsDstPhys f.dstPhys a →
            ¬ slotWritten .wsSrcLog f.pkt.srcLog a → ¬ slotWritten .wsDstLog f.pkt.dstLog a →
            ¬ slotWritten .wsType m.type a → ¬ slotWritten .wsSender m.senderAddr a → ¬ slotWritten .wsText m.text a →
              t.lram.read a = some v)
        ∧ t =
          { s with
            lram    := t.lram
            ws      :=
              { ttl := f.pkt.ttl, seg := 1#1 ++ BitVec.ofBool f.pkt.seg.isAck ++ f.pkt.seg.seq, checksum := f.checksum,
                tsLo := m.ts.extractLsb' 0 32, tsHi := m.ts.extractLsb' 32 32, frameLen := s.ws.frameLen }
            crcOut  := crc32 (canon f)
            result  :=
              { code := if crc32 (canon f) = f.checksum then .ok else .eIntegrity,
                flag := decide (crc32 (canon f) = f.checksum), parseOk := true, opc := 0x02#8 }
            irqPend := s.irqPend ||| 0x01#6
            cmd     := { s.cmd with phase := .idle } }

/-- DECODE of bytes that parse to a frame with a null payload (R120): as with a message, but the message slots and WS_TS_* keep
their old values and HASPL is 0. -/
def Obligations.DecodeWritesNullPayloadFrame : Prop :=
  ∀ (s : State) (b : Bytes) (f : Frame),
    s.ws.frameLen.toNat ≤ 12288 → b.length = s.ws.frameLen.toNat →
    (∀ i < b.length, s.lram.read (0x4000 + i) = b[i]?) → parse b = some f → f.pkt.seg.payload = none →
      ∃ t, exec .decode s = .next t
        ∧ t.lram.holds .wsSrcPhys f.srcPhys ∧ t.lram.holds .wsDstPhys f.dstPhys
        ∧ t.lram.holds .wsSrcLog f.pkt.srcLog ∧ t.lram.holds .wsDstLog f.pkt.dstLog
        ∧ (∀ a, ¬ slotTouched .wsSrcPhys f.srcPhys a → ¬ slotTouched .wsDstPhys f.dstPhys a →
            ¬ slotTouched .wsSrcLog f.pkt.srcLog a → ¬ slotTouched .wsDstLog f.pkt.dstLog a →
              t.lram.read a = s.lram.read a)
        ∧ (∀ a v, s.lram.read a = some v →
            ¬ slotWritten .wsSrcPhys f.srcPhys a → ¬ slotWritten .wsDstPhys f.dstPhys a →
            ¬ slotWritten .wsSrcLog f.pkt.srcLog a → ¬ slotWritten .wsDstLog f.pkt.dstLog a →
              t.lram.read a = some v)
        ∧ t =
          { s with
            lram    := t.lram
            ws      :=
              { s.ws with
                ttl := f.pkt.ttl, seg := 0#1 ++ BitVec.ofBool f.pkt.seg.isAck ++ f.pkt.seg.seq, checksum := f.checksum }
            crcOut  := crc32 (canon f)
            result  :=
              { code := if crc32 (canon f) = f.checksum then .ok else .eIntegrity,
                flag := decide (crc32 (canon f) = f.checksum), parseOk := true, opc := 0x02#8 }
            irqPend := s.irqPend ||| 0x01#6
            cmd     := { s.cmd with phase := .idle } }

/-- ENCODE with every slot it reads holding a string within capacity (R119): WS_FRAME's first bytes are the wire encoding of
the workspace frame with its computed checksum, WS_FRAME_LEN its length, WS_CHECKSUM and CRC_OUT the checksum; every LRAM byte
outside the words of the frame written at 0x4000, every byte of WS_FRAME at and after the frame's length that has a value, and
every other field, is unchanged. The message slots are read only when HASPL = 1. -/
def Obligations.EncodeWritesFrame : Prop :=
  ∀ (s : State) (srcPhys dstPhys srcLog dstLog : Bytes) (p : Option Message),
    s.lram.holds .wsSrcPhys srcPhys → s.lram.holds .wsDstPhys dstPhys → s.lram.holds .wsSrcLog srcLog →
    s.lram.holds .wsDstLog dstLog →
    (match p with
      | none => s.ws.seg.getLsbD 2 = false
      | some m => s.ws.seg.getLsbD 2 = true ∧ s.lram.holds .wsType m.type ∧ s.lram.holds .wsSender m.senderAddr
          ∧ s.lram.holds .wsText m.text ∧ m.ts = s.ws.tsHi ++ s.ws.tsLo) →
      let f : Frame :=
        { srcPhys := srcPhys, dstPhys := dstPhys, checksum := 0#32,
          pkt := { srcLog := srcLog, dstLog := dstLog, ttl := s.ws.ttl,
                   seg := { seq := s.ws.seg.extractLsb' 0 1, isAck := s.ws.seg.getLsbD 1, payload := p } } }
      let c := crc32 (frameT f 0#32)
      let w := frameT f c
      ∃ t, exec .encode s = .next t
        ∧ (∀ i < w.length, t.lram.read (0x4000 + i) = w[i]?)
        ∧ (∀ a, a < 0x4000 ∨ 0x4000 + w.length + wordPad w.length ≤ a → t.lram.read a = s.lram.read a)
        ∧ (∀ a v, s.lram.read a = some v → a < 0x4000 ∨ 0x4000 + w.length ≤ a → t.lram.read a = some v)
        ∧ t =
          { s with
            lram    := t.lram
            ws      := { s.ws with frameLen := BitVec.ofNat 16 w.length, checksum := c }
            crcOut  := c
            result  := { code := .ok, flag := false, parseOk := false, opc := 0x01#8 }
            irqPend := s.irqPend ||| 0x01#6
            cmd     := { s.cmd with phase := .idle } }

/-- ENCODE raises E_LEN and writes nothing else when a slot it reads has a LEN above its capacity, the LEN words it reads being
written: the four address slots, and the three message slots only when HASPL = 1 (R119, R59). -/
def Obligations.EncodeRefusesLongSlots : Prop :=
  ∀ s : State,
    let slots : List Slot :=
      if s.ws.seg.getLsbD 2 then [.wsSrcPhys, .wsDstPhys, .wsSrcLog, .wsDstLog, .wsType, .wsSender, .wsText]
      else [.wsSrcPhys, .wsDstPhys, .wsSrcLog, .wsDstLog]
    (∀ sl ∈ slots, ∃ n, s.lram.slotLen sl = .ok n) →
    (∃ sl ∈ slots, ∃ n, s.lram.slotLen sl = .ok n ∧ sl.cap < n) →
      exec .encode s = .next
        { s with
          result  := { code := .eLen, flag := false, parseOk := false, opc := s.cmd.opc }
          irqPend := s.irqPend ||| 0x01#6
          cmd     := { s.cmd with phase := .idle } }

/-- XMIT queues a private copy of WS_FRAME's first WS_FRAME_LEN bytes, addressed to NEXT_HOP, and stays busy until the injector
completes it; E_LEN, with nothing queued, where WS_FRAME_LEN exceeds FRAME_CAP (R113). -/
def Obligations.XmitQueuesFrameBuffer : Prop :=
  ∀ (s : State) (b : Bytes),
    (s.ws.frameLen.toNat ≤ 12288 → b.length = s.ws.frameLen.toNat →
      (∀ i < b.length, s.lram.read (0x4000 + i) = b[i]?) →
        exec .xmit s = .next
          { s with
            inj :=
              { s.inj with
                txq := s.inj.txq
                  ++ [{ bytes := b, dst := { ip := s.cfg.nextHopIp, port := s.cfg.nextHopPort }, tag := .cmdXmit }] }
            cmd := { s.cmd with phase := .waitInj } })
    ∧ (12288 < s.ws.frameLen.toNat →
        exec .xmit s = .next
          { s with
            result  := { code := .eLen, flag := false, parseOk := false, opc := s.cmd.opc }
            irqPend := s.irqPend ||| 0x01#6
            cmd     := { s.cmd with phase := .idle } })

/-- SEND from IDLE with every slot it reads holding a string within capacity (R132): the session opens with the encoded frame of
the TXM message, the latch is cleared, the timer stopped, and the frame queued to NEXT_HOP; nothing else changes, CRC_OUT, the
workspace registers and LRAM included. -/
def Obligations.SendOpensSession : Prop :=
  ∀ (s : State) (myPhys peerPhys myLog peerLog type sender text : Bytes),
    s.arq.state = .idle →
    s.lram.holds .myPhys myPhys → s.lram.holds .peerPhys peerPhys → s.lram.holds .myLog myLog →
    s.lram.holds .peerLog peerLog → s.lram.holds .txmType type → s.lram.holds .txmSender sender →
    s.lram.holds .txmText text →
      let f : Frame :=
        { srcPhys := myPhys, dstPhys := peerPhys, checksum := 0#32,
          pkt := { srcLog := myLog, dstLog := peerLog, ttl := s.cfg.ttlInit,
                   seg := { seq := s.arq.seqBit, isAck := false,
                            payload := some { type := type, senderAddr := sender, text := text,
                                              ts := s.txm.tsHi ++ s.txm.tsLo } } } }
      let w := frameT f (crc32 (frameT f 0#32))
      exec .send s = .next
        { s with
          arq :=
            { state := .awaitingAck, seqBit := s.arq.seqBit, ackLatch := false, txp := true, timerRun := false,
              timerRemain := 0#32, frame := w }
          inj :=
            { s.inj with
              txq := s.inj.txq
                ++ [{ bytes := w, dst := { ip := s.cfg.nextHopIp, port := s.cfg.nextHopPort }, tag := .arqSend }] }
          cmd := { s.cmd with phase := .waitInj } }

/-- SEND is refused while a session is open, before any slot is read, and with E_LEN from IDLE when a slot it reads has a LEN
above its capacity, the LEN words being written; RESULT is all it writes besides its completion (R132, R171). -/
def Obligations.SendRefusals : Prop :=
  ∀ s : State,
    (s.arq.state = .awaitingAck → exec .send s = .next
      { s with
        result  := { code := .eState, flag := false, parseOk := false, opc := s.cmd.opc }
        irqPend := s.irqPend ||| 0x01#6
        cmd     := { s.cmd with phase := .idle } })
    ∧ (let slots : List Slot := [.myPhys, .peerPhys, .myLog, .peerLog, .txmSender, .txmType, .txmText]
      s.arq.state = .idle → (∀ sl ∈ slots, ∃ n, s.lram.slotLen sl = .ok n) →
      (∃ sl ∈ slots, ∃ n, s.lram.slotLen sl = .ok n ∧ sl.cap < n) →
        exec .send s = .next
          { s with
            result  := { code := .eLen, flag := false, parseOk := false, opc := s.cmd.opc }
            irqPend := s.irqPend ||| 0x01#6
            cmd     := { s.cmd with phase := .idle } })

/-! ### The codec -/

/-- R101, R103: parse succeeds exactly on the wire encodings of frame values within range, and FrameT is injective on them. -/
def Obligations.ParseInvertsWire : Prop :=
  (∀ (b : Bytes) (f : Frame), parse b = some f ↔ f.wf = true ∧ b = frameT f f.checksum)
    ∧ ∀ (f g : Frame) (c d : Word), f.wf = true → g.wf = true → frameT f c = frameT g d →
        c = d ∧ { f with checksum := 0#32 } = { g with checksum := 0#32 }

/-- R99: every byte of Canon(f) and of Wire(f) is in the range 0x20 to 0x7E. -/
def Obligations.WireBytesPrintable : Prop :=
  ∀ f : Frame, ∀ b, b ∈ canon f ∨ b ∈ wire f → 0x20 ≤ b.toNat ∧ b.toNat ≤ 0x7E

/-- The bounds of Wire(f)'s length, all reached: at most 8532 bytes, and at least 178 for a data segment's frame and 177 for an
ACK's. Every frame whose checksum is right, so every frame the block builds or accepts, has at least 178. R100 gives 178 for
every frame; the encoding of R94 and R95 makes `true` one byte shorter than `false`, and the model follows the encoding (the
model's choice, assumption log 20). -/
def Obligations.WireLengthBounds : Prop :=
  (∀ f : Frame, f.wf = true →
    (if f.pkt.seg.isAck then 177 else 178) ≤ (wire f).length ∧ (wire f).length ≤ 8532
      ∧ (crc32 (canon f) = f.checksum → 178 ≤ (wire f).length))
    ∧ (∀ b : Bool, ∃ f : Frame, f.wf = true ∧ f.pkt.seg.isAck = b ∧ (wire f).length = if b then 177 else 178)
    ∧ ∃ f : Frame, f.wf = true ∧ (wire f).length = 8532

/-- R116: CRC32 of the empty string is 0, and CRC32 detects every single-bit error in a string of any length. -/
def Obligations.CrcDetectsSingleBitErrors : Prop :=
  crc32 [] = 0#32
    ∧ ∀ (x : Bytes) (k j : Nat), k < x.length → j < 8 → crc32 (x.modify k (· ^^^ (1#8 <<< j))) ≠ crc32 x

/-- R123: flip any single bit of a frame built by encode_alg, and decode_alg never answers valid = true. -/
def Obligations.SingleBitFlipIsInvalid : Prop :=
  ∀ (srcPhys dstPhys : Bytes) (pkt : Packet) (k j : Nat),
    Frame.wf { srcPhys := srcPhys, dstPhys := dstPhys, checksum := 0#32, pkt := pkt } = true →
    k < (encodeAlg srcPhys dstPhys pkt).1.length → j < 8 →
      ∀ f c v, decodeAlg ((encodeAlg srcPhys dstPhys pkt).1.modify k (· ^^^ (1#8 <<< j))) = some (f, c, v) → v = false

/-- R124: complementing one byte of a frame built by encode_alg makes decode_alg fail at parsing. -/
def Obligations.ComplementedByteFailsParsing : Prop :=
  ∀ (srcPhys dstPhys : Bytes) (pkt : Packet) (k : Nat), k < (encodeAlg srcPhys dstPhys pkt).1.length →
    decodeAlg ((encodeAlg srcPhys dstPhys pkt).1.modify k (· ^^^ 0xFF#8)) = none

/-- R122: after a successful ENCODE, a DECODE in any later state that still has WS_FRAME_LEN and those bytes of WS_FRAME answers
FLAG = 1 and PARSE_OK = 1 and writes back the field values ENCODE read (the message's only where the payload is a message);
WS_CHECKSUM ends equal to CRC_OUT and to the checksum ENCODE computed. -/
def Obligations.DecodeAfterEncodeIsValid : Prop :=
  ∀ s t r : State, exec .encode s = .next t → t.result.code = .ok →
    r.ws.frameLen = t.ws.frameLen →
    (∀ i < t.ws.frameLen.toNat, r.lram.read (0x4000 + i) = t.lram.read (0x4000 + i)) →
      ∃ u, exec .decode r = .next u
        ∧ u.result = { code := .ok, flag := true, parseOk := true, opc := 0x02#8 }
        ∧ u.ws.ttl = s.ws.ttl ∧ u.ws.seg = s.ws.seg
        ∧ u.ws.checksum = t.ws.checksum ∧ u.crcOut = t.ws.checksum ∧ t.crcOut = t.ws.checksum
        ∧ (∀ sl ∈ [Slot.wsSrcPhys, .wsDstPhys, .wsSrcLog, .wsDstLog], u.lram.slotRead sl = s.lram.slotRead sl)
        ∧ (s.ws.seg.getLsbD 2 = true → u.ws.tsLo = s.ws.tsLo ∧ u.ws.tsHi = s.ws.tsHi
            ∧ ∀ sl ∈ [Slot.wsType, .wsSender, .wsText], u.lram.slotRead sl = s.lram.slotRead sl)

/-! ### The injector -/

/-- What the completion of a request does, by its tag (R114, R133, R134, R156): XMIT ends; SEND's transmission is done and SEND
ends; a retransmission is done; the receive engine's wait ends. -/
def Obligations.RequestCompletionByTag : Prop :=
  ∀ s : State,
    completeRequest .cmdXmit s =
        { s with
          result  := { code := .ok, flag := false, parseOk := false, opc := 0x06#8 }
          irqPend := s.irqPend ||| 0x01#6
          cmd     := { s.cmd with phase := .idle } }
      ∧ completeRequest .arqSend s =
        { s with
          arq     := { s.arq with txp := false, timerRemain := s.cfg.arqTimeout, timerRun := true }
          result  := { code := .ok, flag := false, parseOk := false, opc := 0x07#8 }
          irqPend := s.irqPend ||| 0x01#6
          cmd     := { s.cmd with phase := .idle } }
      ∧ completeRequest .arqRetx s =
        { s with arq := { s.arq with txp := false, timerRemain := s.cfg.arqTimeout, timerRun := true } }
      ∧ completeRequest .rxeAck s = { s with rx := { s.rx with rxWait := false } }

/-- INJ.start on the head request (R106 to R109). With a loss draw below min(P_LOSS, 0x10000) it is counted, lost and completed
in the same step, and no datagram is emitted. Otherwise it is counted and served: one byte is complemented exactly when the
request is not empty and the corruption draw is below min(P_CORRUPT, 0x10000), and the delay lies between the latency bounds in
either order; a drawn position or delay inside its interval is the one taken. -/
def Obligations.InjectorServesHeadRequest : Prop :=
  ∀ (s : State) (d : Draws) (req : Request) (queue : List Request),
    s.resetHeld = false → s.inj.serving = none → s.inj.txq = req :: queue →
    (d.loss.toNat < min s.cfg.channel.pLoss.toNat 0x10000 →
      takesTurn (.injStart d) s
        (completeRequest req.tag
          { s with
            inj := { s.inj with txq := queue }
            cnt := { s.cnt with xmit := s.cnt.xmit + 1#32, loss := s.cnt.loss + 1#32 } }))
    ∧ (min s.cfg.channel.pLoss.toNat 0x10000 ≤ d.loss.toNat →
      ∃ (delay : Word) (k : Nat),
        min s.cfg.channel.latMin.toNat s.cfg.channel.latMax.toNat ≤ delay.toNat
        ∧ delay.toNat ≤ max s.cfg.channel.latMin.toNat s.cfg.channel.latMax.toNat
        ∧ (min s.cfg.channel.latMin.toNat s.cfg.channel.latMax.toNat ≤ d.delay →
            d.delay ≤ max s.cfg.channel.latMin.toNat s.cfg.channel.latMax.toNat → delay.toNat = d.delay)
        ∧ (req.bytes ≠ [] → k < req.bytes.length) ∧ (d.pos < req.bytes.length → k = d.pos)
        ∧ takesTurn (.injStart d) s
          (if req.bytes ≠ [] ∧ d.corrupt.toNat < min s.cfg.channel.pCorrupt.toNat 0x10000 then
            { s with
              inj := { txq := queue, serving := some { req with bytes := req.bytes.modify k (· ^^^ 0xFF#8) }, delay := delay }
              cnt := { s.cnt with xmit := s.cnt.xmit + 1#32, corrupt := s.cnt.corrupt + 1#32 } }
          else
            { s with
              inj := { txq := queue, serving := some req, delay := delay }
              cnt := { s.cnt with xmit := s.cnt.xmit + 1#32 } }))

/-- INJ.emit with the delay run out (R111): the served bytes go to NET addressed to the request's endpoint, the request
completes, and the injector is idle; with a delay left under TICKED the step is not enabled. Its turn
then changes nothing (the model's choice, assumption log 5). -/
def Obligations.InjectorEmitsWhenDelayElapsed : Prop :=
  ∀ (s : State) (req : Request), s.resetHeld = false → s.inj.serving = some req →
    (s.inj.delay = 0#32 ∨ Config.timeModel = .untimed →
      ∃ src : Endpoint, takesTurn .injEmit s
        (completeRequest req.tag
          { s with
            inj := { s.inj with serving := none }
            net :=
              { s.net with
                flight := s.net.flight
                  ++ [{ emitter := .block, datagram := { bytes := req.bytes, dst := req.dst, src := src } }] } }))
    ∧ (s.inj.delay ≠ 0#32 → Config.timeModel = .ticked → takesTurn .injEmit s s)

/-! ### The sender -/

/-- R135: ARQ.complete cancels the timer, flips the sequence bit, ends the session and raises SEND_DONE; the latch stays. -/
def Obligations.ArqCompletesSession : Prop :=
  ∀ s : State, s.resetHeld = false → s.arq.state = .awaitingAck → s.arq.txp = false → s.arq.ackLatch = true →
    takesTurn .arqComplete s
      { s with
        arq     := { s.arq with state := .idle, seqBit := s.arq.seqBit ^^^ 1#1, timerRun := false, timerRemain := 0#32 }
        irqPend := s.irqPend ||| 0x02#6 }

/-- ARQ.timeout with no latched ACK and nothing of the session in the injector (R136, R138). With the timer run out, or under
UNTIMED, ARQ_FRAME is queued again to NEXT_HOP, counted, and RETX is raised. Under TICKED with milliseconds left it is not
enabled. That TIMER_REMAIN is 0 afterwards under UNTIMED too, and that a turn not enabled changes nothing, is the model's choice
(assumption logs 7 and 5). -/
def Obligations.ArqTimeoutRetransmits : Prop :=
  ∀ s : State, s.resetHeld = false → s.arq.state = .awaitingAck → s.arq.txp = false → s.arq.timerRun = true →
    s.arq.ackLatch = false →
      (s.arq.timerRemain = 0#32 ∨ Config.timeModel = .untimed →
        takesTurn .arqTimeout s
          { s with
            arq     := { s.arq with timerRun := false, timerRemain := 0#32, txp := true }
            inj     :=
              { s.inj with
                txq := s.inj.txq
                  ++ [{ bytes := s.arq.frame, dst := { ip := s.cfg.nextHopIp, port := s.cfg.nextHopPort }, tag := .arqRetx }] }
            cnt     := { s.cnt with retx := s.cnt.retx + 1#32 }
            irqPend := s.irqPend ||| 0x08#6 })
      ∧ (s.arq.timerRemain ≠ 0#32 → Config.timeModel = .ticked → takesTurn .arqTimeout s s)

/-- What holds the ARQ steps back (R135, R136, R137): a latched ACK or a stopped timer holds ARQ.timeout back, a clear latch holds
ARQ.complete back, and a transmission still in the injector, or no open session, holds both back. That a turn whose step is not
enabled changes nothing is the model's form of it (assumption log 5). -/
def Obligations.LatchedAckDisablesTimeout : Prop :=
  ∀ s : State, s.resetHeld = false →
    (s.arq.ackLatch = true → takesTurn .arqTimeout s s)
    ∧ (s.arq.timerRun = false → takesTurn .arqTimeout s s)
    ∧ (s.arq.ackLatch = false → takesTurn .arqComplete s s)
    ∧ (s.arq.txp = true → takesTurn .arqTimeout s s ∧ takesTurn .arqComplete s s)
    ∧ (s.arq.state = .idle → takesTurn .arqTimeout s s ∧ takesTurn .arqComplete s s)

/-- TICK.ms with TICK.inj (R138, R110): under TICKED each running down-counter above 0 loses 1 and stops at 0; under UNTIMED a
tick changes nothing of the block. The routers' own delays are the environment's. -/
def Obligations.TickCountsDown : Prop :=
  ∀ s : State, s.resetHeld = false →
    ∃ routers : List Router,
      (Config.timeModel = .ticked → takesTurn .tick s
        { s with
          arq := { s.arq with timerRemain :=
                    if s.arq.timerRun = true ∧ 0 < s.arq.timerRemain.toNat then s.arq.timerRemain - 1#32
                    else s.arq.timerRemain }
          inj := { s.inj with delay :=
                    if s.inj.serving.isSome = true ∧ 0 < s.inj.delay.toNat then s.inj.delay - 1#32 else s.inj.delay }
          net := { s.net with routers := routers } })
      ∧ (Config.timeModel = .untimed → takesTurn .tick s s)

/-- The sender's sequence bit changes, and its session ends, only in a reset or in ARQ.complete with the ACK latched and nothing
of the session in the injector (R43, R130, R135, R140). Only the receive engine sets ACK_LATCH, and only SEND and a reset clear
it (R44). -/
def Obligations.OnlyCompletionEndsSession : Prop :=
  ∀ (s t : State) (tn : Turn) (rest : List Turn), s.turns = tn :: rest → step s = .next t →
    (t.arq.seqBit ≠ s.arq.seqBit ∨ (s.arq.state = .awaitingAck ∧ t.arq.state = .idle) →
      (tn = .arqComplete ∧ s.arq.state = .awaitingAck ∧ s.arq.ackLatch = true ∧ s.arq.txp = false) ∨ tn.isReset = true)
    ∧ (s.arq.ackLatch = false → t.arq.ackLatch = true → tn = .rxeTake)
    ∧ (s.arq.ackLatch = true → t.arq.ackLatch = false →
        (tn = .cmdExec ∧ s.cmd.phase = .exec ∧ decode s.cmd.word = .ok .send ∧ s.arq.state = .idle) ∨ tn.isReset = true)

/-- ARQ_FRAME is written only by SEND's execute step and by a reset, so every transmission of a session submits the same bytes
(R142, R47). -/
def Obligations.OnlySendWritesArqFrame : Prop :=
  ∀ (s t : State) (tn : Turn) (rest : List Turn), s.turns = tn :: rest → step s = .next t →
    t.arq.frame ≠ s.arq.frame →
      (tn = .cmdExec ∧ decode s.cmd.word = .ok .send ∧ s.arq.state = .idle) ∨ tn.isReset = true

/-! ### The receive engine -/

/-- R145: the network port discards and counts while RX_EN = 0, then a datagram above FRAME_CAP, then an arrival at a full RXQ;
otherwise it appends the datagram to the RXQ. -/
def Obligations.NetworkPortArrival : Prop :=
  ∀ (s : State) (b : Bytes) (src : Endpoint),
    netArrive b src s =
      if s.rxEn = false then
        { s with cnt := { s.cnt with rxOff := s.cnt.rxOff + 1#32 }, dropCause := .rxOff }
      else if 12288 < b.length then
        { s with
          cnt := { s.cnt with rxIntegrity := s.cnt.rxIntegrity + 1#32 }, dropCause := .integrity,
          irqPend := s.irqPend ||| 0x10#6 }
      else if 4 ≤ s.rx.rxq.length then
        { s with
          cnt := { s.cnt with rxqOvf := s.cnt.rxqOvf + 1#32 }, dropCause := .rxqOvf, irqPend := s.irqPend ||| 0x10#6 }
      else { s with rx := { s.rx with rxq := s.rx.rxq ++ [{ bytes := b, src := src }] } }

/-- Gates 1 and 2 (R146, R147, R148): a taken datagram that does not parse or whose checksum is wrong is discarded with cause
INTEGRITY, one whose ttl is 0 with cause TTL; each is counted, raises RX_DROP, and changes nothing else. While the engine waits
for its ACK's injection, or the RXQ is empty, RXE.take is not enabled (R50, R146), and its turn changes nothing (the model's
choice, assumption log 5). -/
def Obligations.ReceiveGatesDiscard : Prop :=
  (∀ (s : State) (d : RxDatagram) (queue : List RxDatagram),
    s.resetHeld = false → s.rx.rxWait = false → s.rx.rxq = d :: queue →
    ((parse d.bytes = none ∨ ∃ f, parse d.bytes = some f ∧ crc32 (canon f) ≠ f.checksum) →
      takesTurn .rxeTake s
        { s with
          rx        := { s.rx with rxq := queue }
          cnt       := { s.cnt with rx := s.cnt.rx + 1#32, rxIntegrity := s.cnt.rxIntegrity + 1#32 }
          dropCause := .integrity
          irqPend   := s.irqPend ||| 0x10#6 })
    ∧ ((∃ f, parse d.bytes = some f ∧ crc32 (canon f) = f.checksum ∧ f.pkt.ttl = 0#32) →
      takesTurn .rxeTake s
        { s with
          rx        := { s.rx with rxq := queue }
          cnt       := { s.cnt with rx := s.cnt.rx + 1#32, rxTtl := s.cnt.rxTtl + 1#32 }
          dropCause := .ttl
          irqPend   := s.irqPend ||| 0x10#6 }))
  ∧ ∀ s : State, s.resetHeld = false → s.rx.rxWait = true ∨ s.rx.rxq = [] → takesTurn .rxeTake s s

/-- Gate 3 for an ACK (R150): a taken ACK whose bit is the one outstanding in an open session sets the latch; any other is
counted as ignored; neither is acknowledged, and nothing else changes. -/
def Obligations.AckGateSetsLatch : Prop :=
  ∀ (s : State) (d : RxDatagram) (queue : List RxDatagram) (f : Frame),
    s.resetHeld = false → s.rx.rxWait = false → s.rx.rxq = d :: queue → parse d.bytes = some f →
    crc32 (canon f) = f.checksum → f.pkt.ttl ≠ 0#32 → f.pkt.seg.isAck = true →
      takesTurn .rxeTake s
        (if s.arq.state = .awaitingAck ∧ f.pkt.seg.seq = s.arq.seqBit then
          { s with
            rx  := { s.rx with rxq := queue }
            cnt := { s.cnt with rx := s.cnt.rx + 1#32, ackMatch := s.cnt.ackMatch + 1#32 }
            arq := { s.arq with ackLatch := true } }
        else
          { s with
            rx        := { s.rx with rxq := queue }
            cnt       := { s.cnt with rx := s.cnt.rx + 1#32, ackIgnored := s.cnt.ackIgnored + 1#32 }
            dropCause := .ignoredAck })

/-- A taken data segment is discarded, with no delivery and no ACK, with cause CONFIG when an identity slot is above capacity
(R151), and with cause RX_FULL when it is new and the delivered-message slot is held (R153). -/
def Obligations.DataSegmentDiscards : Prop :=
  ∀ (s : State) (d : RxDatagram) (queue : List RxDatagram) (f : Frame) (n m : Nat),
    s.resetHeld = false → s.rx.rxWait = false → s.rx.rxq = d :: queue → parse d.bytes = some f →
    crc32 (canon f) = f.checksum → f.pkt.ttl ≠ 0#32 → f.pkt.seg.isAck = false →
    s.lram.slotLen .myPhys = .ok n → s.lram.slotLen .myLog = .ok m →
      (64 < n ∨ 64 < m →
        takesTurn .rxeTake s
          { s with
            rx        := { s.rx with rxq := queue }
            cnt       := { s.cnt with rx := s.cnt.rx + 1#32 }
            dropCause := .config
            irqPend   := s.irqPend ||| 0x10#6 })
      ∧ (n ≤ 64 → m ≤ 64 → s.rx.lastAcc ≠ some f.pkt.seg.seq → s.rx.rxmFull = true →
        takesTurn .rxeTake s
          { s with
            rx        := { s.rx with rxq := queue }
            cnt       := { s.cnt with rx := s.cnt.rx + 1#32, rxFull := s.cnt.rxFull + 1#32 }
            dropCause := .rxFull
            irqPend   := s.irqPend ||| 0x10#6 })

/-- A taken duplicate (R152, R155): it is counted and acknowledged with its own sequence bit, from MY_PHYS and MY_LOG to the
frame's source addresses, and not delivered; nothing else changes, whether or not the delivered-message slot is held. -/
def Obligations.DuplicateIsAcknowledged : Prop :=
  ∀ (s : State) (d : RxDatagram) (queue : List RxDatagram) (f : Frame) (myPhys myLog : Bytes),
    s.resetHeld = false → s.rx.rxWait = false → s.rx.rxq = d :: queue → parse d.bytes = some f →
    crc32 (canon f) = f.checksum → f.pkt.ttl ≠ 0#32 → f.pkt.seg.isAck = false →
    s.lram.holds .myPhys myPhys → s.lram.holds .myLog myLog → s.rx.lastAcc = some f.pkt.seg.seq →
      let a : Frame :=
        { srcPhys := myPhys, dstPhys := f.srcPhys, checksum := 0#32,
          pkt := { srcLog := myLog, dstLog := f.pkt.srcLog, ttl := s.cfg.ttlInit,
                   seg := { seq := f.pkt.seg.seq, isAck := true, payload := none } } }
      takesTurn .rxeTake s
        { s with
          rx  := { s.rx with rxq := queue, rxWait := true }
          cnt := { s.cnt with rx := s.cnt.rx + 1#32, rxDup := s.cnt.rxDup + 1#32, ackTx := s.cnt.ackTx + 1#32 }
          inj :=
            { s.inj with
              txq := s.inj.txq
                ++ [{ bytes := frameT a (crc32 (frameT a 0#32)),
                      dst := { ip := s.cfg.nextHopIp, port := s.cfg.nextHopPort }, tag := .rxeAck }] } }

/-- A taken new data segment with room (R154, R155): the message (or empty strings and a zero timestamp for a null payload) is
in the RXM slots and registers, LAST_ACC is its bit, DELIVER is raised, and an ACK with its bit is queued; every LRAM byte
outside the words of the four strings, every byte past a string's end that has a value (R58), and every other field, is
unchanged. -/
def Obligations.NewSegmentIsDelivered : Prop :=
  ∀ (s : State) (d : RxDatagram) (queue : List RxDatagram) (f : Frame) (m : Message) (myPhys myLog : Bytes),
    s.resetHeld = false → s.rx.rxWait = false → s.rx.rxq = d :: queue → parse d.bytes = some f →
    crc32 (canon f) = f.checksum → f.pkt.ttl ≠ 0#32 → f.pkt.seg.isAck = false →
    s.lram.holds .myPhys myPhys → s.lram.holds .myLog myLog → s.rx.lastAcc ≠ some f.pkt.seg.seq →
    s.rx.rxmFull = false →
    (f.pkt.seg.payload = some m
      ∨ f.pkt.seg.payload = none ∧ m = { type := [], senderAddr := [], text := [], ts := 0#64 }) →
      let a : Frame :=
        { srcPhys := myPhys, dstPhys := f.srcPhys, checksum := 0#32,
          pkt := { srcLog := myLog, dstLog := f.pkt.srcLog, ttl := s.cfg.ttlInit,
                   seg := { seq := f.pkt.seg.seq, isAck := true, payload := none } } }
      ∃ lram : Memory,
        lram.holds .rxmType m.type ∧ lram.holds .rxmSender m.senderAddr ∧ lram.holds .rxmText m.text
        ∧ lram.holds .rxmSrcLog f.pkt.srcLog
        ∧ (∀ x, ¬ slotTouched .rxmType m.type x → ¬ slotTouched .rxmSender m.senderAddr x →
            ¬ slotTouched .rxmText m.text x → ¬ slotTouched .rxmSrcLog f.pkt.srcLog x → lram.read x = s.lram.read x)
        ∧ (∀ x v, s.lram.read x = some v → ¬ slotWritten .rxmType m.type x → ¬ slotWritten .rxmSender m.senderAddr x →
            ¬ slotWritten .rxmText m.text x → ¬ slotWritten .rxmSrcLog f.pkt.srcLog x → lram.read x = some v)
        ∧ takesTurn .rxeTake s
          { s with
            lram    := lram
            rxm     :=
              { tsLo := m.ts.extractLsb' 0 32, tsHi := m.ts.extractLsb' 32 32,
                info := f.pkt.seg.seq ++ BitVec.ofBool f.pkt.seg.payload.isSome }
            rx      := { lastAcc := some f.pkt.seg.seq, rxmFull := true, rxWait := true, rxq := queue }
            cnt     :=
              { s.cnt with
                rx := s.cnt.rx + 1#32, deliver := s.cnt.deliver + 1#32, ackTx := s.cnt.ackTx + 1#32 }
            irqPend := s.irqPend ||| 0x04#6
            inj     :=
              { s.inj with
                txq := s.inj.txq
                  ++ [{ bytes := frameT a (crc32 (frameT a 0#32)),
                        dst := { ip := s.cfg.nextHopIp, port := s.cfg.nextHopPort }, tag := .rxeAck }] } }

/-- R158: fed two validated data segments with the same new sequence bit back to back (the first ACK's attempt being lost in
between), the block delivers once and acknowledges both times. -/
def Obligations.DedupDeliversOnceAcksTwice : Prop :=
  ∀ (s : State) (d e : RxDatagram) (f g : Frame) (x : Draws) (myPhys myLog : Bytes),
    s.resetHeld = false → s.rx.rxWait = false → s.rx.rxq = [d, e] → s.inj.txq = [] → s.inj.serving = none →
    s.turns = [.rxeTake, .injStart x, .rxeTake] → x.loss.toNat < min s.cfg.channel.pLoss.toNat 0x10000 →
    parse d.bytes = some f → crc32 (canon f) = f.checksum → f.pkt.ttl ≠ 0#32 → f.pkt.seg.isAck = false →
    parse e.bytes = some g → crc32 (canon g) = g.checksum → g.pkt.ttl ≠ 0#32 → g.pkt.seg.isAck = false →
    f.pkt.seg.seq = g.pkt.seg.seq → s.rx.lastAcc ≠ some f.pkt.seg.seq → s.rx.rxmFull = false →
    s.lram.holds .myPhys myPhys → s.lram.holds .myLog myLog →
      ∃ t, reachesIn 3 s t ∧ t.cnt.deliver = s.cnt.deliver + 1#32 ∧ t.cnt.ackTx = s.cnt.ackTx + 2#32
        ∧ t.cnt.rxDup = s.cnt.rxDup + 1#32 ∧ t.cnt.rx = s.cnt.rx + 2#32 ∧ t.rx.lastAcc = some f.pkt.seg.seq
        ∧ ∀ sl ∈ [Slot.rxmType, .rxmSender, .rxmText], ∀ m, f.pkt.seg.payload = some m →
            t.lram.slotRead sl = .ok (if sl = .rxmType then m.type else if sl = .rxmSender then m.senderAddr else m.text)

/-! ### The host's accesses -/

/-- R161, R162: a host write to CMD starts a command while the unit is idle, and is dropped with CMD_OVR while it is busy. -/
def Obligations.CommandWriteAcceptedOrDropped : Prop :=
  ∀ (s : State) (w : Word), s.resetHeld = false →
    takesTurn (.host (.write .w32 0x010 (w.setWidth 64))) s
      (if s.cmd.phase = .idle then
        { s with cmd := { phase := .exec, word := w, opc := w.extractLsb' 0 8 }, bus := .written }
      else { s with irqPend := s.irqPend ||| 0x20#6, bus := .written })

/-- A host access of another width, or at an offset not a multiple of 4, is refused with a bus error and changes no state of the
block (R62, R179). -/
def Obligations.BadAccessIsRefused : Prop :=
  ∀ (s : State) (w : AccessWidth) (o : Nat) (v : BitVec 64), s.resetHeld = false → o < 0x8000 →
    w ≠ .w32 ∨ o % 4 ≠ 0 →
      takesTurn (.host (.read w o)) s { s with bus := .busError }
      ∧ takesTurn (.host (.write w o v)) s { s with bus := .busError }

/-- Where the machine stops (R41, R186). A step is never refused; it faults only where it reads an LRAM byte that nothing has
written since the hard reset, or where a host access lies outside the aperture (the model's choice, assumption log 13). And
there it does: CRC32, DECODE and XMIT with an unwritten byte among the WS_FRAME_LEN they read, ENCODE and SEND with the first
length word they check unwritten (the order of the checks: assumption log 4), a host read of an unwritten word, a
host access outside the aperture. -/
def Obligations.FaultsAreUnwrittenReads : Prop :=
  (∀ s : State, (∀ r, step s ≠ .refused r)
    ∧ ∀ f, step s = .fault f →
        (∃ a, f = .unwrittenLram a ∧ s.lram.read a = none)
          ∨ ∃ o, f = .outsideAperture o ∧ 0x8000 ≤ o)
  ∧ (∀ s : State, s.ws.frameLen.toNat ≤ 12288 → (∃ i < s.ws.frameLen.toNat, s.lram.read (0x4000 + i) = none) →
      ∀ i ∈ [Instr.crc32, .decode, .xmit], ∃ a, s.lram.read a = none ∧ exec i s = .fault (.unwrittenLram a))
  ∧ (∀ s : State, s.lram.read 0x1800 = none → exec .encode s = .fault (.unwrittenLram 0x1800))
  ∧ (∀ s : State, s.arq.state = .idle → s.lram.read 0x1000 = none → exec .send s = .fault (.unwrittenLram 0x1000))
  ∧ (∀ (s : State) (o : Nat) (w : AccessWidth) (v : BitVec 64) (rest : List Turn), s.resetHeld = false →
      (o % 4 = 0 → isLramOffset o = true → s.lram.read o = none →
        step { s with turns := .host (.read .w32 o) :: rest } = .fault (.unwrittenLram o))
      ∧ (0x8000 ≤ o → step { s with turns := .host (.read w o) :: rest } = .fault (.outsideAperture o)
          ∧ step { s with turns := .host (.write w o v) :: rest } = .fault (.outsideAperture o)))

/-- R63: an aligned read of an offset that holds no register and no slot or frame-buffer word returns 0, a write there is
ignored, and neither has a side effect. -/
def Obligations.HoleReadsZeroIgnoresWrites : Prop :=
  ∀ (s : State) (o : Nat) (v : BitVec 64), s.resetHeld = false → o < 0x8000 → o % 4 = 0 →
    (0x074 ≤ o ∧ o ≤ 0x07C ∨ o = 0x0BC ∨ 0x0C4 ≤ o ∧ o ≤ 0x0FFC ∨ 0x1000 ≤ o ∧ isLramOffset o = false) →
      takesTurn (.host (.read .w32 o)) s { s with bus := .data 0#32 }
      ∧ takesTurn (.host (.write .w32 o v)) s { s with bus := .written }

/-- Host reads have no side effects (R65): a read that answers changes nothing but the bus's answer. And a read of a register of
the map answers its word (R17 to R38, R62), each at its offset; the layouts of STATUS and RESULT
are in ResetValues. -/
def Obligations.HostReadHasNoSideEffect : Prop :=
  (∀ (s t : State) (w : AccessWidth) (o : Nat) (rest : List Turn), s.turns = .host (.read w o) :: rest →
    step s = .next t → t = { s with turns := rest, bus := t.bus })
  ∧ ∀ s : State, s.resetHeld = false →
    ∀ p ∈ ([(0x000, 0x4D4E4331#32), (0x004, 0x00000001#32), (0x008, (BitVec.ofBool s.rxEn).setWidth 32),
        (0x00C, s.statusWord), (0x010, 0#32), (0x014, s.result.toWord), (0x018, s.irqPend.setWidth 32),
        (0x01C, s.irqEn.setWidth 32), (0x020, s.cfg.channel.pLoss.setWidth 32), (0x024, s.cfg.channel.pCorrupt.setWidth 32),
        (0x028, s.cfg.channel.latMin), (0x02C, s.cfg.channel.latMax), (0x030, s.cfg.arqTimeout), (0x034, s.cfg.ttlInit),
        (0x038, s.cfg.nextHopIp), (0x03C, s.cfg.nextHopPort.setWidth 32), (0x040, s.crcOut), (0x044, s.arq.timerRemain),
        (0x048, s.ws.ttl), (0x04C, s.ws.seg.setWidth 32), (0x050, s.ws.checksum), (0x054, s.ws.tsLo), (0x058, s.ws.tsHi),
        (0x05C, s.ws.frameLen.setWidth 32), (0x060, s.txm.tsLo), (0x064, s.txm.tsHi), (0x068, s.rxm.tsLo),
        (0x06C, s.rxm.tsHi), (0x070, s.rxm.info.setWidth 32), (0x080, s.cnt.xmit), (0x084, s.cnt.loss),
        (0x088, s.cnt.corrupt), (0x08C, s.cnt.retx), (0x090, s.cnt.rx), (0x094, s.cnt.rxIntegrity), (0x098, s.cnt.rxTtl),
        (0x09C, s.cnt.rxDup), (0x0A0, s.cnt.deliver), (0x0A4, s.cnt.ackTx), (0x0A8, s.cnt.ackMatch),
        (0x0AC, s.cnt.ackIgnored), (0x0B0, s.cnt.rxFull), (0x0B4, s.cnt.rxqOvf), (0x0B8, s.cnt.rxOff),
        (0x0C0,
          match s.dropCause with
          | .none => 0#32 | .integrity => 1#32 | .ttl => 2#32 | .rxFull => 3#32 | .rxqOvf => 4#32 | .ignoredAck => 5#32
          | .rxOff => 6#32 | .config => 7#32)] : List (Nat × Word)),
      takesTurn (.host (.read .w32 p.1)) s { s with bus := .data p.2 }

/-- R61 and the RO registers of R17: a host write to a word of an RXM slot, or to a read-only register, changes nothing. -/
def Obligations.ReadOnlyWordsIgnoreWrites : Prop :=
  ∀ (s : State) (o : Nat) (v : BitVec 64), s.resetHeld = false → o % 4 = 0 →
    (o ∈ [0x000, 0x004, 0x00C, 0x014, 0x040, 0x044, 0x068, 0x06C, 0x070, 0x0C0] ∨ 0x080 ≤ o ∧ o ≤ 0x0B8
      ∨ 0x2000 ≤ o ∧ o < 0x4000) →
      takesTurn (.host (.write .w32 o v)) s { s with bus := .written }

/-- A word of WS_FRAME or of the data of a slot the host may write reads back as written, a length word as its bits [15:0], and
no other LRAM byte changes (R58, R59, R62, R64). -/
def Obligations.LramWordReadsBack : Prop :=
  ∀ (s : State) (o : Nat) (v : Word), o % 4 = 0 →
    (0x4000 ≤ o ∧ o < 0x7000 ∨ ∃ sl : Slot, sl.readOnly = false ∧ sl.base ≤ o ∧ o < sl.data + sl.cap) →
      apertureRead (apertureWrite s o v) o
          = .ok (if Slot.all.any (fun sl => o == sl.base) then (v.extractLsb' 0 16).setWidth 32 else v)
      ∧ (∀ a, a < o ∨ o + 4 ≤ a → (apertureWrite s o v).lram.read a = s.lram.read a)
      ∧ apertureWrite s o v = { s with lram := (apertureWrite s o v).lram }

/-- R24, R174, R175: a host write to IRQ_PEND clears exactly the bits written as 1 and sets none; the interrupt output is the
OR over the six sources of pending AND enabled. -/
def Obligations.InterruptPendingAndOutput : Prop :=
  ∀ (s : State) (v : Word),
    (s.resetHeld = false → ∃ p : BitVec 6, (∀ i < 6, p.getLsbD i = (s.irqPend.getLsbD i && !v.getLsbD i))
      ∧ takesTurn (.host (.write .w32 0x018 (v.setWidth 64))) s { s with irqPend := p, bus := .written })
    ∧ (s.irqOutput = true ↔ ∃ i < 6, s.irqPend.getLsbD i = true ∧ s.irqEn.getLsbD i = true)

/-- What a host write of `v` to each register a host may write stores (R17, R20, R25 to R31, R34, R35), at its offset: the bits
the register names, and no other field changes. CMD is in CommandWriteAcceptedOrDropped, IRQ_PEND in InterruptPendingAndOutput,
CTRL with SRST = 1 in SoftResetKeepsConfiguration. And in every register with reserved bits they read 0 (R16, R21, R23, R24, R36,
R38): CTRL, STATUS, RESULT, IRQ_PEND, IRQ_EN, P_LOSS, P_CORRUPT, NEXT_HOP_PORT, WS_SEG, WS_FRAME_LEN, RXM_INFO, DROP_CAUSE, and
CMD, which reads 0 whole (R22). -/
def Obligations.ReservedBitsReadZero : Prop :=
  ∀ (s : State) (v : Word),
    (s.resetHeld = false →
      (v.getLsbD 1 = false →
        takesTurn (.host (.write .w32 0x008 (v.setWidth 64))) s { s with rxEn := v.getLsbD 0, bus := .written })
      ∧ ∀ p ∈ ([(0x01C, { s with irqEn := v.setWidth 6 }),
          (0x020, { s with cfg := { s.cfg with channel := { s.cfg.channel with pLoss := v.setWidth 17 } } }),
          (0x024, { s with cfg := { s.cfg with channel := { s.cfg.channel with pCorrupt := v.setWidth 17 } } }),
          (0x028, { s with cfg := { s.cfg with channel := { s.cfg.channel with latMin := v } } }),
          (0x02C, { s with cfg := { s.cfg with channel := { s.cfg.channel with latMax := v } } }),
          (0x030, { s with cfg := { s.cfg with arqTimeout := v } }), (0x034, { s with cfg := { s.cfg with ttlInit := v } }),
          (0x038, { s with cfg := { s.cfg with nextHopIp := v } }),
          (0x03C, { s with cfg := { s.cfg with nextHopPort := v.setWidth 16 } }),
          (0x048, { s with ws := { s.ws with ttl := v } }), (0x04C, { s with ws := { s.ws with seg := v.setWidth 3 } }),
          (0x050, { s with ws := { s.ws with checksum := v } }), (0x054, { s with ws := { s.ws with tsLo := v } }),
          (0x058, { s with ws := { s.ws with tsHi := v } }),
          (0x05C, { s with ws := { s.ws with frameLen := v.setWidth 16 } }),
          (0x060, { s with txm := { s.txm with tsLo := v } }), (0x064, { s with txm := { s.txm with tsHi := v } })] :
          List (Nat × State)),
        takesTurn (.host (.write .w32 p.1 (v.setWidth 64))) s { p.2 with bus := .written })
    ∧ ∀ p ∈ ([(.ctrl, 0xFFFFFFFE#32), (.status, 0xFFFE0000#32), (.cmd, 0xFFFFFFFF#32), (.result, 0xFF00FC00#32),
        (.irqPend, 0xFFFFFFC0#32), (.irqEn, 0xFFFFFFC0#32), (.pLoss, 0xFFFE0000#32), (.pCorrupt, 0xFFFE0000#32),
        (.nextHopPort, 0xFFFF0000#32), (.wsSeg, 0xFFFFFFF8#32), (.wsFrameLen, 0xFFFF0000#32), (.rxmInfo, 0xFFFFFFFC#32),
        (.dropCause, 0xFFFFFF00#32)] : List (Reg × Word)),
      regRead s p.1 &&& p.2 = 0#32 ∧ regRead (regWrite s v p.1) p.1 &&& p.2 = 0#32

/-! ### Resets -/

/-- What a hard reset leaves (R185): the reset value of every register of the map, LRAM with nothing written, the queues empty,
the session idle with SEQ_BIT 0 and no latch, LAST_ACC = NONE, the command unit idle. And, for every state, where each field of
STATUS (R21) and of RESULT (R23) stands in its word. -/
def Obligations.ResetValues : Prop :=
  (∀ r : Reg, regRead State.reset r =
    match r with
    | .id => 0x4D4E4331#32
    | .rev => 0x00000001#32
    | .status => 0x00000060#32
    | .pLoss | .pCorrupt => 0x00003333#32
    | .latMin => 100#32
    | .latMax => 500#32
    | .arqTimeout => 2500#32
    | .ttlInit => 10#32
    | _ => 0#32)
  ∧ (∀ a, State.reset.lram.read a = none)
  ∧ State.reset.arq.state = .idle ∧ State.reset.arq.frame = [] ∧ State.reset.rx.lastAcc = none
  ∧ State.reset.inj.txq = [] ∧ State.reset.inj.serving = none ∧ State.reset.inj.delay = 0#32
  ∧ State.reset.rx.rxq = [] ∧ State.reset.cmd = { phase := .idle, word := 0#32, opc := 0#8 }
  ∧ State.reset.irqOutput = false
  ∧ (∀ s : State,
      s.statusWord.getLsbD 0 = decide (s.cmd.phase ≠ .idle) ∧ s.statusWord.getLsbD 1 = decide (s.arq.state = .awaitingAck)
        ∧ s.statusWord.extractLsb' 2 1 = s.arq.seqBit ∧ s.statusWord.getLsbD 3 = s.arq.ackLatch
        ∧ s.statusWord.getLsbD 4 = s.arq.timerRun
        ∧ s.statusWord.extractLsb' 5 2 = (match s.rx.lastAcc with | none => 3#2 | some b => b.setWidth 2)
        ∧ s.statusWord.getLsbD 7 = s.rx.rxmFull
        ∧ (s.inj.txq.length ≤ 4 → (s.statusWord.extractLsb' 8 3).toNat = s.inj.txq.length)
        ∧ (s.rx.rxq.length ≤ 4 → (s.statusWord.extractLsb' 11 3).toNat = s.rx.rxq.length)
        ∧ s.statusWord.getLsbD 14 = s.inj.serving.isSome ∧ s.statusWord.getLsbD 15 = s.rx.rxWait
        ∧ s.statusWord.getLsbD 16 = s.arq.txp ∧ s.statusWord.extractLsb' 17 15 = 0#15)
  ∧ ∀ r : CmdResult,
      r.toWord.extractLsb' 0 8
          = (match r.code with
            | .ok => 0#8 | .eIllegal => 1#8 | .eState => 2#8 | .eLen => 3#8 | .eIntegrity => 4#8 | .eOverflow => 5#8)
        ∧ r.toWord.getLsbD 8 = r.flag ∧ r.toWord.getLsbD 9 = r.parseOk ∧ r.toWord.extractLsb' 10 6 = 0#6
        ∧ r.toWord.extractLsb' 16 8 = r.opc ∧ r.toWord.extractLsb' 24 8 = 0#8

/-- R187: a write of CTRL with SRST = 1 gives everything its reset value but the configuration registers, IRQ_EN, the workspace
and TXM registers and LRAM, and RX_EN then takes bit [0]; what is in NET, and the turns to come, stay. -/
def Obligations.SoftResetKeepsConfiguration : Prop :=
  ∀ (s : State) (v : Word), s.resetHeld = false → v.getLsbD 1 = true →
    takesTurn (.host (.write .w32 0x008 (v.setWidth 64))) s
      { State.reset with
        rxEn := v.getLsbD 0, cfg := s.cfg, irqEn := s.irqEn, ws := s.ws, txm := s.txm, lram := s.lram,
        bus := .written, net := s.net, turnCount := s.turnCount }

/-- The hard reset input (R185): asserted, the block's whole state takes its reset value and IRQ is deasserted; while it is
held, no step of the block's agents, no host access and no delivery changes the block; when it is released, the block's whole
state has its reset value and the block runs. That a host access is answered by `noResponse`, that an arrival is lost uncounted, and that a
release of an input that is not held changes nothing, is the model's choice (assumption log 9). -/
def Obligations.HeldResetStopsBlock : Prop :=
  ∀ s : State,
    takesTurn (.hardReset true) s
      { State.reset with resetHeld := true, bus := s.bus, net := s.net, turnCount := s.turnCount }
    ∧ (s.resetHeld = true → ∀ (tn : Turn) (t : State) (rest : List Turn), s.turns = tn :: rest →
        (∀ b, tn ≠ .hardReset b) → step s = .next t →
          t = { s with turns := rest, bus := t.bus, net := t.net })
    ∧ (s.resetHeld = true →
        takesTurn (.hardReset false) s
          { State.reset with resetHeld := false, bus := s.bus, net := s.net, turnCount := s.turnCount })
    ∧ (s.resetHeld = false → takesTurn (.hardReset false) s s)

/-! ### Invariants and whole-machine rules -/

/-- The state right after reset is sound. -/
def Obligations.ResetIsSound : Prop :=
  State.reset.Inv

/-- Every step keeps LRAM in its canonical form, inside the LRAM map, and written word by word (R41, R58, R60). That a block
step's write completes a last word nothing had written is the model's choice (assumption log 2). -/
def Obligations.StepKeepsMemoryForm : Prop :=
  ∀ s t : State, s.memoryOk → step s = .next t → t.memoryOk

/-- Every step keeps the bookkeeping of the protocol units: each requester has exactly the injector requests its own state waits
for, the timer runs exactly when an open session has nothing in the injector, TIMER_REMAIN is 0 when the timer is stopped, the
queues and byte strings stay within their bounds, and CMD_OPC is CMD_WORD[7:0] (R46, R51, R53, R54, R105, R130, R131). That
ARQ.timeout leaves TIMER_REMAIN at 0 under UNTIMED too is the model's choice (assumption log 7). -/
def Obligations.StepKeepsProtocolInvariant : Prop :=
  ∀ s t : State, s.protocolOk → step s = .next t → t.protocolOk

/-- At most three requests are outstanding, so TXQ never holds more than 3 (R105); at most one of them is the ARQ unit's
(R131). -/
def Obligations.AtMostThreeRequests : Prop :=
  ∀ s : State, s.protocolOk →
    s.outstanding.length ≤ 3 ∧ s.inj.txq.length ≤ 3 ∧ s.outstanding.countP isArqRequest ≤ 1

/-- A quiescent sound block takes no step (R168): no internal turn changes anything but the routers' delays. A turn
without an enabled step changes nothing (the model's choice, assumption log 5). -/
def Obligations.QuiescentBlockStays : Prop :=
  ∀ (s : State) (tn : Turn), s.resetHeld = false → s.protocolOk → s.quiescent → tn.isInternal = true →
    ∃ routers : List Router, takesTurn tn s { s with net := { s.net with routers := routers } }

/-- RESULT changes only when a command ends, and at reset (R166): in CMD.exec with CMD_PHASE = EXEC, or in an injector step that
completes XMIT's or SEND's request, which is the one served in INJ.emit and the head of TXQ in INJ.start. When a command ends,
CMD_DONE is pending and the command unit is idle. -/
def Obligations.ResultChangesOnlyAtCommandEnd : Prop :=
  ∀ (s t : State) (tn : Turn) (rest : List Turn), s.turns = tn :: rest → step s = .next t → t.result ≠ s.result →
    tn.isReset = true
      ∨ ((tn = .cmdExec ∧ s.cmd.phase = .exec
            ∨ tn = .injEmit ∧ (∃ req, s.inj.serving = some req ∧ (req.tag = .cmdXmit ∨ req.tag = .arqSend))
            ∨ (∃ d, tn = .injStart d) ∧ s.inj.serving = none
              ∧ ∃ req queue, s.inj.txq = req :: queue ∧ (req.tag = .cmdXmit ∨ req.tag = .arqSend))
          ∧ t.cmd.phase = .idle ∧ t.irqPend.getLsbD 0 = true)

/-- Everything the block emits goes through its injector (R73): a step adds a copy of a datagram to the wire only in INJ.emit, as
the block's own, the request being the one the injector serves, or in the environment's own steps, as another emitter's; and it
adds one copy. -/
def Obligations.OnlyInjectorEmits : Prop :=
  ∀ (s t : State) (tn : Turn) (rest : List Turn) (x : Transit), s.turns = tn :: rest → step s = .next t →
    s.net.flight.count x < t.net.flight.count x →
      t.net.flight.count x = s.net.flight.count x + 1
      ∧ ((tn = .injEmit ∧ x.emitter = .block
            ∧ ∃ req, s.inj.serving = some req ∧ x.datagram.bytes = req.bytes ∧ x.datagram.dst = req.dst)
          ∨ (∃ n, tn = .netInject n x.datagram ∧ x.emitter = .other n) ∨ ∃ i, tn = .routerEmit i ∧ x.emitter = .router i)

/-! ### The environment -/

/-- A router's decision on a checksum-valid frame (R78, R79, R80): discarded silently when ttl - 1 ≤ 0 as a mathematical
integer, or when the destination logical address has no route; otherwise submitted to the mapped endpoint, as received or
re-encoded with the decremented ttl. Bytes that fail the integrity gate are discarded (R77). -/
def Obligations.RouterForwardsOrDiscards : Prop :=
  ∀ (mode : RouterForward) (routes : List (Bytes × Endpoint)) (b : Bytes),
    ((parse b = none ∨ ∃ f, parse b = some f ∧ crc32 (canon f) ≠ f.checksum) → routerDecide mode routes b = none)
    ∧ ∀ f, parse b = some f → crc32 (canon f) = f.checksum →
      (f.pkt.ttl.toNat ≤ 1 → routerDecide mode routes b = none)
      ∧ (1 < f.pkt.ttl.toNat → routes.lookup f.pkt.dstLog = none → routerDecide mode routes b = none)
      ∧ (1 < f.pkt.ttl.toNat → ∀ e, routes.lookup f.pkt.dstLog = some e →
          routerDecide mode routes b =
            some (e, match mode with
              | .originalBytes => b
              | .reencode =>
                let g : Frame := { f with checksum := 0#32, pkt := { f.pkt with ttl := f.pkt.ttl - 1#32 } }
                frameT g (crc32 (frameT g 0#32))))

/-- NET delivers to the block exactly the bytes that were emitted (R74): a datagram addressed to the block's endpoint reaches its
network port, and only what is in flight changes besides. Under FIFO_LOSSY the datagram is delivered once, and what its emitter
sent to the same destination before it is no longer delivered; under ANY_ORDER all stays deliverable (R75, in the form of
assumption log 10). -/
def Obligations.DeliveryReachesNetworkPort : Prop :=
  ∀ (s : State) (k : Nat) (x : Transit), s.resetHeld = false → s.net.flight[k]? = some x →
    s.net.endpoint = some x.datagram.dst →
      takesTurn (.netDeliver k) s
        (netArrive x.datagram.bytes x.datagram.src
          { s with
            net :=
              { s.net with
                flight :=
                  match Config.netModel with
                  | .fifoLossy =>
                    (s.net.flight.take k).filter
                        (fun y => !decide (y.emitter = x.emitter ∧ y.datagram.dst = x.datagram.dst))
                      ++ s.net.flight.drop (k + 1)
                  | .anyOrder => s.net.flight } })
end

