-- ==== Sys2Proof/Laws/Codec.lean ====
section
/-! SUPPORT. What the token readers do: each reads back exactly the token the encoder writes (completeness), and what a reader
accepts is a token the encoder writes (soundness) (30_encoding.md R92 to R94, R101, R102). -/

namespace Sys2Proof.Machine

/-! ### Fixed texts -/

@[simp] theorem expect_append (t b : Bytes) : expect t (t ++ b) = some b := by
  induction t with
  | nil => rfl
  | cons x t ih => simp [expect, ih]

theorem expect_some {t b r : Bytes} (h : expect t b = some r) : b = t ++ r := by
  induction t generalizing b with
  | nil => simpa [expect] using h
  | cons x t ih =>
    cases b with
    | nil => simp [expect] at h
    | cons y b =>
      simp only [expect] at h
      split at h
      · subst_vars; rw [ih h]; rfl
      · cases h

/-- A text is refused where the input's first byte differs from its own. -/
theorem expect_cons_ne {x y : Byte} (h : x ≠ y) (t b : Bytes) : expect (x :: t) (y :: b) = none := by
  simp [expect, h]

/-! ### Characters and strings -/

theorem hexValue_hexDigit (n : Nat) (h : n < 16) : hexValue (hexDigit n) = n := by
  have : ∀ i : Fin 16, hexValue (hexDigit i.1) = i.1 := by decide
  exact this ⟨n, h⟩

theorem charCandidate_esc (c : Byte) (r : Bytes) : charCandidate (esc c ++ r) = c := by
  have hlt := c.isLt
  have hhex : BitVec.ofNat 8 (16 * hexValue (hexDigit (c.toNat / 16)) + hexValue (hexDigit (c.toNat % 16))) = c := by
    rw [hexValue_hexDigit _ (by omega), hexValue_hexDigit _ (by omega), Nat.div_add_mod]
    simp
  unfold esc
  by_cases h1 : c = 0x22#8
  · subst h1; simp [charCandidate]
  by_cases h2 : c = 0x5C#8
  · subst h2; simp [charCandidate]
  by_cases h3 : c = 0x08#8
  · subst h3; simp [charCandidate]
  by_cases h4 : c = 0x0C#8
  · subst h4; simp [charCandidate]
  by_cases h5 : c = 0x0A#8
  · subst h5; simp [charCandidate]
  by_cases h6 : c = 0x0D#8
  · subst h6; simp [charCandidate]
  by_cases h7 : c = 0x09#8
  · subst h7; simp [charCandidate]
  by_cases h8 : c.toNat < 0x20 ∨ 0x7F ≤ c.toNat
  · simp only [h1, h2, h3, h4, h5, h6, h7, h8, if_true, if_false, List.cons_append, charCandidate]
    simpa using hhex
  · simp only [h1, h2, h3, h4, h5, h6, h7, h8, if_false, List.cons_append, List.nil_append]
    cases r <;> simp [charCandidate, h2]

/-- The reader of a character reads back what `esc` writes. -/
@[simp] theorem charTok_esc (c : Byte) (r : Bytes) : charTok (esc c ++ r) = some (c, r) := by
  simp [charTok, charCandidate_esc]

/-- What the reader of a character accepts, `esc` writes. -/
theorem charTok_some {b r : Bytes} {c : Byte} (h : charTok b = some (c, r)) : b = esc c ++ r := by
  simp only [charTok, Option.map_eq_some_iff, Prod.mk.injEq] at h
  obtain ⟨r', hr, hc, rfl⟩ := h
  rw [← hc]; exact expect_some hr

/-- No escape begins with the closing quote. -/
theorem esc_head (c : Byte) : ∃ x t, esc c = x :: t ∧ x ≠ 0x22#8 := by
  unfold esc
  split_ifs with h1 <;> exact ⟨_, _, rfl, by first | decide | exact h1⟩

theorem charsTok_append (s r : Bytes) (fuel : Nat) (h : s.length < fuel) :
    charsTok fuel (s.flatMap esc ++ 0x22#8 :: r) = some (s, r) := by
  induction s generalizing fuel with
  | nil =>
    obtain ⟨k, rfl⟩ : ∃ k, fuel = k + 1 := ⟨fuel - 1, by simp at h; omega⟩
    simp [charsTok]
  | cons c s ih =>
    obtain ⟨k, rfl⟩ : ∃ k, fuel = k + 1 := ⟨fuel - 1, by simp at h; omega⟩
    obtain ⟨x, t, hx, hne⟩ := esc_head c
    have htok := charTok_esc c (s.flatMap esc ++ 0x22#8 :: r)
    rw [hx, List.cons_append] at htok
    rw [List.flatMap_cons, List.append_assoc, hx, List.cons_append, charsTok, if_neg hne, htok]
    simp only [ih k (by simpa using h)]

theorem charsTok_some {fuel : Nat} {b s r : Bytes} (h : charsTok fuel b = some (s, r)) :
    b = s.flatMap esc ++ 0x22#8 :: r := by
  induction fuel generalizing b s with
  | zero => simp [charsTok] at h
  | succ k ih =>
    cases b with
    | nil => simp [charsTok] at h
    | cons x b =>
      rw [charsTok] at h
      split at h
      · cases h; subst_vars; rfl
      · split at h
        · cases h
        · split at h
          · cases h
          · cases h
            rename_i hc _ _ hs
            rw [charTok_some hc, ih hs]; simp

theorem length_le_flatMap_esc (s : Bytes) : s.length ≤ (s.flatMap esc).length := by
  induction s with
  | nil => simp
  | cons c s ih =>
    obtain ⟨x, t, hx, -⟩ := esc_head c
    simp only [List.flatMap_cons, List.length_append, hx, List.length_cons]; omega

/-- The reader of a string token reads back what `StrT` writes, within the capacity (R91, R92). -/
theorem strTok_strT (cap : Nat) (s r : Bytes) (h : s.length ≤ cap) : strTok cap (strT s ++ r) = some (s, r) := by
  have hlen := length_le_flatMap_esc s
  have h1 : expect [0x22#8] (strT s ++ r) = some (s.flatMap esc ++ 0x22#8 :: r) := by
    simp [strT, expect]
  have h2 : charsTok (s.flatMap esc ++ 0x22#8 :: r).length (s.flatMap esc ++ 0x22#8 :: r) = some (s, r) :=
    charsTok_append s r _ (by simp only [List.length_append, List.length_cons]; omega)
  simp only [strTok, h1, h2, Option.bind_eq_bind, Option.bind_some, h, if_true]

/-- What the reader of a string token accepts, `StrT` writes, within the capacity. -/
theorem strTok_some {cap : Nat} {b s r : Bytes} (h : strTok cap b = some (s, r)) : b = strT s ++ r ∧ s.length ≤ cap := by
  simp only [strTok, Option.bind_eq_bind, Option.bind_eq_some_iff] at h
  obtain ⟨b1, hb1, ⟨s', r'⟩, hs, h⟩ := h
  split at h
  · rename_i hcap
    cases h
    rw [expect_some hb1, charsTok_some hs]
    exact ⟨by simp [strT], hcap⟩
  · cases h

/-! ### Numbers -/

theorem isDigit_decDigit (n : Nat) : isDigit (decDigit n) = true := by
  have : ∀ i : Fin 10, isDigit (decDigit i.1) = true := by decide
  have h := this ⟨n % 10, Nat.mod_lt _ (by omega)⟩
  simpa [decDigit] using h

theorem decDigit_value (n : Nat) : (decDigit n).toNat - 0x30 = n % 10 := by
  simp only [decDigit, BitVec.toNat_ofNat]; omega

theorem decAux_append (fuel n : Nat) (acc : Bytes) : decAux fuel n acc = decAux fuel n [] ++ acc := by
  induction fuel generalizing n acc with
  | zero => simp [decAux]
  | succ k ih =>
    simp only [decAux]
    split
    · simp
    · rw [ih, ih (acc := [decDigit n])]; simp

theorem digitsValue_append_one (ds : Bytes) (d : Byte) : digitsValue (ds ++ [d]) = 10 * digitsValue ds + (d.toNat - 0x30) := by
  simp [digitsValue]

theorem decAux_value (fuel n : Nat) (h : n < fuel) : digitsValue (decAux fuel n []) = n := by
  induction fuel generalizing n with
  | zero => omega
  | succ k ih =>
    simp only [decAux]
    split
    · have := digitsValue_append_one [] (decDigit n)
      simp only [List.nil_append] at this
      rw [this, decDigit_value]
      simp [digitsValue]; omega
    · rw [decAux_append, digitsValue_append_one, ih _ (by omega), decDigit_value]; omega

/-- The decimal text of a number has that value. -/
theorem digitsValue_dec (n : Nat) : digitsValue (dec n) = n := decAux_value _ _ (by omega)

theorem decAux_digits (fuel n : Nat) : ∀ d ∈ decAux fuel n [], isDigit d = true := by
  induction fuel generalizing n with
  | zero => simp [decAux]
  | succ k ih =>
    simp only [decAux]
    split
    · simp [isDigit_decDigit]
    · rw [decAux_append]
      intro d hd
      rcases List.mem_append.1 hd with hd | hd
      · exact ih _ d hd
      · simp only [List.mem_singleton] at hd; subst hd; exact isDigit_decDigit n

/-- The decimal text of a number is digits. -/
theorem dec_digits (n : Nat) : ∀ d ∈ dec n, isDigit d = true := decAux_digits _ _

theorem takeWhile_dec (n : Nat) (x : Byte) (r : Bytes) (h : isDigit x = false) :
    (dec n ++ x :: r).takeWhile isDigit = dec n := by
  rw [List.takeWhile_append_of_pos (dec_digits n)]
  simp [h]

/-- The reader of a number token reads back what `dec` writes, when no digit follows (R93). -/
theorem numTok_dec (bound n : Nat) (x : Byte) (r : Bytes) (h : n < bound) (hx : isDigit x = false) :
    numTok bound (dec n ++ x :: r) = some (n, x :: r) := by
  simp [numTok, takeWhile_dec n x r hx, digitsValue_dec, h]

/-- What the reader of a number token accepts, `dec` writes, below the bound. -/
theorem numTok_some {bound n : Nat} {b r : Bytes} (h : numTok bound b = some (n, r)) : b = dec n ++ r ∧ n < bound := by
  simp only [numTok] at h
  split at h
  · rename_i hn
    cases h
    refine ⟨?_, hn.2⟩
    rw [hn.1]
    exact (List.prefix_iff_eq_append.1 (List.takeWhile_prefix isDigit)).symm
  · cases h

/-! ### Literals -/

theorem boolTok_boolT (x : Bool) (r : Bytes) : boolTok (boolT x ++ r) = some (x, r) := by
  cases x
  · have h : expect (boolT true) (boolT false ++ r) = none := expect_cons_ne (by decide) _ _
    simp [boolTok, h]
  · simp [boolTok]

theorem boolTok_some {x : Bool} {b r : Bytes} (h : boolTok b = some (x, r)) : b = boolT x ++ r := by
  simp only [boolTok] at h
  split at h
  · cases h; exact expect_some ‹_›
  · simp only [Option.map_eq_some_iff, Prod.mk.injEq] at h
    obtain ⟨r', hr, rfl, rfl⟩ := h
    exact expect_some hr

theorem bitTok_bitT (x : SeqBit) (r : Bytes) : bitTok (bitT x ++ r) = some (x, r) := by
  have hx : x = 0#1 ∨ x = 1#1 := by revert x; decide
  rcases hx with rfl | rfl
  · simp [bitTok]
  · have h : expect (bitT 0#1) (bitT 1#1 ++ r) = none := expect_cons_ne (by decide) _ _
    simp [bitTok, h]

theorem bitTok_some {x : SeqBit} {b r : Bytes} (h : bitTok b = some (x, r)) : b = bitT x ++ r := by
  simp only [bitTok] at h
  split at h
  · cases h; exact expect_some ‹_›
  · simp only [Option.map_eq_some_iff, Prod.mk.injEq] at h
    obtain ⟨r', hr, rfl, rfl⟩ := h
    exact expect_some hr

/-! ### Structures (R95) -/

/-- The reader of a message reads back what `MsgT` writes. -/
theorem msgTok_msgT (m : Message) (h : m.wf = true) (r : Bytes) : msgTok (msgT m ++ r) = some (m, r) := by
  simp only [Message.wf, Bool.and_eq_true, decide_eq_true_eq] at h
  obtain ⟨⟨h1, h2⟩, h3⟩ := h
  have hn : numTok (2 ^ 64) (dec m.ts.toNat ++ (tType ++ (strT m.type ++ (tClose ++ r))))
      = some (m.ts.toNat, tType ++ (strT m.type ++ (tClose ++ r))) := numTok_dec _ _ _ _ m.ts.isLt (by decide)
  simp only [msgTok, msgT, List.append_assoc, expect_append, Option.bind_eq_bind, Option.bind_some, strTok_strT _ _ _ h2,
    strTok_strT _ _ _ h3, strTok_strT _ _ _ h1, hn]
  simp

/-- What the reader of a message accepts, `MsgT` writes, within the capacities. -/
theorem msgTok_some {b r : Bytes} {m : Message} (h : msgTok b = some (m, r)) : m.wf = true ∧ b = msgT m ++ r := by
  simp only [msgTok, Option.bind_eq_bind, Option.bind_eq_some_iff, Prod.exists] at h
  obtain ⟨b1, e1, s1, b2, e2, b3, e3, s2, b4, e4, b5, e5, n, b6, e6, b7, e7, s3, b8, e8, b9, e9, h⟩ := h
  cases h
  have := expect_some e1; have := strTok_some e2; have := expect_some e3; have := strTok_some e4
  have := expect_some e5; have := numTok_some e6; have := expect_some e7; have := strTok_some e8
  have := expect_some e9
  refine ⟨by simp [Message.wf, *], ?_⟩
  simp [msgT, *]; rw [Nat.mod_eq_of_lt (by omega)]

/-- The reader of a payload reads back what `PayT` writes. -/
theorem payTok_payT (p : Option Message) (h : p.all Message.wf = true) (r : Bytes) : payTok (payT p ++ r) = some (p, r) := by
  cases p with
  | none => simp [payTok, payT]
  | some m =>
    have h1 : expect tNull (payT (some m) ++ r) = none := expect_cons_ne (by decide) _ _
    simp only [payTok, h1]
    simp only [payT]; rw [msgTok_msgT m (by simpa using h)]; rfl

/-- What the reader of a payload accepts, `PayT` writes. -/
theorem payTok_some {b r : Bytes} {p : Option Message} (h : payTok b = some (p, r)) :
    p.all Message.wf = true ∧ b = payT p ++ r := by
  simp only [payTok] at h
  split at h
  · cases h; exact ⟨rfl, expect_some ‹_›⟩
  · simp only [Option.map_eq_some_iff, Prod.exists] at h
    obtain ⟨m, r', hm, h⟩ := h
    cases h
    exact msgTok_some hm

/-- The reader of a segment reads back what `SegT` writes. -/
theorem segTok_segT (s : Segment) (h : s.payload.all Message.wf = true) (r : Bytes) : segTok (segT s ++ r) = some (s, r) := by
  simp only [segTok, segT, List.append_assoc, expect_append, Option.bind_eq_bind, Option.bind_some, boolTok_boolT,
    payTok_payT _ h, bitTok_bitT]

/-- What the reader of a segment accepts, `SegT` writes. -/
theorem segTok_some {b r : Bytes} {s : Segment} (h : segTok b = some (s, r)) :
    s.payload.all Message.wf = true ∧ b = segT s ++ r := by
  simp only [segTok, Option.bind_eq_bind, Option.bind_eq_some_iff, Prod.exists] at h
  obtain ⟨b1, e1, s1, b2, e2, b3, e3, s2, b4, e4, b5, e5, n, b6, e6, b7, e7, h⟩ := h
  cases h
  have := expect_some e1; have := boolTok_some e2; have := expect_some e3; have := payTok_some e4
  have := expect_some e5; have := bitTok_some e6; have := expect_some e7
  refine ⟨(payTok_some e4).1, ?_⟩
  simp [segT, *]

/-- The reader of a packet reads back what `PktT` writes. -/
theorem pktTok_pktT (k : Packet) (h : k.wf = true) (r : Bytes) : pktTok (pktT k ++ r) = some (k, r) := by
  simp only [Packet.wf, Bool.and_eq_true, decide_eq_true_eq] at h
  obtain ⟨⟨h1, h2⟩, h3⟩ := h
  have hn : numTok (2 ^ 32) (dec k.ttl.toNat ++ (tClose ++ r)) = some (k.ttl.toNat, tClose ++ r) :=
    numTok_dec _ _ _ _ k.ttl.isLt (by decide)
  simp only [pktTok, pktT, List.append_assoc, expect_append, Option.bind_eq_bind, Option.bind_some, strTok_strT _ _ _ h1,
    strTok_strT _ _ _ h2, segTok_segT _ h3, hn]
  simp

/-- What the reader of a packet accepts, `PktT` writes, within the capacities. -/
theorem pktTok_some {b r : Bytes} {k : Packet} (h : pktTok b = some (k, r)) : k.wf = true ∧ b = pktT k ++ r := by
  simp only [pktTok, Option.bind_eq_bind, Option.bind_eq_some_iff, Prod.exists] at h
  obtain ⟨b1, e1, s1, b2, e2, b3, e3, s2, b4, e4, b5, e5, s3, b6, e6, b7, e7, n, b8, e8, b9, e9, h⟩ := h
  cases h
  have := expect_some e1; have := segTok_some e2; have := expect_some e3; have := strTok_some e4
  have := expect_some e5; have := strTok_some e6; have := expect_some e7; have := numTok_some e8
  have := expect_some e9
  refine ⟨by simp [Packet.wf, *], ?_⟩
  simp [pktT, *]; rw [Nat.mod_eq_of_lt (by omega)]

/-! ### Lengths (R100) -/

theorem decAux_length (fuel n k : Nat) (h : n < 10 ^ k) (hk : 0 < k) : (decAux fuel n []).length ≤ k := by
  induction fuel generalizing n k with
  | zero => simp [decAux]
  | succ q ih =>
    simp only [decAux]
    split
    · simp; omega
    · rw [decAux_append]
      obtain ⟨j, rfl⟩ : ∃ j, k = j + 1 := ⟨k - 1, by omega⟩
      have hj : 0 < j := by
        rcases Nat.eq_zero_or_pos j with rfl | h2
        · simp at h; omega
        · exact h2
      have := ih (n / 10) j (by rw [Nat.pow_succ] at h; omega) hj
      simp; omega

theorem decAux_pos (fuel n : Nat) (h : 0 < fuel) : 0 < (decAux fuel n []).length := by
  obtain ⟨j, rfl⟩ : ∃ j, fuel = j + 1 := ⟨fuel - 1, by omega⟩
  simp only [decAux]
  split
  · simp
  · rw [decAux_append]; simp

/-- A number below `10^k` has at most `k` digits, and at least one. -/
theorem dec_length {n k : Nat} (h : n < 10 ^ k) (hk : 0 < k) : 0 < (dec n).length ∧ (dec n).length ≤ k :=
  ⟨decAux_pos _ _ (by omega), decAux_length _ _ _ h hk⟩

theorem esc_length (c : Byte) : (esc c).length ≤ 6 := by unfold esc; split_ifs <;> simp

/-- A string token is two quotes and one to six bytes for each byte of the string (R92). -/
theorem strT_length (s : Bytes) : 2 + s.length ≤ (strT s).length ∧ (strT s).length ≤ 2 + 6 * s.length := by
  have h1 := length_le_flatMap_esc s
  have h2 : (s.flatMap esc).length ≤ 6 * s.length := by
    induction s with
    | nil => simp
    | cons c s ih =>
      have := esc_length c
      have := ih (length_le_flatMap_esc s)
      simp only [List.flatMap_cons, List.length_append, List.length_cons]; omega
  simp only [strT, List.length_cons, List.length_append, List.length_nil]; omega

end Sys2Proof.Machine
end

