-- ==== Sys2Proof/Laws/State.lean ====
section
/-! SUPPORT. What each named update of the state does to each field: one lemma per field per update, true by rfl, so that a
proof need not unfold a record update. -/

namespace Sys2Proof.Machine

/-! ### `State.irq` -/

@[simp] theorem State.irq_rxEn (s : State) (b : IrqBit) : (s.irq b).rxEn = s.rxEn := rfl
@[simp] theorem State.irq_result (s : State) (b : IrqBit) : (s.irq b).result = s.result := rfl
@[simp] theorem State.irq_irqPend (s : State) (b : IrqBit) : (s.irq b).irqPend = s.irqPend ||| b.mask := rfl
@[simp] theorem State.irq_irqEn (s : State) (b : IrqBit) : (s.irq b).irqEn = s.irqEn := rfl
@[simp] theorem State.irq_cfg (s : State) (b : IrqBit) : (s.irq b).cfg = s.cfg := rfl
@[simp] theorem State.irq_crcOut (s : State) (b : IrqBit) : (s.irq b).crcOut = s.crcOut := rfl
@[simp] theorem State.irq_ws (s : State) (b : IrqBit) : (s.irq b).ws = s.ws := rfl
@[simp] theorem State.irq_txm (s : State) (b : IrqBit) : (s.irq b).txm = s.txm := rfl
@[simp] theorem State.irq_rxm (s : State) (b : IrqBit) : (s.irq b).rxm = s.rxm := rfl
@[simp] theorem State.irq_cnt (s : State) (b : IrqBit) : (s.irq b).cnt = s.cnt := rfl
@[simp] theorem State.irq_dropCause (s : State) (b : IrqBit) : (s.irq b).dropCause = s.dropCause := rfl
@[simp] theorem State.irq_lram (s : State) (b : IrqBit) : (s.irq b).lram = s.lram := rfl
@[simp] theorem State.irq_arq (s : State) (b : IrqBit) : (s.irq b).arq = s.arq := rfl
@[simp] theorem State.irq_rx (s : State) (b : IrqBit) : (s.irq b).rx = s.rx := rfl
@[simp] theorem State.irq_inj (s : State) (b : IrqBit) : (s.irq b).inj = s.inj := rfl
@[simp] theorem State.irq_cmd (s : State) (b : IrqBit) : (s.irq b).cmd = s.cmd := rfl
@[simp] theorem State.irq_resetHeld (s : State) (b : IrqBit) : (s.irq b).resetHeld = s.resetHeld := rfl
@[simp] theorem State.irq_bus (s : State) (b : IrqBit) : (s.irq b).bus = s.bus := rfl
@[simp] theorem State.irq_net (s : State) (b : IrqBit) : (s.irq b).net = s.net := rfl
@[simp] theorem State.irq_turns (s : State) (b : IrqBit) : (s.irq b).turns = s.turns := rfl
@[simp] theorem State.irq_turnCount (s : State) (b : IrqBit) : (s.irq b).turnCount = s.turnCount := rfl

/-! ### `State.bump` -/

@[simp] theorem State.bump_rxEn (s : State) (c : Counter) : (s.bump c).rxEn = s.rxEn := rfl
@[simp] theorem State.bump_result (s : State) (c : Counter) : (s.bump c).result = s.result := rfl
@[simp] theorem State.bump_irqPend (s : State) (c : Counter) : (s.bump c).irqPend = s.irqPend := rfl
@[simp] theorem State.bump_irqEn (s : State) (c : Counter) : (s.bump c).irqEn = s.irqEn := rfl
@[simp] theorem State.bump_cfg (s : State) (c : Counter) : (s.bump c).cfg = s.cfg := rfl
@[simp] theorem State.bump_crcOut (s : State) (c : Counter) : (s.bump c).crcOut = s.crcOut := rfl
@[simp] theorem State.bump_ws (s : State) (c : Counter) : (s.bump c).ws = s.ws := rfl
@[simp] theorem State.bump_txm (s : State) (c : Counter) : (s.bump c).txm = s.txm := rfl
@[simp] theorem State.bump_rxm (s : State) (c : Counter) : (s.bump c).rxm = s.rxm := rfl
@[simp] theorem State.bump_cnt (s : State) (c : Counter) : (s.bump c).cnt = s.cnt.bump c := rfl
@[simp] theorem State.bump_dropCause (s : State) (c : Counter) : (s.bump c).dropCause = s.dropCause := rfl
@[simp] theorem State.bump_lram (s : State) (c : Counter) : (s.bump c).lram = s.lram := rfl
@[simp] theorem State.bump_arq (s : State) (c : Counter) : (s.bump c).arq = s.arq := rfl
@[simp] theorem State.bump_rx (s : State) (c : Counter) : (s.bump c).rx = s.rx := rfl
@[simp] theorem State.bump_inj (s : State) (c : Counter) : (s.bump c).inj = s.inj := rfl
@[simp] theorem State.bump_cmd (s : State) (c : Counter) : (s.bump c).cmd = s.cmd := rfl
@[simp] theorem State.bump_resetHeld (s : State) (c : Counter) : (s.bump c).resetHeld = s.resetHeld := rfl
@[simp] theorem State.bump_bus (s : State) (c : Counter) : (s.bump c).bus = s.bus := rfl
@[simp] theorem State.bump_net (s : State) (c : Counter) : (s.bump c).net = s.net := rfl
@[simp] theorem State.bump_turns (s : State) (c : Counter) : (s.bump c).turns = s.turns := rfl
@[simp] theorem State.bump_turnCount (s : State) (c : Counter) : (s.bump c).turnCount = s.turnCount := rfl

/-! ### `State.drop` -/

@[simp] theorem State.drop_rxEn (s : State) (d : DropCause) : (s.drop d).rxEn = s.rxEn := rfl
@[simp] theorem State.drop_result (s : State) (d : DropCause) : (s.drop d).result = s.result := rfl
@[simp] theorem State.drop_irqPend (s : State) (d : DropCause) : (s.drop d).irqPend = s.irqPend := rfl
@[simp] theorem State.drop_irqEn (s : State) (d : DropCause) : (s.drop d).irqEn = s.irqEn := rfl
@[simp] theorem State.drop_cfg (s : State) (d : DropCause) : (s.drop d).cfg = s.cfg := rfl
@[simp] theorem State.drop_crcOut (s : State) (d : DropCause) : (s.drop d).crcOut = s.crcOut := rfl
@[simp] theorem State.drop_ws (s : State) (d : DropCause) : (s.drop d).ws = s.ws := rfl
@[simp] theorem State.drop_txm (s : State) (d : DropCause) : (s.drop d).txm = s.txm := rfl
@[simp] theorem State.drop_rxm (s : State) (d : DropCause) : (s.drop d).rxm = s.rxm := rfl
@[simp] theorem State.drop_cnt (s : State) (d : DropCause) : (s.drop d).cnt = s.cnt := rfl
@[simp] theorem State.drop_dropCause (s : State) (d : DropCause) : (s.drop d).dropCause = d := rfl
@[simp] theorem State.drop_lram (s : State) (d : DropCause) : (s.drop d).lram = s.lram := rfl
@[simp] theorem State.drop_arq (s : State) (d : DropCause) : (s.drop d).arq = s.arq := rfl
@[simp] theorem State.drop_rx (s : State) (d : DropCause) : (s.drop d).rx = s.rx := rfl
@[simp] theorem State.drop_inj (s : State) (d : DropCause) : (s.drop d).inj = s.inj := rfl
@[simp] theorem State.drop_cmd (s : State) (d : DropCause) : (s.drop d).cmd = s.cmd := rfl
@[simp] theorem State.drop_resetHeld (s : State) (d : DropCause) : (s.drop d).resetHeld = s.resetHeld := rfl
@[simp] theorem State.drop_bus (s : State) (d : DropCause) : (s.drop d).bus = s.bus := rfl
@[simp] theorem State.drop_net (s : State) (d : DropCause) : (s.drop d).net = s.net := rfl
@[simp] theorem State.drop_turns (s : State) (d : DropCause) : (s.drop d).turns = s.turns := rfl
@[simp] theorem State.drop_turnCount (s : State) (d : DropCause) : (s.drop d).turnCount = s.turnCount := rfl

/-! ### `State.withLram` -/

@[simp] theorem State.withLram_rxEn (s : State) (m : Memory) : (s.withLram m).rxEn = s.rxEn := rfl
@[simp] theorem State.withLram_result (s : State) (m : Memory) : (s.withLram m).result = s.result := rfl
@[simp] theorem State.withLram_irqPend (s : State) (m : Memory) : (s.withLram m).irqPend = s.irqPend := rfl
@[simp] theorem State.withLram_irqEn (s : State) (m : Memory) : (s.withLram m).irqEn = s.irqEn := rfl
@[simp] theorem State.withLram_cfg (s : State) (m : Memory) : (s.withLram m).cfg = s.cfg := rfl
@[simp] theorem State.withLram_crcOut (s : State) (m : Memory) : (s.withLram m).crcOut = s.crcOut := rfl
@[simp] theorem State.withLram_ws (s : State) (m : Memory) : (s.withLram m).ws = s.ws := rfl
@[simp] theorem State.withLram_txm (s : State) (m : Memory) : (s.withLram m).txm = s.txm := rfl
@[simp] theorem State.withLram_rxm (s : State) (m : Memory) : (s.withLram m).rxm = s.rxm := rfl
@[simp] theorem State.withLram_cnt (s : State) (m : Memory) : (s.withLram m).cnt = s.cnt := rfl
@[simp] theorem State.withLram_dropCause (s : State) (m : Memory) : (s.withLram m).dropCause = s.dropCause := rfl
@[simp] theorem State.withLram_lram (s : State) (m : Memory) : (s.withLram m).lram = m := rfl
@[simp] theorem State.withLram_arq (s : State) (m : Memory) : (s.withLram m).arq = s.arq := rfl
@[simp] theorem State.withLram_rx (s : State) (m : Memory) : (s.withLram m).rx = s.rx := rfl
@[simp] theorem State.withLram_inj (s : State) (m : Memory) : (s.withLram m).inj = s.inj := rfl
@[simp] theorem State.withLram_cmd (s : State) (m : Memory) : (s.withLram m).cmd = s.cmd := rfl
@[simp] theorem State.withLram_resetHeld (s : State) (m : Memory) : (s.withLram m).resetHeld = s.resetHeld := rfl
@[simp] theorem State.withLram_bus (s : State) (m : Memory) : (s.withLram m).bus = s.bus := rfl
@[simp] theorem State.withLram_net (s : State) (m : Memory) : (s.withLram m).net = s.net := rfl
@[simp] theorem State.withLram_turns (s : State) (m : Memory) : (s.withLram m).turns = s.turns := rfl
@[simp] theorem State.withLram_turnCount (s : State) (m : Memory) : (s.withLram m).turnCount = s.turnCount := rfl

/-! ### `State.writeSlot` -/

@[simp] theorem State.writeSlot_rxEn (s : State) (sl : Slot) (x : Bytes) : (s.writeSlot sl x).rxEn = s.rxEn := rfl
@[simp] theorem State.writeSlot_result (s : State) (sl : Slot) (x : Bytes) : (s.writeSlot sl x).result = s.result := rfl
@[simp] theorem State.writeSlot_irqPend (s : State) (sl : Slot) (x : Bytes) : (s.writeSlot sl x).irqPend = s.irqPend := rfl
@[simp] theorem State.writeSlot_irqEn (s : State) (sl : Slot) (x : Bytes) : (s.writeSlot sl x).irqEn = s.irqEn := rfl
@[simp] theorem State.writeSlot_cfg (s : State) (sl : Slot) (x : Bytes) : (s.writeSlot sl x).cfg = s.cfg := rfl
@[simp] theorem State.writeSlot_crcOut (s : State) (sl : Slot) (x : Bytes) : (s.writeSlot sl x).crcOut = s.crcOut := rfl
@[simp] theorem State.writeSlot_ws (s : State) (sl : Slot) (x : Bytes) : (s.writeSlot sl x).ws = s.ws := rfl
@[simp] theorem State.writeSlot_txm (s : State) (sl : Slot) (x : Bytes) : (s.writeSlot sl x).txm = s.txm := rfl
@[simp] theorem State.writeSlot_rxm (s : State) (sl : Slot) (x : Bytes) : (s.writeSlot sl x).rxm = s.rxm := rfl
@[simp] theorem State.writeSlot_cnt (s : State) (sl : Slot) (x : Bytes) : (s.writeSlot sl x).cnt = s.cnt := rfl
@[simp] theorem State.writeSlot_dropCause (s : State) (sl : Slot) (x : Bytes) : (s.writeSlot sl x).dropCause = s.dropCause := rfl
@[simp] theorem State.writeSlot_lram (s : State) (sl : Slot) (x : Bytes) : (s.writeSlot sl x).lram = s.lram.slotWrite sl x := rfl
@[simp] theorem State.writeSlot_arq (s : State) (sl : Slot) (x : Bytes) : (s.writeSlot sl x).arq = s.arq := rfl
@[simp] theorem State.writeSlot_rx (s : State) (sl : Slot) (x : Bytes) : (s.writeSlot sl x).rx = s.rx := rfl
@[simp] theorem State.writeSlot_inj (s : State) (sl : Slot) (x : Bytes) : (s.writeSlot sl x).inj = s.inj := rfl
@[simp] theorem State.writeSlot_cmd (s : State) (sl : Slot) (x : Bytes) : (s.writeSlot sl x).cmd = s.cmd := rfl
@[simp] theorem State.writeSlot_resetHeld (s : State) (sl : Slot) (x : Bytes) : (s.writeSlot sl x).resetHeld = s.resetHeld := rfl
@[simp] theorem State.writeSlot_bus (s : State) (sl : Slot) (x : Bytes) : (s.writeSlot sl x).bus = s.bus := rfl
@[simp] theorem State.writeSlot_net (s : State) (sl : Slot) (x : Bytes) : (s.writeSlot sl x).net = s.net := rfl
@[simp] theorem State.writeSlot_turns (s : State) (sl : Slot) (x : Bytes) : (s.writeSlot sl x).turns = s.turns := rfl
@[simp] theorem State.writeSlot_turnCount (s : State) (sl : Slot) (x : Bytes) : (s.writeSlot sl x).turnCount = s.turnCount := rfl

/-! ### `State.finish` -/

@[simp] theorem State.finish_rxEn (s : State) (r : CmdResult) : (s.finish r).rxEn = s.rxEn := rfl
@[simp] theorem State.finish_result (s : State) (r : CmdResult) : (s.finish r).result = r := rfl
@[simp] theorem State.finish_irqPend (s : State) (r : CmdResult) : (s.finish r).irqPend = s.irqPend ||| IrqBit.cmdDone.mask := rfl
@[simp] theorem State.finish_irqEn (s : State) (r : CmdResult) : (s.finish r).irqEn = s.irqEn := rfl
@[simp] theorem State.finish_cfg (s : State) (r : CmdResult) : (s.finish r).cfg = s.cfg := rfl
@[simp] theorem State.finish_crcOut (s : State) (r : CmdResult) : (s.finish r).crcOut = s.crcOut := rfl
@[simp] theorem State.finish_ws (s : State) (r : CmdResult) : (s.finish r).ws = s.ws := rfl
@[simp] theorem State.finish_txm (s : State) (r : CmdResult) : (s.finish r).txm = s.txm := rfl
@[simp] theorem State.finish_rxm (s : State) (r : CmdResult) : (s.finish r).rxm = s.rxm := rfl
@[simp] theorem State.finish_cnt (s : State) (r : CmdResult) : (s.finish r).cnt = s.cnt := rfl
@[simp] theorem State.finish_dropCause (s : State) (r : CmdResult) : (s.finish r).dropCause = s.dropCause := rfl
@[simp] theorem State.finish_lram (s : State) (r : CmdResult) : (s.finish r).lram = s.lram := rfl
@[simp] theorem State.finish_arq (s : State) (r : CmdResult) : (s.finish r).arq = s.arq := rfl
@[simp] theorem State.finish_rx (s : State) (r : CmdResult) : (s.finish r).rx = s.rx := rfl
@[simp] theorem State.finish_inj (s : State) (r : CmdResult) : (s.finish r).inj = s.inj := rfl
@[simp] theorem State.finish_cmd (s : State) (r : CmdResult) : (s.finish r).cmd = { s.cmd with phase := .idle } := rfl
@[simp] theorem State.finish_resetHeld (s : State) (r : CmdResult) : (s.finish r).resetHeld = s.resetHeld := rfl
@[simp] theorem State.finish_bus (s : State) (r : CmdResult) : (s.finish r).bus = s.bus := rfl
@[simp] theorem State.finish_net (s : State) (r : CmdResult) : (s.finish r).net = s.net := rfl
@[simp] theorem State.finish_turns (s : State) (r : CmdResult) : (s.finish r).turns = s.turns := rfl
@[simp] theorem State.finish_turnCount (s : State) (r : CmdResult) : (s.finish r).turnCount = s.turnCount := rfl

/-! ### `State.finishOk` -/

@[simp] theorem State.finishOk_rxEn (s : State) (o : BitVec 8) : (s.finishOk o).rxEn = s.rxEn := rfl
@[simp] theorem State.finishOk_result (s : State) (o : BitVec 8) : (s.finishOk o).result = { code := .ok, flag := false, parseOk := false, opc := o } := rfl
@[simp] theorem State.finishOk_irqPend (s : State) (o : BitVec 8) : (s.finishOk o).irqPend = s.irqPend ||| IrqBit.cmdDone.mask := rfl
@[simp] theorem State.finishOk_irqEn (s : State) (o : BitVec 8) : (s.finishOk o).irqEn = s.irqEn := rfl
@[simp] theorem State.finishOk_cfg (s : State) (o : BitVec 8) : (s.finishOk o).cfg = s.cfg := rfl
@[simp] theorem State.finishOk_crcOut (s : State) (o : BitVec 8) : (s.finishOk o).crcOut = s.crcOut := rfl
@[simp] theorem State.finishOk_ws (s : State) (o : BitVec 8) : (s.finishOk o).ws = s.ws := rfl
@[simp] theorem State.finishOk_txm (s : State) (o : BitVec 8) : (s.finishOk o).txm = s.txm := rfl
@[simp] theorem State.finishOk_rxm (s : State) (o : BitVec 8) : (s.finishOk o).rxm = s.rxm := rfl
@[simp] theorem State.finishOk_cnt (s : State) (o : BitVec 8) : (s.finishOk o).cnt = s.cnt := rfl
@[simp] theorem State.finishOk_dropCause (s : State) (o : BitVec 8) : (s.finishOk o).dropCause = s.dropCause := rfl
@[simp] theorem State.finishOk_lram (s : State) (o : BitVec 8) : (s.finishOk o).lram = s.lram := rfl
@[simp] theorem State.finishOk_arq (s : State) (o : BitVec 8) : (s.finishOk o).arq = s.arq := rfl
@[simp] theorem State.finishOk_rx (s : State) (o : BitVec 8) : (s.finishOk o).rx = s.rx := rfl
@[simp] theorem State.finishOk_inj (s : State) (o : BitVec 8) : (s.finishOk o).inj = s.inj := rfl
@[simp] theorem State.finishOk_cmd (s : State) (o : BitVec 8) : (s.finishOk o).cmd = { s.cmd with phase := .idle } := rfl
@[simp] theorem State.finishOk_resetHeld (s : State) (o : BitVec 8) : (s.finishOk o).resetHeld = s.resetHeld := rfl
@[simp] theorem State.finishOk_bus (s : State) (o : BitVec 8) : (s.finishOk o).bus = s.bus := rfl
@[simp] theorem State.finishOk_net (s : State) (o : BitVec 8) : (s.finishOk o).net = s.net := rfl
@[simp] theorem State.finishOk_turns (s : State) (o : BitVec 8) : (s.finishOk o).turns = s.turns := rfl
@[simp] theorem State.finishOk_turnCount (s : State) (o : BitVec 8) : (s.finishOk o).turnCount = s.turnCount := rfl

/-! ### `State.raiseResult` -/

@[simp] theorem State.raiseResult_rxEn (s : State) (c : ResultCode) : (s.raiseResult c).rxEn = s.rxEn := rfl
@[simp] theorem State.raiseResult_result (s : State) (c : ResultCode) : (s.raiseResult c).result = { code := c, flag := false, parseOk := false, opc := s.cmd.opc } := rfl
@[simp] theorem State.raiseResult_irqPend (s : State) (c : ResultCode) : (s.raiseResult c).irqPend = s.irqPend ||| IrqBit.cmdDone.mask := rfl
@[simp] theorem State.raiseResult_irqEn (s : State) (c : ResultCode) : (s.raiseResult c).irqEn = s.irqEn := rfl
@[simp] theorem State.raiseResult_cfg (s : State) (c : ResultCode) : (s.raiseResult c).cfg = s.cfg := rfl
@[simp] theorem State.raiseResult_crcOut (s : State) (c : ResultCode) : (s.raiseResult c).crcOut = s.crcOut := rfl
@[simp] theorem State.raiseResult_ws (s : State) (c : ResultCode) : (s.raiseResult c).ws = s.ws := rfl
@[simp] theorem State.raiseResult_txm (s : State) (c : ResultCode) : (s.raiseResult c).txm = s.txm := rfl
@[simp] theorem State.raiseResult_rxm (s : State) (c : ResultCode) : (s.raiseResult c).rxm = s.rxm := rfl
@[simp] theorem State.raiseResult_cnt (s : State) (c : ResultCode) : (s.raiseResult c).cnt = s.cnt := rfl
@[simp] theorem State.raiseResult_dropCause (s : State) (c : ResultCode) : (s.raiseResult c).dropCause = s.dropCause := rfl
@[simp] theorem State.raiseResult_lram (s : State) (c : ResultCode) : (s.raiseResult c).lram = s.lram := rfl
@[simp] theorem State.raiseResult_arq (s : State) (c : ResultCode) : (s.raiseResult c).arq = s.arq := rfl
@[simp] theorem State.raiseResult_rx (s : State) (c : ResultCode) : (s.raiseResult c).rx = s.rx := rfl
@[simp] theorem State.raiseResult_inj (s : State) (c : ResultCode) : (s.raiseResult c).inj = s.inj := rfl
@[simp] theorem State.raiseResult_cmd (s : State) (c : ResultCode) : (s.raiseResult c).cmd = { s.cmd with phase := .idle } := rfl
@[simp] theorem State.raiseResult_resetHeld (s : State) (c : ResultCode) : (s.raiseResult c).resetHeld = s.resetHeld := rfl
@[simp] theorem State.raiseResult_bus (s : State) (c : ResultCode) : (s.raiseResult c).bus = s.bus := rfl
@[simp] theorem State.raiseResult_net (s : State) (c : ResultCode) : (s.raiseResult c).net = s.net := rfl
@[simp] theorem State.raiseResult_turns (s : State) (c : ResultCode) : (s.raiseResult c).turns = s.turns := rfl
@[simp] theorem State.raiseResult_turnCount (s : State) (c : ResultCode) : (s.raiseResult c).turnCount = s.turnCount := rfl

/-! ### `State.enqueue` -/

@[simp] theorem State.enqueue_rxEn (s : State) (b : Bytes) (t : RequestTag) : (s.enqueue b t).rxEn = s.rxEn := rfl
@[simp] theorem State.enqueue_result (s : State) (b : Bytes) (t : RequestTag) : (s.enqueue b t).result = s.result := rfl
@[simp] theorem State.enqueue_irqPend (s : State) (b : Bytes) (t : RequestTag) : (s.enqueue b t).irqPend = s.irqPend := rfl
@[simp] theorem State.enqueue_irqEn (s : State) (b : Bytes) (t : RequestTag) : (s.enqueue b t).irqEn = s.irqEn := rfl
@[simp] theorem State.enqueue_cfg (s : State) (b : Bytes) (t : RequestTag) : (s.enqueue b t).cfg = s.cfg := rfl
@[simp] theorem State.enqueue_crcOut (s : State) (b : Bytes) (t : RequestTag) : (s.enqueue b t).crcOut = s.crcOut := rfl
@[simp] theorem State.enqueue_ws (s : State) (b : Bytes) (t : RequestTag) : (s.enqueue b t).ws = s.ws := rfl
@[simp] theorem State.enqueue_txm (s : State) (b : Bytes) (t : RequestTag) : (s.enqueue b t).txm = s.txm := rfl
@[simp] theorem State.enqueue_rxm (s : State) (b : Bytes) (t : RequestTag) : (s.enqueue b t).rxm = s.rxm := rfl
@[simp] theorem State.enqueue_cnt (s : State) (b : Bytes) (t : RequestTag) : (s.enqueue b t).cnt = s.cnt := rfl
@[simp] theorem State.enqueue_dropCause (s : State) (b : Bytes) (t : RequestTag) : (s.enqueue b t).dropCause = s.dropCause := rfl
@[simp] theorem State.enqueue_lram (s : State) (b : Bytes) (t : RequestTag) : (s.enqueue b t).lram = s.lram := rfl
@[simp] theorem State.enqueue_arq (s : State) (b : Bytes) (t : RequestTag) : (s.enqueue b t).arq = s.arq := rfl
@[simp] theorem State.enqueue_rx (s : State) (b : Bytes) (t : RequestTag) : (s.enqueue b t).rx = s.rx := rfl
@[simp] theorem State.enqueue_inj (s : State) (b : Bytes) (t : RequestTag) : (s.enqueue b t).inj = { s.inj with txq := s.inj.txq ++ [{ bytes := b, dst := s.nextHop, tag := t }] } := rfl
@[simp] theorem State.enqueue_cmd (s : State) (b : Bytes) (t : RequestTag) : (s.enqueue b t).cmd = s.cmd := rfl
@[simp] theorem State.enqueue_resetHeld (s : State) (b : Bytes) (t : RequestTag) : (s.enqueue b t).resetHeld = s.resetHeld := rfl
@[simp] theorem State.enqueue_bus (s : State) (b : Bytes) (t : RequestTag) : (s.enqueue b t).bus = s.bus := rfl
@[simp] theorem State.enqueue_net (s : State) (b : Bytes) (t : RequestTag) : (s.enqueue b t).net = s.net := rfl
@[simp] theorem State.enqueue_turns (s : State) (b : Bytes) (t : RequestTag) : (s.enqueue b t).turns = s.turns := rfl
@[simp] theorem State.enqueue_turnCount (s : State) (b : Bytes) (t : RequestTag) : (s.enqueue b t).turnCount = s.turnCount := rfl

/-! ### `State.withNet` -/

@[simp] theorem State.withNet_rxEn (s : State) (n : Net) : (s.withNet n).rxEn = s.rxEn := rfl
@[simp] theorem State.withNet_result (s : State) (n : Net) : (s.withNet n).result = s.result := rfl
@[simp] theorem State.withNet_irqPend (s : State) (n : Net) : (s.withNet n).irqPend = s.irqPend := rfl
@[simp] theorem State.withNet_irqEn (s : State) (n : Net) : (s.withNet n).irqEn = s.irqEn := rfl
@[simp] theorem State.withNet_cfg (s : State) (n : Net) : (s.withNet n).cfg = s.cfg := rfl
@[simp] theorem State.withNet_crcOut (s : State) (n : Net) : (s.withNet n).crcOut = s.crcOut := rfl
@[simp] theorem State.withNet_ws (s : State) (n : Net) : (s.withNet n).ws = s.ws := rfl
@[simp] theorem State.withNet_txm (s : State) (n : Net) : (s.withNet n).txm = s.txm := rfl
@[simp] theorem State.withNet_rxm (s : State) (n : Net) : (s.withNet n).rxm = s.rxm := rfl
@[simp] theorem State.withNet_cnt (s : State) (n : Net) : (s.withNet n).cnt = s.cnt := rfl
@[simp] theorem State.withNet_dropCause (s : State) (n : Net) : (s.withNet n).dropCause = s.dropCause := rfl
@[simp] theorem State.withNet_lram (s : State) (n : Net) : (s.withNet n).lram = s.lram := rfl
@[simp] theorem State.withNet_arq (s : State) (n : Net) : (s.withNet n).arq = s.arq := rfl
@[simp] theorem State.withNet_rx (s : State) (n : Net) : (s.withNet n).rx = s.rx := rfl
@[simp] theorem State.withNet_inj (s : State) (n : Net) : (s.withNet n).inj = s.inj := rfl
@[simp] theorem State.withNet_cmd (s : State) (n : Net) : (s.withNet n).cmd = s.cmd := rfl
@[simp] theorem State.withNet_resetHeld (s : State) (n : Net) : (s.withNet n).resetHeld = s.resetHeld := rfl
@[simp] theorem State.withNet_bus (s : State) (n : Net) : (s.withNet n).bus = s.bus := rfl
@[simp] theorem State.withNet_net (s : State) (n : Net) : (s.withNet n).net = n := rfl
@[simp] theorem State.withNet_turns (s : State) (n : Net) : (s.withNet n).turns = s.turns := rfl
@[simp] theorem State.withNet_turnCount (s : State) (n : Net) : (s.withNet n).turnCount = s.turnCount := rfl

/-! ### `State.withChannel` -/

@[simp] theorem State.withChannel_rxEn (s : State) (p : ChannelParams) : (s.withChannel p).rxEn = s.rxEn := rfl
@[simp] theorem State.withChannel_result (s : State) (p : ChannelParams) : (s.withChannel p).result = s.result := rfl
@[simp] theorem State.withChannel_irqPend (s : State) (p : ChannelParams) : (s.withChannel p).irqPend = s.irqPend := rfl
@[simp] theorem State.withChannel_irqEn (s : State) (p : ChannelParams) : (s.withChannel p).irqEn = s.irqEn := rfl
@[simp] theorem State.withChannel_cfg (s : State) (p : ChannelParams) : (s.withChannel p).cfg = { s.cfg with channel := p } := rfl
@[simp] theorem State.withChannel_crcOut (s : State) (p : ChannelParams) : (s.withChannel p).crcOut = s.crcOut := rfl
@[simp] theorem State.withChannel_ws (s : State) (p : ChannelParams) : (s.withChannel p).ws = s.ws := rfl
@[simp] theorem State.withChannel_txm (s : State) (p : ChannelParams) : (s.withChannel p).txm = s.txm := rfl
@[simp] theorem State.withChannel_rxm (s : State) (p : ChannelParams) : (s.withChannel p).rxm = s.rxm := rfl
@[simp] theorem State.withChannel_cnt (s : State) (p : ChannelParams) : (s.withChannel p).cnt = s.cnt := rfl
@[simp] theorem State.withChannel_dropCause (s : State) (p : ChannelParams) : (s.withChannel p).dropCause = s.dropCause := rfl
@[simp] theorem State.withChannel_lram (s : State) (p : ChannelParams) : (s.withChannel p).lram = s.lram := rfl
@[simp] theorem State.withChannel_arq (s : State) (p : ChannelParams) : (s.withChannel p).arq = s.arq := rfl
@[simp] theorem State.withChannel_rx (s : State) (p : ChannelParams) : (s.withChannel p).rx = s.rx := rfl
@[simp] theorem State.withChannel_inj (s : State) (p : ChannelParams) : (s.withChannel p).inj = s.inj := rfl
@[simp] theorem State.withChannel_cmd (s : State) (p : ChannelParams) : (s.withChannel p).cmd = s.cmd := rfl
@[simp] theorem State.withChannel_resetHeld (s : State) (p : ChannelParams) : (s.withChannel p).resetHeld = s.resetHeld := rfl
@[simp] theorem State.withChannel_bus (s : State) (p : ChannelParams) : (s.withChannel p).bus = s.bus := rfl
@[simp] theorem State.withChannel_net (s : State) (p : ChannelParams) : (s.withChannel p).net = s.net := rfl
@[simp] theorem State.withChannel_turns (s : State) (p : ChannelParams) : (s.withChannel p).turns = s.turns := rfl
@[simp] theorem State.withChannel_turnCount (s : State) (p : ChannelParams) : (s.withChannel p).turnCount = s.turnCount := rfl

/-! ### Enumerated values -/

/-- A counter's increment is seen by that counter alone. -/
theorem Counters.get_bump (c : Counters) (i j : Counter) :
    (c.bump i).get j = if i = j then c.get j + 1#32 else c.get j := by
  cases i <;> cases j <;> rfl

@[simp] theorem Counters.get_bump_self (c : Counters) (i : Counter) : (c.bump i).get i = c.get i + 1#32 := by
  simp [Counters.get_bump]

theorem Counters.get_bump_ne (c : Counters) {i j : Counter} (h : i ≠ j) : (c.bump i).get j = c.get j := by
  simp [Counters.get_bump, h]

/-- How a command's execute step can end (R163). -/
theorem State.endCommand_cases (s : State) (x : Except CmdStop State) :
    (∃ t, x = .ok t ∧ s.endCommand x = .next t)
      ∨ (∃ c, x = .error (.result c) ∧ s.endCommand x = .next (s.raiseResult c))
      ∨ (∃ f, x = .error (.fault f) ∧ s.endCommand x = .fault f) := by
  rcases x with (_ | _) | t
  · exact .inr (.inl ⟨_, rfl, rfl⟩)
  · exact .inr (.inr ⟨_, rfl, rfl⟩)
  · exact .inl ⟨t, rfl, rfl⟩

/-- If a command's execute step answers a next state, it is the command's own or the raised result's (R163). -/
theorem State.endCommand_next {s t : State} {x : Except CmdStop State} (h : s.endCommand x = .next t) :
    x = .ok t ∨ ∃ c, x = .error (.result c) ∧ t = s.raiseResult c := by
  rcases s.endCommand_cases x with ⟨u, hx, hu⟩ | ⟨c, hx, hu⟩ | ⟨f, hx, hu⟩ <;> rw [hu] at h
  · cases h; exact .inl hx
  · cases h; exact .inr ⟨c, hx, rfl⟩
  · cases h

end Sys2Proof.Machine
end

