-- ==== Sys2Proof/Laws/Memory.lean ====
section
/-! SUPPORT. What the LRAM operations do: reading after a store, the canonical form kept by every operation, and what a
successful read of several bytes says (20_memory.md R58, 10_state.md R41). -/

namespace Sys2Proof.Machine

theorem mem_cellsAt {c : Host.Cell} {a : Nat} {bs : Bytes} (h : c ∈ cellsAt a bs) : a ≤ c.1 ∧ c.1 < a + bs.length := by
  induction bs generalizing a with
  | nil => simp [cellsAt] at h
  | cons b bs ih =>
    rcases List.mem_cons.1 h with rfl | h
    · simp
    · have := ih h
      simp only [List.length_cons]; omega

theorem Memory.read_append (m n : Memory) (x : Nat) : Memory.read (m ++ n) x = (m.read x).or (n.read x) := by
  simp only [Memory.read, List.find?_append]
  cases m.find? fun c => c.1 == x <;> simp

@[simp] theorem Memory.read_nil (x : Nat) : Memory.read [] x = none := rfl

theorem Memory.read_cons (c : Host.Cell) (m : Memory) (x : Nat) :
    Memory.read (c :: m) x = if c.1 = x then some c.2 else m.read x := by
  by_cases h : c.1 = x <;> simp [Memory.read, h]

theorem Memory.read_filter (m : Memory) (p : Nat → Bool) (x : Nat) :
    Memory.read (m.filter fun c => p c.1) x = if p x then m.read x else none := by
  induction m with
  | nil => simp
  | cons c m ih =>
    by_cases hp : p c.1 = true
    · rw [List.filter_cons_of_pos (by exact hp), Memory.read_cons, Memory.read_cons, ih]
      by_cases hc : c.1 = x
      · subst hc; simp [hp]
      · simp [hc]
    · rw [List.filter_cons_of_neg (by exact hp), Memory.read_cons, ih]
      by_cases hc : c.1 = x
      · subst hc; simp [hp]
      · simp [hc]

theorem Memory.read_cellsAt (a : Nat) (bs : Bytes) (x : Nat) :
    Memory.read (cellsAt a bs) x = if a ≤ x then bs[x - a]? else none := by
  induction bs generalizing a with
  | nil => simp [cellsAt, Memory.read]
  | cons b bs ih =>
    rw [cellsAt, Memory.read_cons, ih]
    by_cases h : a = x
    · subst h; simp
    · by_cases h' : a ≤ x
      · have h1 : a + 1 ≤ x := by omega
        have h2 : x - a = (x - (a + 1)) + 1 := by omega
        rw [if_neg h, if_pos h1, if_pos h', h2, List.getElem?_cons_succ]
      · have h1 : ¬ a + 1 ≤ x := by omega
        simp [h, h', h1]

/-- Reading after a store: the stored byte inside the stored range, the old value elsewhere. -/
theorem Memory.read_store (m : Memory) (a : Nat) (bs : Bytes) (x : Nat) :
    (m.store a bs).read x = if a ≤ x ∧ x < a + bs.length then bs[x - a]? else m.read x := by
  have hl := Memory.read_filter m (fun y => decide (y < a)) x
  have hr := Memory.read_filter m (fun y => decide (a + bs.length ≤ y)) x
  simp only [Memory.store, Memory.read_append, hl, hr, Memory.read_cellsAt]
  by_cases h1 : x < a
  · have h2 : ¬ a ≤ x := by omega
    have h3 : ¬ a + bs.length ≤ x := by omega
    simp [h1, h2, h3]
  · have h2 : a ≤ x := by omega
    by_cases h3 : x < a + bs.length
    · have h4 : ¬ a + bs.length ≤ x := by omega
      simp [h1, h2, h3, h4]
    · have h4 : a + bs.length ≤ x := by omega
      have h5 : bs[x - a]? = none := List.getElem?_eq_none (by omega)
      simp [h1, h2, h3, h4, h5]

theorem cellsAt_wf (a : Nat) (bs : Bytes) : Memory.wf (cellsAt a bs) := by
  induction bs generalizing a with
  | nil => exact .nil
  | cons b bs ih =>
    refine .cons (fun c hc => ?_) (ih (a + 1))
    have := mem_cellsAt hc
    simp only; omega

/-- A store keeps the canonical form. -/
theorem Memory.store_wf {m : Memory} (h : m.wf) (a : Nat) (bs : Bytes) : (m.store a bs).wf := by
  simp only [Memory.wf, Memory.store, List.pairwise_append] at *
  refine ⟨⟨h.filter _, cellsAt_wf a bs, ?_⟩, h.filter _, ?_⟩
  · intro c hc d hd
    have h1 := (List.mem_filter.1 hc).2
    have h2 := mem_cellsAt hd
    simp only [decide_eq_true_eq] at h1; omega
  · intro c hc d hd
    have h2 := (List.mem_filter.1 hd).2
    simp only [decide_eq_true_eq] at h2
    rcases List.mem_append.1 hc with hc | hc
    · have h1 := (List.mem_filter.1 hc).2
      simp only [decide_eq_true_eq] at h1; omega
    · have h1 := mem_cellsAt hc
      omega

@[simp] theorem Memory.fill_length (m : Memory) (a n : Nat) : (m.fill a n).length = n := by
  induction n generalizing a with
  | zero => rfl
  | succ n ih => simp [Memory.fill, ih]

/-- The offsets a write from `a` on touches: whole words. -/
theorem Memory.read_write_outside (m : Memory) (a : Nat) (bs : Bytes) (x : Nat)
    (h : x < a ∨ a + bs.length + wordPad bs.length ≤ x) : (m.write a bs).read x = m.read x := by
  rw [Memory.write, Memory.read_store, if_neg]
  simp only [List.length_append, Memory.fill_length]; omega

/-- The written bytes read back. -/
theorem Memory.read_write_inside (m : Memory) (a : Nat) (bs : Bytes) (x : Nat) (h : a ≤ x ∧ x < a + bs.length) :
    (m.write a bs).read x = bs[x - a]? := by
  rw [Memory.write, Memory.read_store, if_pos, List.getElem?_append_left (by omega)]
  simp only [List.length_append, Memory.fill_length]; omega

theorem Memory.fill_getElem? (m : Memory) (a n i : Nat) (h : i < n) :
    (m.fill a n)[i]? = some ((m.read (a + i)).getD 0#8) := by
  induction n generalizing a i with
  | zero => omega
  | succ n ih =>
    cases i with
    | zero => simp [Memory.fill]
    | succ i => simp only [Memory.fill, List.getElem?_cons_succ]; rw [ih (a + 1) i (by omega)]; congr 3; omega

/-- In the last word of a write the other bytes keep their values, or read 0 where they had none. -/
theorem Memory.read_write_pad (m : Memory) (a : Nat) (bs : Bytes) (x : Nat)
    (h : a + bs.length ≤ x ∧ x < a + bs.length + wordPad bs.length) :
    (m.write a bs).read x = some ((m.read x).getD 0#8) := by
  rw [Memory.write, Memory.read_store, if_pos, List.getElem?_append_right (by omega),
    Memory.fill_getElem? _ _ _ _ (by omega)]
  · congr 3; omega
  · simp only [List.length_append, Memory.fill_length]; omega

/-- A write keeps every value outside the written bytes, those in its last word included (R58). -/
theorem Memory.read_write_keeps {m : Memory} {a : Nat} {bs : Bytes} {x : Nat} {v : Byte} (hv : m.read x = some v)
    (h : x < a ∨ a + bs.length ≤ x) : (m.write a bs).read x = some v := by
  by_cases hp : a + bs.length ≤ x ∧ x < a + bs.length + wordPad bs.length
  · rw [Memory.read_write_pad _ _ _ _ hp, hv]; rfl
  · rw [Memory.read_write_outside _ _ _ _ (by omega), hv]

/-- A write keeps the canonical form. -/
theorem Memory.write_wf {m : Memory} (h : m.wf) (a : Nat) (bs : Bytes) : (m.write a bs).wf := Memory.store_wf h a _

/-- A write of a slot keeps the canonical form. -/
theorem Memory.slotWrite_wf {m : Memory} (h : m.wf) (sl : Slot) (x : Bytes) : (m.slotWrite sl x).wf :=
  Memory.write_wf (Memory.write_wf h _ _) _ _

/-- LRAM is in canonical form at reset. -/
theorem reset_memory_wf : State.reset.lram.wf := by decide

/-- What a successful read of `n` bytes says: there are `n`, and each is the byte at its offset. -/
theorem Memory.readBytes_ok {m : Memory} {a n : Nat} {bs : Bytes} :
    m.readBytes a n = .ok bs ↔ bs.length = n ∧ ∀ i < n, m.read (a + i) = bs[i]? := by
  induction n generalizing a bs with
  | zero =>
    simp only [Memory.readBytes, Except.ok.injEq, Nat.not_lt_zero, false_implies, implies_true, and_true]
    rw [List.length_eq_zero_iff]; exact eq_comm
  | succ n ih =>
    have step : ∀ b rest, m.read a = some b → bs = b :: rest →
        ((∀ i < n, m.read (a + 1 + i) = rest[i]?) ↔ ∀ i < n + 1, m.read (a + i) = bs[i]?) := by
      rintro b rest hb rfl
      constructor
      · intro h i hi
        cases i with
        | zero => simpa using hb
        | succ i => simpa [Nat.add_assoc, Nat.add_comm 1] using h i (by omega)
      · intro h i hi
        simpa [Nat.add_assoc, Nat.add_comm 1] using h (i + 1) (by omega)
    simp only [Memory.readBytes]
    cases hb : m.read a with
    | none =>
      refine ⟨(fun h => nomatch h), fun ⟨hl, h⟩ => ?_⟩
      have := h 0 (by omega)
      rw [Nat.add_zero, hb] at this
      rw [eq_comm, List.getElem?_eq_none_iff] at this; omega
    | some b =>
      cases hr : m.readBytes (a + 1) n with
      | error f =>
        refine ⟨(fun h => nomatch h), fun ⟨hl, h⟩ => ?_⟩
        obtain ⟨b', rest, rfl⟩ : ∃ b' rest, bs = b' :: rest := by
          cases bs with
          | nil => simp at hl
          | cons b' rest => exact ⟨b', rest, rfl⟩
        have hb' : b' = b := by have := h 0 (by omega); simpa [hb, eq_comm] using this
        subst hb'
        have := (ih (a := a + 1) (bs := rest)).2 ⟨by simpa using hl, (step b' rest hb rfl).2 h⟩
        rw [hr] at this; cases this
      | ok rest =>
        have hi := (ih (a := a + 1) (bs := rest)).1 hr
        constructor
        · intro h
          cases h
          exact ⟨by simp [hi.1], (step b rest hb rfl).1 hi.2⟩
        · rintro ⟨hl, h⟩
          obtain ⟨b', rest', rfl⟩ : ∃ b' rest', bs = b' :: rest' := by
            cases bs with
            | nil => simp at hl
            | cons b' rest' => exact ⟨b', rest', rfl⟩
          have hb' : b' = b := by have := h 0 (by omega); simpa [hb, eq_comm] using this
          subst hb'
          have := (ih (a := a + 1) (bs := rest')).2 ⟨by simpa using hl, (step b' rest' hb rfl).2 h⟩
          rw [hr] at this; cases this; rfl

end Sys2Proof.Machine
end

