-- ==== Sys2Proof/Laws/Slots.lean ====
section
/-! SUPPORT. What the LRAM words and string slots hold after a write: the length word, the string, and that slots do not overlap
(20_memory.md R58 to R60); what a write keeps of LRAM's form (10_state.md R41). -/

namespace Sys2Proof.Machine

/-! ### Words -/

theorem wordOfBytes_bytesOfWord (w : Word) : wordOfBytes (bytesOfWord w) = w := by
  apply BitVec.eq_of_toNat_eq
  simp only [wordOfBytes, bytesOfWord, BitVec.toNat_or, BitVec.toNat_setWidth, BitVec.toNat_shiftLeft,
    BitVec.extractLsb'_toNat, BitVec.toNat_ofNat]
  apply Nat.eq_of_testBit_eq
  intro i
  simp only [Nat.testBit_or, Nat.testBit_mod_two_pow, Nat.testBit_shiftLeft, Nat.testBit_shiftRight, Nat.zero_mod, Nat.zero_testBit]
  have hw : ∀ j, 32 ≤ j → w.toNat.testBit j = false := fun j hj => Nat.testBit_lt_two_pow
    (Nat.lt_of_lt_of_le w.isLt (Nat.pow_le_pow_right (by omega) hj))
  by_cases h0 : i < 8
  · simp [h0, show i < 32 by omega, show ¬ 8 ≤ i by omega]
  · by_cases h1 : i < 16
    · simp [h0, show i < 32 by omega, show 8 ≤ i by omega, show i - 8 < 8 by omega, show 8 + (i - 8) = i by omega,
        show i - 8 < 32 by omega, show ¬ 8 ≤ i - 8 by omega]
    · by_cases h2 : i < 24
      · simp [h0, show i < 32 by omega, show 8 ≤ i by omega, show ¬ i - 8 < 8 by omega, show i - 8 < 32 by omega,
          show 8 ≤ i - 8 by omega, show i - 8 - 8 < 8 by omega, show i - 8 - 8 < 32 by omega,
          show 16 + (i - 8 - 8) = i by omega, show ¬ 8 ≤ i - 8 - 8 by omega]
      · by_cases h3 : i < 32
        · simp [h0, h3, show 8 ≤ i by omega, show ¬ i - 8 < 8 by omega, show i - 8 < 32 by omega,
            show 8 ≤ i - 8 by omega, show ¬ i - 8 - 8 < 8 by omega, show i - 8 - 8 < 32 by omega,
            show 8 ≤ i - 8 - 8 by omega, show i - 8 - 8 - 8 < 8 by omega, show i - 8 - 8 - 8 < 32 by omega,
            show 24 + (i - 8 - 8 - 8) = i by omega, show ¬ 8 ≤ i - 8 - 8 - 8 by omega]
        · simp [h0, h3, hw i (by omega)]

@[simp] theorem bytesOfWord_length (w : Word) : (bytesOfWord w).length = 4 := rfl

/-- A word is what its four bytes say. -/
theorem Memory.readWord_of_bytes {m : Memory} {a : Nat} {w : Word} (h : ∀ i < 4, m.read (a + i) = (bytesOfWord w)[i]?) :
    m.readWord a = .ok w := by
  have : m.readBytes a 4 = .ok (bytesOfWord w) := Memory.readBytes_ok.2 ⟨rfl, h⟩
  simp only [Memory.readWord, this, wordOfBytes_bytesOfWord]

/-- A written word reads back. -/
theorem Memory.readWord_write_self (m : Memory) (a : Nat) (w : Word) : (m.write a (bytesOfWord w)).readWord a = .ok w :=
  Memory.readWord_of_bytes fun i hi => by
    rw [Memory.read_write_inside _ _ _ _ ⟨by omega, by rw [bytesOfWord_length]; omega⟩]; congr 1; omega

/-- Bytes read alike where their offsets read alike. -/
theorem Memory.readBytes_congr {m m' : Memory} {a n : Nat} (h : ∀ x, a ≤ x → x < a + n → m'.read x = m.read x) :
    m'.readBytes a n = m.readBytes a n := by
  induction n generalizing a with
  | zero => rfl
  | succ n ih =>
    have e := ih (a := a + 1) fun x h1 h2 => h x (by omega) (by omega)
    simp only [Memory.readBytes, h a (by omega) (by omega), e]

theorem Memory.readWord_congr {m m' : Memory} {a : Nat} (h : ∀ x, a ≤ x → x < a + 4 → m'.read x = m.read x) :
    m'.readWord a = m.readWord a := by
  simp only [Memory.readWord, Memory.readBytes_congr h]

/-- Written bytes read back. -/
theorem Memory.readBytes_write_self (m : Memory) (a : Nat) (bs : Bytes) : (m.write a bs).readBytes a bs.length = .ok bs :=
  Memory.readBytes_ok.2 ⟨rfl, fun i hi => by
    rw [Memory.read_write_inside _ _ _ _ ⟨by omega, by omega⟩]; congr 1; omega⟩

/-! ### Slots -/

theorem Slot.cap_le (sl : Slot) : sl.cap ≤ 1024 := by cases sl <;> decide

theorem Slot.cap_mod (sl : Slot) : sl.cap % 4 = 0 := by cases sl <;> decide

theorem Slot.base_mod (sl : Slot) : sl.base % 4 = 0 := by cases sl <;> decide

/-- The words of a string within capacity end within the slot. -/
theorem Slot.pad_le {sl : Slot} {n : Nat} (h : n ≤ sl.cap) : n + wordPad n ≤ sl.cap := by
  have := sl.cap_mod; unfold wordPad; omega

/-- Slots do not overlap (R60). -/
theorem Slot.disjoint {s t : Slot} (h : s ≠ t) : s.data + s.cap ≤ t.base ∨ t.data + t.cap ≤ s.base := by
  revert h; cases s <;> cases t <;> decide

/-- Every slot lies below WS_FRAME (R60). -/
theorem Slot.below_frame (sl : Slot) : 0x1000 ≤ sl.base ∧ sl.data + sl.cap ≤ frameBase := by cases sl <;> decide

/-- What a slot write leaves alone. -/
theorem Memory.read_slotWrite_outside {m : Memory} {sl : Slot} {x : Bytes} {a : Nat} (h : ¬ slotTouched sl x a) :
    (m.slotWrite sl x).read a = m.read a := by
  simp only [slotTouched, Slot.data] at h
  simp only [Memory.slotWrite, Slot.data]
  rw [Memory.read_write_outside, Memory.read_write_outside]
  · simp only [bytesOfWord_length, wordPad]; omega
  · omega

/-- A slot write keeps every value but those of the length word and the string's own bytes (R58). -/
theorem Memory.read_slotWrite_keeps {m : Memory} {sl : Slot} {x : Bytes} {a : Nat} {v : Byte} (hv : m.read a = some v)
    (h : ¬ slotWritten sl x a) : (m.slotWrite sl x).read a = some v := by
  simp only [slotWritten, Slot.data] at h
  refine Memory.read_write_keeps (Memory.read_write_keeps hv ?_) ?_
  · simp only [bytesOfWord_length]; omega
  · simp only [Slot.data]; omega

/-- A slot write within capacity touches that slot alone. -/
theorem slotTouched_slot {sl : Slot} {x : Bytes} {a : Nat} (hx : x.length ≤ sl.cap) (h : slotTouched sl x a) :
    sl.base ≤ a ∧ a < sl.data + sl.cap := by
  have := Slot.pad_le hx
  simp only [slotTouched] at h; omega

/-- A written string of at most 65535 bytes is the slot's length (R58). -/
theorem Memory.slotLen_slotWrite_self (m : Memory) (sl : Slot) (x : Bytes) (hx : x.length < 65536) :
    (m.slotWrite sl x).slotLen sl = .ok x.length := by
  have : (m.slotWrite sl x).readWord sl.base = .ok (BitVec.ofNat 32 x.length) := by
    rw [← Memory.readWord_write_self m sl.base (BitVec.ofNat 32 x.length)]
    refine Memory.readWord_congr fun a h1 h2 => ?_
    exact Memory.read_write_outside _ _ _ _ (.inl h2)
  simp only [Memory.slotLen, this, BitVec.extractLsb'_toNat, BitVec.toNat_ofNat, Nat.shiftRight_zero]
  congr 1; omega

/-- A written string within capacity is held. -/
theorem Memory.holds_slotWrite_self (m : Memory) {sl : Slot} {x : Bytes} (hx : x.length ≤ sl.cap) :
    (m.slotWrite sl x).holds sl x := by
  have := sl.cap_le
  exact ⟨Memory.slotLen_slotWrite_self m sl x (by omega), hx, Memory.readBytes_write_self _ _ _⟩

/-- A slot is as before where its bytes are. -/
theorem Memory.slot_congr {m m' : Memory} {sl : Slot} (h : ∀ a, sl.base ≤ a → a < sl.data + sl.cap → m'.read a = m.read a) :
    m'.slotLen sl = m.slotLen sl ∧ ∀ x, m.holds sl x → m'.holds sl x := by
  have e : m'.slotLen sl = m.slotLen sl := by
    have := sl.cap_mod
    have h1 : m'.readWord sl.base = m.readWord sl.base :=
      Memory.readWord_congr fun a h1 h2 => h a h1 (by have : sl.data = sl.base + 4 := rfl; omega)
    simp only [Memory.slotLen, h1]
  refine ⟨e, fun x hx => ⟨e ▸ hx.1, hx.2.1, ?_⟩⟩
  rw [Memory.readBytes_congr fun a h1 h2 => h a (by have : sl.data = sl.base + 4 := rfl; omega) (by have := hx.2.1; omega)]
  exact hx.2.2

/-- A slot write within capacity leaves every other slot as it was. -/
theorem Memory.slotWrite_other (m : Memory) {sl t : Slot} {y : Bytes} (hne : sl ≠ t) (hy : y.length ≤ t.cap) :
    (m.slotWrite t y).slotLen sl = m.slotLen sl ∧ ∀ x, m.holds sl x → (m.slotWrite t y).holds sl x :=
  Memory.slot_congr fun a h1 h2 => Memory.read_slotWrite_outside fun ht => by
    have h3 := slotTouched_slot hy ht
    rcases Slot.disjoint hne with h | h <;> omega

theorem Memory.holds_slotWrite_other {m : Memory} {sl t : Slot} {x y : Bytes} (h : m.holds sl x) (hne : sl ≠ t)
    (hy : y.length ≤ t.cap) : (m.slotWrite t y).holds sl x := (m.slotWrite_other hne hy).2 x h

/-- What a held string says of the slot's reader (R58). -/
theorem Memory.holds.slotRead {m : Memory} {sl : Slot} {x : Bytes} (h : m.holds sl x) : m.slotRead sl = .ok x := by
  simp only [Memory.slotRead, h.1, h.2.2]

/-- A string a slot's reader answers, within capacity, is held. -/
theorem Memory.holds_of_slotRead {m : Memory} {sl : Slot} {x : Bytes} (h : m.slotRead sl = .ok x) (hx : x.length ≤ sl.cap) :
    m.holds sl x := by
  unfold Memory.slotRead at h
  split at h
  · cases h
  · rename_i n hn
    have := (Memory.readBytes_ok.1 h).1
    exact ⟨this ▸ hn, hx, this ▸ h⟩

/-- Length checks on slots that hold strings pass (R59). -/
theorem checkLens_ok {m : Memory} {slots : List Slot} (h : ∀ sl ∈ slots, ∃ x, m.holds sl x) : checkLens m slots = .ok () := by
  induction slots with
  | nil => rfl
  | cons sl rest ih =>
    obtain ⟨x, hx⟩ := h sl (by simp)
    have h2 : ¬ sl.cap < x.length := by have := hx.2.1; omega
    simp only [checkLens, hx.1, h2, if_false]
    exact ih fun t ht => h t (by simp [ht])

/-- Length checks with one slot above capacity and every length readable raise E_LEN (R59). -/
theorem checkLens_long {m : Memory} {slots : List Slot} (hr : ∀ sl ∈ slots, ∃ n, m.slotLen sl = .ok n)
    (h : ∃ sl ∈ slots, ∃ n, m.slotLen sl = .ok n ∧ sl.cap < n) : checkLens m slots = .error (.result .eLen) := by
  induction slots with
  | nil => obtain ⟨_, h, _⟩ := h; cases h
  | cons sl rest ih =>
    obtain ⟨n, hn⟩ := hr sl (by simp)
    simp only [checkLens, hn]
    split
    · rfl
    · rename_i hle
      refine ih (fun t ht => hr t (by simp [ht])) ?_
      obtain ⟨t, ht, k, hk, hc⟩ := h
      rcases List.mem_cons.1 ht with rfl | ht
      · rw [hn] at hk; cases hk; exact absurd hc hle
      · exact ⟨t, ht, k, hk, hc⟩

/-- Length checks where every length is readable answer pass or E_LEN, never a fault. -/
theorem checkLens_total {m : Memory} {slots : List Slot} (hr : ∀ sl ∈ slots, ∃ n, m.slotLen sl = .ok n) :
    checkLens m slots = .ok () ∨ checkLens m slots = .error (.result .eLen) := by
  by_cases h : ∃ sl ∈ slots, ∃ n, m.slotLen sl = .ok n ∧ sl.cap < n
  · exact .inr (checkLens_long hr h)
  · refine .inl ?_
    induction slots with
    | nil => rfl
    | cons sl rest ih =>
      obtain ⟨n, hn⟩ := hr sl (by simp)
      have h2 : ¬ sl.cap < n := fun hc => h ⟨sl, by simp, n, hn, hc⟩
      simp only [checkLens, hn, h2, if_false]
      exact ih (fun t ht => hr t (by simp [ht])) fun ⟨t, ht, k, hk⟩ => h ⟨t, by simp [ht], k, hk⟩

end Sys2Proof.Machine
end

