-- ==== Sys2Proof/Laws/Operands.lean ====
section
/-! SUPPORT. What the operand readers answer: the workspace frame buffer (10_state.md R40), the message and the packet that
ENCODE and SEND build (41_codec.md R119, 43_arq.md R132), and the codec's algorithms on what they read (R117, R118). -/

namespace Sys2Proof.Machine

/-! ### Checks and reads in sequence -/

/-- What a sequence of checks and reads that answers has read. -/
theorem Except.bind_eq_ok_iff {α β ε : Type} {x : Except ε α} {f : α → Except ε β} {b : β} :
    x.bind f = .ok b ↔ ∃ a, x = .ok a ∧ f a = .ok b := by
  cases x <;> simp [Except.bind]

/-- Where a sequence of checks and reads stops. -/
theorem Except.bind_eq_error_iff {α β ε : Type} {x : Except ε α} {f : α → Except ε β} {e : ε} :
    x.bind f = .error e ↔ x = .error e ∨ ∃ a, x = .ok a ∧ f a = .error e := by
  cases x <;> simp [Except.bind]

/-- What a read followed by the writes `f` has read. -/
theorem Except.map_eq_ok_iff {α β ε : Type} {x : Except ε α} {f : α → β} {b : β} :
    x.map f = .ok b ↔ ∃ a, x = .ok a ∧ f a = b := by
  cases x <;> simp [Except.map]

/-! ### The workspace frame buffer -/

/-- The bytes of the workspace frame buffer, WS_FRAME_LEN being within FRAME_CAP (R40). -/
theorem frameOperand_ok {s : State} {b : Bytes} (h : s.ws.frameLen.toNat ≤ 12288) (hl : b.length = s.ws.frameLen.toNat)
    (hb : ∀ i < b.length, s.lram.read (0x4000 + i) = b[i]?) : frameOperand s = .ok b := by
  have hr : s.lram.readBytes frameBase s.ws.frameLen.toNat = .ok b :=
    Memory.readBytes_ok.2 ⟨hl, fun i hi => hb i (hl ▸ hi)⟩
  have hc : ¬ Config.frameCap < s.ws.frameLen.toNat := by unfold Config.frameCap; omega
  simp [frameOperand, hc, hr, Except.mapError]

/-- WS_FRAME_LEN above FRAME_CAP raises E_LEN (R113, R120, R121). -/
theorem frameOperand_long {s : State} (h : 12288 < s.ws.frameLen.toNat) : frameOperand s = .error (.result .eLen) := by
  simp [frameOperand, Config.frameCap, h]

/-- The workspace frame buffer is WS_FRAME_LEN bytes, at most FRAME_CAP. -/
theorem frameOperand_length {s : State} {b : Bytes} (h : frameOperand s = .ok b) :
    b.length = s.ws.frameLen.toNat ∧ b.length ≤ Config.frameCap := by
  unfold frameOperand at h
  split at h
  · cases h
  · cases hr : s.lram.readBytes frameBase s.ws.frameLen.toNat with
    | error e => rw [hr] at h; cases h
    | ok y =>
      rw [hr] at h; cases h
      have := (Memory.readBytes_ok.1 hr).1
      exact ⟨this, by omega⟩

/-! ### Slots as operands -/

theorem slotOperand_ok {m : Memory} {sl : Slot} {x : Bytes} (h : m.holds sl x) : slotOperand m sl = .ok x := by
  simp only [slotOperand, Memory.holds.slotRead h, Except.mapError]

theorem slotOperand_eq_ok {m : Memory} {sl : Slot} {x : Bytes} (h : slotOperand m sl = .ok x) : m.slotRead sl = .ok x := by
  unfold slotOperand at h
  cases hr : m.slotRead sl with
  | error e => rw [hr] at h; cases h
  | ok y => rw [hr] at h; cases h; rfl

/-- Reading a slot faults or answers; it raises no result. -/
theorem slotOperand_ne_result {m : Memory} {sl : Slot} {c : ResultCode} : slotOperand m sl ≠ .error (.result c) := by
  unfold slotOperand
  cases m.slotRead sl <;> simp [Except.mapError]

/-- Length checks that pass have read every length and found it within capacity (R59). -/
theorem checkLens_eq_ok {m : Memory} {slots : List Slot} (h : checkLens m slots = .ok ()) :
    ∀ sl ∈ slots, ∃ n, m.slotLen sl = .ok n ∧ n ≤ sl.cap := by
  induction slots with
  | nil => simp
  | cons sl rest ih =>
    simp only [checkLens] at h
    split at h
    · cases h
    · split at h
      · cases h
      · intro t ht
        rcases List.mem_cons.1 ht with rfl | ht
        · exact ⟨_, ‹_›, by omega⟩
        · exact ih h t ht

/-- The only result a length check raises is E_LEN (R59). -/
theorem checkLens_result {m : Memory} {slots : List Slot} {c : ResultCode} (h : checkLens m slots = .error (.result c)) :
    c = .eLen := by
  induction slots with
  | nil => cases h
  | cons sl rest ih =>
    simp only [checkLens] at h
    split at h
    · cases h
    · split at h
      · cases h; rfl
      · exact ih h

/-- Length checks of two lists in a row. -/
theorem checkLens_append (m : Memory) (a b : List Slot) :
    checkLens m (a ++ b) = (checkLens m a).bind fun _ => checkLens m b := by
  induction a with
  | nil => rfl
  | cons sl a ih =>
    simp only [List.cons_append, checkLens]
    cases m.slotLen sl with
    | error f => rfl
    | ok n =>
      simp only []
      split
      · rfl
      · exact ih

/-- A slot whose length was checked and whose string was read is held. -/
theorem Memory.holds_of_checked {m : Memory} {sl : Slot} {x : Bytes} (h : m.slotRead sl = .ok x)
    (hc : ∃ n, m.slotLen sl = .ok n ∧ n ≤ sl.cap) : m.holds sl x := by
  obtain ⟨n, hn, hle⟩ := hc
  apply Memory.holds_of_slotRead h
  unfold Memory.slotRead at h
  rw [hn] at h
  rw [(Memory.readBytes_ok.1 h).1]; exact hle

theorem messageOperand_ok {m : Memory} {t s x : Slot} {a b c : Bytes} {ts : BitVec 64} (h1 : m.holds t a) (h2 : m.holds s b)
    (h3 : m.holds x c) : messageOperand m t s x ts = .ok { type := a, senderAddr := b, text := c, ts := ts } := by
  simp only [messageOperand, slotOperand_ok h1, slotOperand_ok h2, slotOperand_ok h3]; rfl

theorem messageOperand_ne_result {m : Memory} {t s x : Slot} {ts : BitVec 64} {c : ResultCode} :
    messageOperand m t s x ts ≠ .error (.result c) := by
  intro h
  rcases Except.bind_eq_error_iff.1 h with h | ⟨_, _, h⟩
  · exact slotOperand_ne_result h
  rcases Except.bind_eq_error_iff.1 h with h | ⟨_, _, h⟩
  · exact slotOperand_ne_result h
  rcases Except.bind_eq_error_iff.1 h with h | ⟨_, _, h⟩
  · exact slotOperand_ne_result h
  cases h

/-! ### ENCODE's and SEND's operands -/

/-- What ENCODE has read and checked where its operands are readable (R119). -/
theorem workspaceOperands_eq_ok {m : Memory} {w : Workspace} {a b : Bytes} {k : Packet}
    (h : workspaceOperands m w = .ok (a, b, k)) :
    m.holds .wsSrcPhys a ∧ m.holds .wsDstPhys b ∧ m.holds .wsSrcLog k.srcLog ∧ m.holds .wsDstLog k.dstLog
      ∧ k.ttl = w.ttl ∧ k.seg.seq = w.seq ∧ k.seg.isAck = w.isAck
      ∧ match k.seg.payload with
        | none => w.hasPl = false
        | some p => w.hasPl = true ∧ m.holds .wsType p.type ∧ m.holds .wsSender p.senderAddr ∧ m.holds .wsText p.text
            ∧ p.ts = timestamp w.tsLo w.tsHi := by
  obtain ⟨_, hc, h⟩ := Except.bind_eq_ok_iff.1 h
  obtain ⟨p, hp, h⟩ := Except.bind_eq_ok_iff.1 h
  obtain ⟨x1, h1, h⟩ := Except.bind_eq_ok_iff.1 h
  obtain ⟨x2, h2, h⟩ := Except.bind_eq_ok_iff.1 h
  obtain ⟨x3, h3, h⟩ := Except.bind_eq_ok_iff.1 h
  obtain ⟨x4, h4, h⟩ := Except.bind_eq_ok_iff.1 h
  cases h
  have hc := checkLens_eq_ok hc
  have held : ∀ {sl : Slot} {x : Bytes}, slotOperand m sl = .ok x → (∃ n, m.slotLen sl = .ok n ∧ n ≤ sl.cap) → m.holds sl x :=
    fun hr hl => Memory.holds_of_checked (slotOperand_eq_ok hr) hl
  refine ⟨held h1 (hc _ (by simp)), held h2 (hc _ (by simp)), held h3 (hc _ (by simp)), held h4 (hc _ (by simp)),
    rfl, rfl, rfl, ?_⟩
  cases hh : w.hasPl with
  | false => simp only [workspacePayload, hh] at hp; cases hp; rfl
  | true =>
    simp only [workspacePayload, hh, if_true] at hp
    obtain ⟨_, hc, hp⟩ := Except.bind_eq_ok_iff.1 hp
    obtain ⟨msg, hm, hp⟩ := Except.bind_eq_ok_iff.1 hp
    cases hp
    have hc := checkLens_eq_ok hc
    obtain ⟨x1, h1, h⟩ := Except.bind_eq_ok_iff.1 hm
    obtain ⟨x2, h2, h⟩ := Except.bind_eq_ok_iff.1 h
    obtain ⟨x3, h3, h⟩ := Except.bind_eq_ok_iff.1 h
    cases h
    exact ⟨rfl, held h1 (hc _ (by simp)), held h2 (hc _ (by simp)), held h3 (hc _ (by simp)), rfl⟩

/-- The only result ENCODE's operand reads raise is E_LEN (R119). -/
theorem workspaceOperands_result {m : Memory} {w : Workspace} {c : ResultCode}
    (h : workspaceOperands m w = .error (.result c)) : c = .eLen := by
  rcases Except.bind_eq_error_iff.1 h with h | ⟨_, _, h⟩
  · exact checkLens_result h
  rcases Except.bind_eq_error_iff.1 h with h | ⟨_, _, h⟩
  · unfold workspacePayload at h
    split at h
    · rcases Except.bind_eq_error_iff.1 h with h | ⟨_, _, h⟩
      · exact checkLens_result h
      rcases Except.bind_eq_error_iff.1 h with h | ⟨_, _, h⟩
      · exact absurd h messageOperand_ne_result
      cases h
    · cases h
  iterate 4
    rcases Except.bind_eq_error_iff.1 h with h | ⟨_, _, h⟩
    · exact absurd h slotOperand_ne_result
  cases h

/-- The strings SEND has read are within their capacities (R132). -/
theorem sendOperands_wf {s : State} {x : Bytes × Bytes × Packet} (h : sendOperands s = .ok x) :
    Frame.wf { srcPhys := x.1, dstPhys := x.2.1, checksum := 0#32, pkt := x.2.2 } = true := by
  obtain ⟨_, hc, h⟩ := Except.bind_eq_ok_iff.1 h
  obtain ⟨m, hm, h⟩ := Except.bind_eq_ok_iff.1 h
  obtain ⟨x1, h1, h⟩ := Except.bind_eq_ok_iff.1 h
  obtain ⟨x2, h2, h⟩ := Except.bind_eq_ok_iff.1 h
  obtain ⟨x3, h3, h⟩ := Except.bind_eq_ok_iff.1 h
  obtain ⟨x4, h4, h⟩ := Except.bind_eq_ok_iff.1 h
  cases h
  have hc := checkLens_eq_ok hc
  have held : ∀ {sl : Slot} {x : Bytes}, slotOperand s.lram sl = .ok x → (∃ n, s.lram.slotLen sl = .ok n ∧ n ≤ sl.cap) →
      x.length ≤ sl.cap := fun hr hl => (Memory.holds_of_checked (slotOperand_eq_ok hr) hl).2.1
  obtain ⟨y1, g1, h⟩ := Except.bind_eq_ok_iff.1 hm
  obtain ⟨y2, g2, h⟩ := Except.bind_eq_ok_iff.1 h
  obtain ⟨y3, g3, h⟩ := Except.bind_eq_ok_iff.1 h
  cases h
  simp only [Frame.wf, Packet.wf, Message.wf, Option.all_some, Bool.and_eq_true]
  exact ⟨⟨decide_eq_true (held h1 (hc _ (by simp))), decide_eq_true (held h2 (hc _ (by simp)))⟩,
    ⟨decide_eq_true (held h3 (hc _ (by simp))), decide_eq_true (held h4 (hc _ (by simp)))⟩,
    ⟨decide_eq_true (held g1 (hc _ (by simp))), decide_eq_true (held g2 (hc _ (by simp)))⟩,
    decide_eq_true (held g3 (hc _ (by simp)))⟩

/-! ### Frames -/

/-- A well-formed frame's strings are within their capacities (R91). -/
theorem Frame.wf_caps {f : Frame} (h : f.wf = true) :
    f.srcPhys.length ≤ 64 ∧ f.dstPhys.length ≤ 64 ∧ f.pkt.srcLog.length ≤ 64 ∧ f.pkt.dstLog.length ≤ 64
      ∧ ∀ m, f.pkt.seg.payload = some m → m.type.length ≤ 32 ∧ m.senderAddr.length ≤ 64 ∧ m.text.length ≤ 1024 := by
  simp only [Frame.wf, Packet.wf, Bool.and_eq_true, Config.maxAddr] at h
  obtain ⟨⟨h1, h2⟩, ⟨h3, h4⟩, h5⟩ := h
  refine ⟨of_decide_eq_true h1, of_decide_eq_true h2, of_decide_eq_true h3, of_decide_eq_true h4, fun m hm => ?_⟩
  rw [hm] at h5
  simp only [Option.all_some, Message.wf, Bool.and_eq_true, Config.maxAddr, Config.maxType, Config.maxText] at h5
  exact ⟨of_decide_eq_true h5.1.1, of_decide_eq_true h5.1.2, of_decide_eq_true h5.2⟩

/-- The encoding of a frame does not depend on the checksum it claims (R97). -/
theorem frameT_checksum (sp dp : Bytes) (k : Packet) (c d e : Word) :
    frameT { srcPhys := sp, dstPhys := dp, checksum := d, pkt := k } c
      = frameT { srcPhys := sp, dstPhys := dp, checksum := e, pkt := k } c := rfl

/-- `encode_alg` in terms of FrameT (R95, R117). -/
theorem encodeAlg_eq (sp dp : Bytes) (k : Packet) :
    encodeAlg sp dp k =
      (frameT { srcPhys := sp, dstPhys := dp, checksum := 0#32, pkt := k }
          (crc32 (frameT { srcPhys := sp, dstPhys := dp, checksum := 0#32, pkt := k } 0#32)),
        crc32 (frameT { srcPhys := sp, dstPhys := dp, checksum := 0#32, pkt := k } 0#32)) := by
  simp only [encodeAlg, wire, canon]
  rw [frameT_checksum sp dp k _ _ 0#32]

/-- `decode_alg` of bytes that do not parse (R118). -/
theorem decodeAlg_none {b : Bytes} (h : parse b = none) : decodeAlg b = none := by simp [decodeAlg, h]

/-- `decode_alg` of bytes that parse (R118). -/
theorem decodeAlg_some {b : Bytes} {f : Frame} (h : parse b = some f) :
    decodeAlg b = some (f, crc32 (canon f), crc32 (canon f) == f.checksum) := by simp [decodeAlg, h]

/-- What `decode_alg` answers comes from `parse` (R118). -/
theorem decodeAlg_eq_some {b : Bytes} {f : Frame} {c : Word} {v : Bool} (h : decodeAlg b = some (f, c, v)) :
    parse b = some f ∧ c = crc32 (canon f) ∧ v = (crc32 (canon f) == f.checksum) := by
  simp only [decodeAlg, Option.map_eq_some_iff] at h
  obtain ⟨g, hg, he⟩ := h
  cases he
  exact ⟨hg, rfl, rfl⟩

end Sys2Proof.Machine
end

