-- ==== Sys2Proof/Laws/Receive.lean ====
section
/-! SUPPORT. What the receive engine's operations do: the step RXE.take case by case (44_endpoint.md R146 to R155), the identity
check (R151), delivery (R154) and the acknowledgement (R155); and what DECODE's writes leave alone (41_codec.md R120). -/

namespace Sys2Proof.Machine

/-- RXE.take changes nothing, or takes the oldest datagram through the gates (R146). -/
theorem rxeTake_cases {s t : State} (h : rxeTake s = .next t) :
    t = s ∨ ∃ d rest, s.rx.rxWait = false ∧ s.rx.rxq = d :: rest
      ∧ takeBytes d.bytes ({ s with rx := { s.rx with rxq := rest } }.bump .rx) = .ok t := by
  unfold rxeTake at h
  split at h
  · cases h; exact .inl rfl
  · rename_i hw
    split at h
    · cases h; exact .inl rfl
    · rename_i d rest hq
      unfold outcomeOf at h
      split at h
      · cases h; rename_i hx; exact .inr ⟨d, rest, by simpa using hw, hq, hx⟩
      · cases h

/-- A datagram that passes the integrity and TTL gates goes to the ACK or the data handling (R147, R148). -/
theorem takeBytes_valid {f : Frame} {b : Bytes} {s : State} (hp : parse b = some f) (hc : crc32 (canon f) = f.checksum)
    (ht : f.pkt.ttl ≠ 0#32) : takeBytes b s = if f.pkt.seg.isAck then .ok (takeAck f s) else takeData f s := by
  have h1 : (crc32 (canon f) == f.checksum) = true := by simp [hc]
  have h2 : isTtlValid f.pkt.ttl = true := by simp [isTtlValid, ht]
  simp only [takeBytes, decodeAlg_some hp, h1, h2]; rfl

/-- What a taken datagram can do (R147 to R155). -/
theorem takeBytes_cases {b : Bytes} {s t : State} (h : takeBytes b s = .ok t) :
    t = discard .rxIntegrity .integrity s ∨ t = discard .rxTtl .ttl s ∨ t = discard .rxFull .rxFull s
      ∨ t = (s.drop .config).irq .rxDrop ∨ (∃ f, parse b = some f ∧ t = takeAck f s)
      ∨ (∃ f, parse b = some f ∧ identityFits s.lram = .ok true ∧ sendAck f (s.bump .rxDup) = .ok t)
      ∨ ∃ f, parse b = some f ∧ identityFits s.lram = .ok true ∧ sendAck f (deliver f s) = .ok t := by
  unfold takeBytes at h
  split at h
  · cases h; exact .inl rfl
  · rename_i f _ v hd
    have hg := (decodeAlg_eq_some hd).1
    split at h
    · cases h; exact .inl rfl
    · split at h
      · cases h; exact .inr (.inl rfl)
      · split at h
        · cases h; exact .inr (.inr (.inr (.inr (.inl ⟨f, hg, rfl⟩))))
        · obtain ⟨fits, hf, h⟩ := Except.bind_eq_ok_iff.1 h
          cases fits with
          | false => cases h; exact .inr (.inr (.inr (.inl rfl)))
          | true =>
            simp only [Bool.not_true, Bool.false_eq_true, if_false] at h
            split at h
            · exact .inr (.inr (.inr (.inr (.inr (.inl ⟨f, hg, hf, h⟩)))))
            · split at h
              · cases h; exact .inr (.inr (.inl rfl))
              · exact .inr (.inr (.inr (.inr (.inr (.inr ⟨f, hg, hf, h⟩)))))

/-- The identity check, both lengths being readable (R151). -/
theorem identityFits_ok {m : Memory} {a b : Nat} (h1 : m.slotLen .myPhys = .ok a) (h2 : m.slotLen .myLog = .ok b) :
    identityFits m = .ok (decide (a ≤ 64 ∧ b ≤ 64)) := by
  simp only [identityFits, checkLens, h1, h2, Slot.cap, Config.maxAddr]
  by_cases ha : 64 < a
  · simp [ha]
  · by_cases hb : 64 < b
    · simp [ha, hb]
    · simp [ha, hb]; omega

/-- A new data segment with room is delivered and acknowledged (R154). -/
theorem takeData_new {f : Frame} {s : State} (h1 : identityFits s.lram = .ok true) (h2 : s.rx.lastAcc ≠ some f.pkt.seg.seq)
    (h3 : s.rx.rxmFull = false) : takeData f s = sendAck f (deliver f s) := by
  simp only [takeData, h1, bind, Except.bind, Bool.not_true, Bool.false_eq_true, if_false, h2, h3]

/-- A duplicate is acknowledged (R152). -/
theorem takeData_dup {f : Frame} {s : State} (h1 : identityFits s.lram = .ok true) (h2 : s.rx.lastAcc = some f.pkt.seg.seq) :
    takeData f s = sendAck f (s.bump .rxDup) := by
  simp only [takeData, h1, bind, Except.bind, Bool.not_true, Bool.false_eq_true, if_false, h2, if_true]

/-- The acknowledgement queued, the identity slots holding strings (R155). -/
theorem sendAck_ok {f : Frame} {s : State} {mp ml : Bytes} (h1 : s.lram.holds .myPhys mp) (h2 : s.lram.holds .myLog ml) :
    sendAck f s = .ok
      { (s.enqueue (encodeAlg mp f.srcPhys (ackPacket f ml s.cfg.ttlInit)).1 .rxeAck).bump .ackTx with
        rx := { s.rx with rxWait := true } } := by
  simp only [sendAck, Memory.holds.slotRead h1, Memory.holds.slotRead h2]; rfl

/-- What an acknowledgement that was queued has read and written (R155). -/
theorem sendAck_eq_ok {f : Frame} {s t : State} (h : sendAck f s = .ok t) :
    ∃ w mp ml : Bytes, s.lram.slotRead .myPhys = .ok mp ∧ s.lram.slotRead .myLog = .ok ml
      ∧ w = (encodeAlg mp f.srcPhys (ackPacket f ml s.cfg.ttlInit)).1
      ∧ t = { (s.enqueue w .rxeAck).bump .ackTx with rx := { s.rx with rxWait := true } } := by
  obtain ⟨ml, h1, h⟩ := Except.bind_eq_ok_iff.1 h
  obtain ⟨mp, h2, h⟩ := Except.bind_eq_ok_iff.1 h
  cases h
  exact ⟨_, mp, ml, h2, h1, rfl, rfl⟩

/-- What a delivery leaves alone, and what it does to the receive engine (R154). -/
theorem deliver_frame (f : Frame) (s : State) :
    (deliver f s).inj = s.inj ∧ (deliver f s).cmd = s.cmd ∧ (deliver f s).arq = s.arq ∧ (deliver f s).net = s.net
      ∧ (deliver f s).result = s.result
      ∧ (deliver f s).rx = { s.rx with rxmFull := true, lastAcc := some f.pkt.seg.seq } := by
  refine ⟨?_, ?_, ?_, ?_, ?_, ?_⟩ <;> simp [deliver]

/-- What a delivery does to LRAM: the four RXM slots are written (R154). -/
theorem deliver_lram (f : Frame) (s : State) :
    ∃ x1 x2 x3 x4 : Bytes,
      (f.wf = true → x1.length ≤ 32 ∧ x2.length ≤ 64 ∧ x3.length ≤ 1024 ∧ x4.length ≤ 64)
      ∧ (deliver f s).lram
        = (((s.lram.slotWrite .rxmType x1).slotWrite .rxmSender x2).slotWrite .rxmText x3).slotWrite .rxmSrcLog x4 := by
  refine ⟨_, _, _, _, fun hf => ?_, rfl⟩
  obtain ⟨-, -, c3, -, c5⟩ := Frame.wf_caps hf
  cases hm : f.pkt.seg.payload with
  | none => simp [deliveredMessage, c3]
  | some m => obtain ⟨a, b, c⟩ := c5 m hm; exact ⟨a, b, c, c3⟩

/-- What DECODE's writes leave alone (R120). -/
theorem decodeFrom_frame (s : State) (b : Bytes) :
    (decodeFrom s b).inj = s.inj ∧ (decodeFrom s b).cmd = { s.cmd with phase := .idle } ∧ (decodeFrom s b).arq = s.arq
      ∧ (decodeFrom s b).rx = s.rx ∧ (decodeFrom s b).net = s.net
      ∧ (decodeFrom s b).irqPend = s.irqPend ||| IrqBit.cmdDone.mask := by
  unfold decodeFrom
  split
  · exact ⟨rfl, rfl, rfl, rfl, rfl, rfl⟩
  · refine ⟨?_, ?_, ?_, ?_, ?_, ?_⟩ <;> simp only [decodeWrites, decodePayload] <;> split <;> simp

/-- Four slots written in a row hold their strings; every byte outside the words written, and every other slot, is as it
was. -/
theorem Memory.slotWrite_four {m : Memory} {s1 s2 s3 s4 : Slot} {x1 x2 x3 x4 : Bytes} (h1 : x1.length ≤ s1.cap)
    (h2 : x2.length ≤ s2.cap) (h3 : x3.length ≤ s3.cap) (h4 : x4.length ≤ s4.cap) (d12 : s1 ≠ s2) (d13 : s1 ≠ s3)
    (d14 : s1 ≠ s4) (d23 : s2 ≠ s3) (d24 : s2 ≠ s4) (d34 : s3 ≠ s4) :
    let n := (((m.slotWrite s1 x1).slotWrite s2 x2).slotWrite s3 x3).slotWrite s4 x4
    n.holds s1 x1 ∧ n.holds s2 x2 ∧ n.holds s3 x3 ∧ n.holds s4 x4
      ∧ (∀ a, ¬ slotTouched s1 x1 a → ¬ slotTouched s2 x2 a → ¬ slotTouched s3 x3 a → ¬ slotTouched s4 x4 a →
          n.read a = m.read a)
      ∧ ∀ sl, sl ≠ s1 → sl ≠ s2 → sl ≠ s3 → sl ≠ s4 → ∀ x, m.holds sl x → n.holds sl x := by
  intro n
  refine ⟨?_, ?_, ?_, ?_, ?_, ?_⟩
  · exact Memory.holds_slotWrite_other (Memory.holds_slotWrite_other
      (Memory.holds_slotWrite_other (m.holds_slotWrite_self h1) d12 h2) d13 h3) d14 h4
  · exact Memory.holds_slotWrite_other (Memory.holds_slotWrite_other (Memory.holds_slotWrite_self _ h2) d23 h3) d24 h4
  · exact Memory.holds_slotWrite_other (Memory.holds_slotWrite_self _ h3) d34 h4
  · exact Memory.holds_slotWrite_self _ h4
  · intro a t1 t2 t3 t4
    show Memory.read (Memory.slotWrite _ _ _) a = _
    rw [Memory.read_slotWrite_outside t4, Memory.read_slotWrite_outside t3, Memory.read_slotWrite_outside t2,
      Memory.read_slotWrite_outside t1]
  · intro sl e1 e2 e3 e4 x hx
    exact Memory.holds_slotWrite_other (Memory.holds_slotWrite_other
      (Memory.holds_slotWrite_other (Memory.holds_slotWrite_other hx e1 h1) e2 h2) e3 h3) e4 h4

end Sys2Proof.Machine
end

