-- ==== Sys2Proof/Laws/Faults.lean ====
section
/-! SUPPORT. Where a read of LRAM faults: the fault names an offset nothing has written (10_state.md R41), for every operand
reader (30_encoding.md R87) and for the receive engine (44_endpoint.md R151, R155). -/

namespace Sys2Proof.Machine

/-- A byte read that faults names the first byte of its range without a value (R41). -/
theorem Memory.readBytes_error {m : Memory} {a n : Nat} {f : Fault} (h : m.readBytes a n = .error f) :
    ∃ x, f = .unwrittenLram x ∧ m.read x = none := by
  induction n generalizing a with
  | zero => cases h
  | succ n ih =>
    simp only [Memory.readBytes] at h
    split at h
    · cases h; exact ⟨a, rfl, ‹_›⟩
    · split at h
      · cases h; exact ih ‹_›
      · cases h

/-- A range with a byte without a value faults (R41). -/
theorem Memory.readBytes_unwritten {m : Memory} {a n i : Nat} (hi : i < n) (h : m.read (a + i) = none) :
    ∃ x, m.readBytes a n = .error (.unwrittenLram x) ∧ m.read x = none := by
  cases hr : m.readBytes a n with
  | ok bs =>
    obtain ⟨hl, hb⟩ := Memory.readBytes_ok.1 hr
    have := hb i hi
    rw [h, List.getElem?_eq_getElem (by omega)] at this; cases this
  | error f => obtain ⟨x, rfl, hx⟩ := Memory.readBytes_error hr; exact ⟨x, rfl, hx⟩

/-- A word read that faults names an unwritten byte. -/
theorem Memory.readWord_error {m : Memory} {a : Nat} {f : Fault} (h : m.readWord a = .error f) :
    ∃ x, f = .unwrittenLram x ∧ m.read x = none := by
  unfold Memory.readWord at h
  split at h
  · cases h; exact Memory.readBytes_error ‹_›
  · cases h

/-- A word whose first byte is unwritten faults there. -/
theorem Memory.readWord_first {m : Memory} {a : Nat} (h : m.read a = none) : m.readWord a = .error (.unwrittenLram a) := by
  simp [Memory.readWord, Memory.readBytes, h]

/-- A length read that faults names an unwritten byte. -/
theorem Memory.slotLen_error {m : Memory} {sl : Slot} {f : Fault} (h : m.slotLen sl = .error f) :
    ∃ x, f = .unwrittenLram x ∧ m.read x = none := by
  unfold Memory.slotLen at h
  split at h
  · cases h; exact Memory.readWord_error ‹_›
  · cases h

/-- A slot read that faults names an unwritten byte. -/
theorem Memory.slotRead_error {m : Memory} {sl : Slot} {f : Fault} (h : m.slotRead sl = .error f) :
    ∃ x, f = .unwrittenLram x ∧ m.read x = none := by
  unfold Memory.slotRead at h
  split at h
  · cases h; exact Memory.slotLen_error ‹_›
  · exact Memory.readBytes_error h

/-- Length checks that fault name an unwritten byte. -/
theorem checkLens_fault {m : Memory} {slots : List Slot} {f : Fault} (h : checkLens m slots = .error (.fault f)) :
    ∃ x, f = .unwrittenLram x ∧ m.read x = none := by
  induction slots with
  | nil => cases h
  | cons sl slots ih =>
    simp only [checkLens] at h
    split at h
    · cases h; exact Memory.slotLen_error ‹_›
    · split at h
      · cases h
      · exact ih h

theorem slotOperand_fault {m : Memory} {sl : Slot} {f : Fault} (h : slotOperand m sl = .error (.fault f)) :
    ∃ x, f = .unwrittenLram x ∧ m.read x = none := by
  unfold slotOperand at h
  cases hr : m.slotRead sl with
  | error e => rw [hr] at h; cases h; exact Memory.slotRead_error hr
  | ok y => rw [hr] at h; cases h

theorem messageOperand_fault {m : Memory} {t s x : Slot} {ts : BitVec 64} {f : Fault}
    (h : messageOperand m t s x ts = .error (.fault f)) : ∃ x, f = .unwrittenLram x ∧ m.read x = none := by
  rcases Except.bind_eq_error_iff.1 h with h | ⟨_, -, h⟩
  · exact slotOperand_fault h
  rcases Except.bind_eq_error_iff.1 h with h | ⟨_, -, h⟩
  · exact slotOperand_fault h
  rcases Except.bind_eq_error_iff.1 h with h | ⟨_, -, h⟩
  · exact slotOperand_fault h
  cases h

/-- ENCODE's operands fault only on an unwritten byte (R119). -/
theorem workspaceOperands_fault {m : Memory} {w : Workspace} {f : Fault} (h : workspaceOperands m w = .error (.fault f)) :
    ∃ x, f = .unwrittenLram x ∧ m.read x = none := by
  rcases Except.bind_eq_error_iff.1 h with h | ⟨_, -, h⟩
  · exact checkLens_fault h
  rcases Except.bind_eq_error_iff.1 h with h | ⟨_, -, h⟩
  · unfold workspacePayload at h
    split at h
    · rcases Except.bind_eq_error_iff.1 h with h | ⟨_, -, h⟩
      · exact checkLens_fault h
      rcases Except.bind_eq_error_iff.1 h with h | ⟨_, -, h⟩
      · exact messageOperand_fault h
      cases h
    · cases h
  rcases Except.bind_eq_error_iff.1 h with h | ⟨_, -, h⟩
  · exact slotOperand_fault h
  rcases Except.bind_eq_error_iff.1 h with h | ⟨_, -, h⟩
  · exact slotOperand_fault h
  rcases Except.bind_eq_error_iff.1 h with h | ⟨_, -, h⟩
  · exact slotOperand_fault h
  rcases Except.bind_eq_error_iff.1 h with h | ⟨_, -, h⟩
  · exact slotOperand_fault h
  cases h

/-- SEND's operands fault only on an unwritten byte (R132). -/
theorem sendOperands_fault {s : State} {f : Fault} (h : sendOperands s = .error (.fault f)) :
    ∃ x, f = .unwrittenLram x ∧ s.lram.read x = none := by
  rcases Except.bind_eq_error_iff.1 h with h | ⟨_, -, h⟩
  · exact checkLens_fault h
  rcases Except.bind_eq_error_iff.1 h with h | ⟨_, -, h⟩
  · exact messageOperand_fault h
  rcases Except.bind_eq_error_iff.1 h with h | ⟨_, -, h⟩
  · exact slotOperand_fault h
  rcases Except.bind_eq_error_iff.1 h with h | ⟨_, -, h⟩
  · exact slotOperand_fault h
  rcases Except.bind_eq_error_iff.1 h with h | ⟨_, -, h⟩
  · exact slotOperand_fault h
  rcases Except.bind_eq_error_iff.1 h with h | ⟨_, -, h⟩
  · exact slotOperand_fault h
  cases h

/-- The workspace frame buffer faults only on an unwritten byte (R40). -/
theorem frameOperand_fault {s : State} {f : Fault} (h : frameOperand s = .error (.fault f)) :
    ∃ x, f = .unwrittenLram x ∧ s.lram.read x = none := by
  unfold frameOperand at h
  split at h
  · cases h
  · cases hr : s.lram.readBytes frameBase s.ws.frameLen.toNat with
    | ok y => rw [hr] at h; cases h
    | error e => rw [hr] at h; cases h; exact Memory.readBytes_error hr

/-- What has no value after a block step's write had none before it. -/
theorem Memory.read_slotWrite_none {m : Memory} {sl : Slot} {x : Bytes} {a : Nat} (h : (m.slotWrite sl x).read a = none) :
    m.read a = none := by
  have key : ∀ (m : Memory) (b : Nat) (bs : Bytes), (m.write b bs).read a = none → m.read a = none := by
    intro m b bs h
    by_cases h1 : a < b ∨ b + bs.length + wordPad bs.length ≤ a
    · rw [Memory.read_write_outside _ _ _ _ h1] at h; exact h
    · by_cases h2 : a < b + bs.length
      · rw [Memory.read_write_inside _ _ _ _ ⟨by omega, h2⟩, List.getElem?_eq_none_iff] at h; omega
      · rw [Memory.read_write_pad _ _ _ _ ⟨by omega, by omega⟩] at h; cases h
  exact key _ _ _ (key _ _ _ h)

theorem sendAck_fault {g : Frame} {s : State} {f : Fault} (h : sendAck g s = .error f) :
    ∃ x, f = .unwrittenLram x ∧ s.lram.read x = none := by
  rcases Except.bind_eq_error_iff.1 h with h | ⟨_, -, h⟩
  · exact Memory.slotRead_error h
  rcases Except.bind_eq_error_iff.1 h with h | ⟨_, -, h⟩
  · exact Memory.slotRead_error h
  cases h

theorem identityFits_fault {m : Memory} {f : Fault} (h : identityFits m = .error f) :
    ∃ x, f = .unwrittenLram x ∧ m.read x = none := by
  unfold identityFits at h
  split at h
  · cases h
  · cases h
  · cases h; exact checkLens_fault ‹_›

/-- The data handling faults only on an unwritten byte of an identity slot (R151, R155). -/
theorem takeData_fault {g : Frame} {s : State} {f : Fault} (h : takeData g s = .error f) :
    ∃ x, f = .unwrittenLram x ∧ s.lram.read x = none := by
  cases hi : identityFits s.lram with
  | error e => simp only [takeData, hi, bind, Except.bind] at h; cases h; exact identityFits_fault hi
  | ok fits =>
    simp only [takeData, hi, bind, Except.bind] at h
    cases fits with
    | false => cases h
    | true =>
      simp only [Bool.not_true, Bool.false_eq_true, if_false] at h
      split at h
      · exact sendAck_fault (s := s.bump .rxDup) h
      · split at h
        · cases h
        · obtain ⟨x, hx, h⟩ := sendAck_fault h
          obtain ⟨x1, x2, x3, x4, -, hd⟩ := deliver_lram g s
          rw [hd] at h
          exact ⟨x, hx, Memory.read_slotWrite_none (Memory.read_slotWrite_none (Memory.read_slotWrite_none
            (Memory.read_slotWrite_none h)))⟩

theorem takeBytes_fault {b : Bytes} {s : State} {f : Fault} (h : takeBytes b s = .error f) :
    ∃ x, f = .unwrittenLram x ∧ s.lram.read x = none := by
  unfold takeBytes at h
  split at h
  · cases h
  · repeat' split at h
    all_goals first | cases h | exact takeData_fault h

/-- The receive engine faults only on an unwritten byte (R146). -/
theorem rxeTake_fault {s : State} {f : Fault} (h : rxeTake s = .fault f) :
    ∃ x, f = .unwrittenLram x ∧ s.lram.read x = none := by
  unfold rxeTake at h
  split at h
  · cases h
  · split at h
    · cases h
    · rename_i d rest _
      cases hb : takeBytes d.bytes ({ s with rx := { s.rx with rxq := rest } }.bump .rx) with
      | ok t => rw [hb] at h; cases h
      | error e => rw [hb] at h; cases h; obtain ⟨x, hx, hr⟩ := takeBytes_fault hb; exact ⟨x, hx, hr⟩

/-- Where a command's execute step faults, an operand byte it reads has no value (R41, R163). -/
theorem exec_fault {i : Instr} {s : State} {f : Fault} (h : exec i s = .fault f) :
    ∃ x, f = .unwrittenLram x ∧ s.lram.read x = none := by
  have endCommand : ∀ r : Except CmdStop State, s.endCommand r = .fault f → r = .error (.fault f) := by
    intro r h
    unfold State.endCommand at h
    split at h
    · cases h
    · cases h
    · cases h; rfl
  have mapped : ∀ (r : Except CmdStop Bytes) (g : Bytes → State), s.endCommand (r.map g) = .fault f → r = .error (.fault f) := by
    intro r g h
    have := endCommand _ h
    cases r <;> simp_all [Except.map]
  cases i with
  | nop => cases h
  | mkpkt => cases h
  | ttlchk => cases h
  | encode =>
    rcases Except.bind_eq_error_iff.1 (endCommand _ h) with h | ⟨x, -, h⟩
    · exact workspaceOperands_fault h
    · unfold encodeFrom at h; split at h <;> cases h
  | decode => exact frameOperand_fault (mapped _ _ h)
  | crc32 => exact frameOperand_fault (mapped _ _ h)
  | xmit => exact frameOperand_fault (mapped _ _ h)
  | send =>
    have := endCommand _ h
    split at this
    · cases hr : sendOperands s with
      | ok x => rw [hr] at this; cases this
      | error e => rw [hr] at this; cases this; exact sendOperands_fault hr
    · cases this
  | rxpop =>
    have := endCommand _ h
    split at this <;> cases this

/-- No command is refused. -/
theorem exec_ne_refused {i : Instr} {s : State} {r : Refusal} : exec i s ≠ .refused r := by
  have endCommand : ∀ x : Except CmdStop State, s.endCommand x ≠ .refused r := by
    intro x h
    unfold State.endCommand at h
    split at h <;> cases h
  intro h
  cases i <;> first | exact endCommand _ h | cases h

end Sys2Proof.Machine
end

