-- ==== Sys2Proof/Laws/PerInstr.lean ====
section
/-! SUPPORT. Statements for all instructions, one lemma per constructor of Instr (LAWS.json). -/

namespace Sys2Proof.Laws.LegalWord

/-- The command word of an instruction is legal (30_encoding.md R82, R85): RSVD is zero, OPC is the instruction's opcode, and
that opcode is assigned. -/
def Statement (i : Instr) : Prop :=
  i.wf = true ∧ commandRsvd (Sys2Proof.encode i) = 0#24 ∧ commandOpc (Sys2Proof.encode i) = i.opcode ∧ i.opcode.toNat ≤ 0x08

theorem nop : Statement .nop := by unfold Statement; decide
theorem encode : Statement .encode := by unfold Statement; decide
theorem decode : Statement .decode := by unfold Statement; decide
theorem crc32 : Statement .crc32 := by unfold Statement; decide
theorem mkpkt : Statement .mkpkt := by unfold Statement; decide
theorem ttlchk : Statement .ttlchk := by unfold Statement; decide
theorem xmit : Statement .xmit := by unfold Statement; decide
theorem send : Statement .send := by unfold Statement; decide
theorem rxpop : Statement .rxpop := by unfold Statement; decide

end Sys2Proof.Laws.LegalWord
end

