-- ==== Sys2Proof/Laws/Step.lean ====
section
/-! SUPPORT. What one step can do, once for each agent that is not a command or the receive engine: a turn of the running block,
a turn while the hard reset is held (70_reset_and_hazards.md R185), a host access (20_memory.md R62), the completion of an
injector request (40_channel.md R112). -/

namespace Sys2Proof.Machine

/-! ### Turns -/

/-- With a turn listed, the step is that turn on the state with it taken. -/
theorem step_of_turns {s : State} {tn : Turn} {rest : List Turn} (h : s.turns = tn :: rest) :
    step s = runTurn tn { s with turns := rest } := by
  simp only [step, takeTurn, h]

/-- A step of the running block is its turn's own step. -/
theorem step_live {s : State} (h : s.resetHeld = false) (tn : Turn) (rest : List Turn) :
    step { s with turns := tn :: rest } = liveTurn tn { s with turns := rest } := by
  simp [step, runTurn, takeTurn, h]

/-- What the block's network port does to the state around it: nothing but the receive queue, the counters, the discard cause
and the pending bits (R145). -/
theorem netArrive_frame (b : Bytes) (src : Endpoint) (s : State) :
    (netArrive b src s).net = s.net ∧ (netArrive b src s).arq = s.arq ∧ (netArrive b src s).inj = s.inj
      ∧ (netArrive b src s).cmd = s.cmd ∧ (netArrive b src s).result = s.result ∧ (netArrive b src s).lram = s.lram := by
  unfold netArrive; repeat' split
  all_goals exact ⟨rfl, rfl, rfl, rfl, rfl, rfl⟩

/-- A delivery while the hard reset is held changes the network alone (R185). -/
theorem receiveAt_held {d : Datagram} {s : State} (h : s.resetHeld = true) : ∃ n, receiveAt d s = { s with net := n } := by
  unfold receiveAt
  by_cases hx : s.net.endpoint = some d.dst
  · rw [if_pos hx, if_pos h]; exact ⟨s.net, rfl⟩
  · rw [if_neg hx]; exact ⟨_, rfl⟩

/-- A turn while the hard reset is held, other than the reset input's own, changes the bus's answer and the network alone. -/
theorem heldTurn_frame {s t : State} {tn : Turn} (hne : ∀ b, tn ≠ .hardReset b) (hr : s.resetHeld = true)
    (h : heldTurn tn s = .next t) : t = { s with bus := t.bus, net := t.net } := by
  cases tn with
  | hardReset b => exact absurd rfl (hne b)
  | tick => simp only [heldTurn, tickRouters] at h; split at h <;> cases h <;> rfl
  | netDeliver k =>
    simp only [heldTurn, netDeliver] at h
    split at h
    · cases h; rfl
    · split at h
      · cases h; rfl
      · rename_i d _ _
        obtain ⟨n, hn⟩ :=
          receiveAt_held (d := d.datagram) (s := s.withNet { s.net with flight := flightAfter Config.netModel s.net.flight k d }) hr
        rw [hn] at h; cases h; rfl
  | routerEmit i =>
    simp only [heldTurn, routerEmit] at h
    repeat' split at h
    all_goals (cases h; rfl)
  | wire e r => simp only [heldTurn, wireNet] at h; split at h <;> cases h <;> rfl
  | _ => cases h; rfl

/-- What the hard reset input does: nothing, or every field of the block at its reset value (R185). -/
theorem hardReset_cases (b : Bool) (s : State) :
    hardReset b s = s ∨ ∃ b', hardReset b s =
      { State.reset with resetHeld := b', bus := s.bus, net := s.net, turns := s.turns, turnCount := s.turnCount } := by
  unfold hardReset
  split
  · exact .inr ⟨true, rfl⟩
  · split
    · exact .inr ⟨false, rfl⟩
    · exact .inl rfl

/-! ### NET -/

/-- A delivery adds nothing to what is in flight (R75). -/
theorem flightAfter_sublist (model : NetModel) (flight : List Transit) (k : Nat) (x : Transit) :
    (flightAfter model flight k x).Sublist flight := by
  cases model with
  | anyOrder => exact List.Sublist.refl _
  | fifoLossy =>
    have h : ((flight.take k).filter (fun e => !samePath e x) ++ flight.drop (k + 1)).Sublist
        (flight.take k ++ flight.drop k) :=
      List.filter_sublist.append (List.drop_sublist_drop_left _ (Nat.le_succ k))
    rwa [List.take_append_drop] at h

/-! ### The injector -/

/-- What the completion of a request leaves alone (R112). -/
theorem completeRequest_frame (tag : RequestTag) (s : State) :
    (completeRequest tag s).net = s.net ∧ (completeRequest tag s).inj = s.inj ∧ (completeRequest tag s).lram = s.lram
      ∧ (completeRequest tag s).arq.seqBit = s.arq.seqBit ∧ (completeRequest tag s).arq.state = s.arq.state
      ∧ (completeRequest tag s).arq.frame = s.arq.frame := by
  cases tag <;> exact ⟨rfl, rfl, rfl, rfl, rfl, rfl⟩

/-- An attempt keeps the length of the bytes it is given (R108). -/
theorem attempt_length {p : ChannelParams} {d : Draws} {b b' : Bytes} {c : Bool} {w : Word}
    (h : attempt p d b = .sent b' c w) : b'.length = b.length := by
  unfold attempt at h
  split at h
  · cases h
  · split at h
    · cases h; simp [complementAt]
    · cases h; rfl

/-! ### Where the aperture's offsets lead -/

theorem slotAt_cases (o : Nat) (l : List Slot) :
    slotAt o l = .hole ∨ (∃ sl ∈ l, o = sl.base ∧ slotAt o l = .slotLen sl)
      ∨ ∃ sl ∈ l, sl.data ≤ o ∧ o < sl.data + sl.cap ∧ slotAt o l = .slotData sl := by
  induction l with
  | nil => exact .inl rfl
  | cons sl l ih =>
    simp only [slotAt]
    split
    · exact .inr (.inl ⟨sl, by simp, ‹_›, rfl⟩)
    · split
      · rename_i h; exact .inr (.inr ⟨sl, by simp, h.1, h.2, rfl⟩)
      · rcases ih with h | ⟨t, ht, h⟩ | ⟨t, ht, h⟩
        · exact .inl h
        · exact .inr (.inl ⟨t, by simp [ht], h⟩)
        · exact .inr (.inr ⟨t, by simp [ht], h⟩)

theorem mem_of_lookup_eq_some {l : List (Nat × Reg)} {a : Nat} {b : Reg} (h : l.lookup a = some b) : (a, b) ∈ l := by
  induction l with
  | nil => cases h
  | cons p l ih =>
    obtain ⟨x, y⟩ := p
    simp only [List.lookup] at h
    split at h
    · cases h; rename_i h; rw [eq_of_beq h]; simp
    · simp [ih h]

/-- The registers lie below 0x1000 (R17). -/
theorem regMap_lookup_none {o : Nat} (h : 0x1000 ≤ o) : regMap.lookup o = none := by
  rw [List.lookup_eq_none_iff]
  intro p hp
  have hall : ∀ p ∈ regMap, p.1 < 0x1000 := by decide
  have := hall p hp
  simp; rintro rfl; omega

/-- Every offset is a register's, a word of the frame buffer, a slot's length or data word, or a hole (R17, R60, R63). -/
theorem apertureAt_cases (o : Nat) :
    (∃ r, (o, r) ∈ regMap ∧ apertureAt o = .reg r) ∨ (apertureAt o = .frame ∧ 0x4000 ≤ o ∧ o < 0x7000)
      ∨ apertureAt o = .hole ∨ (∃ sl : Slot, o = sl.base ∧ apertureAt o = .slotLen sl)
      ∨ ∃ sl : Slot, sl.data ≤ o ∧ o < sl.data + sl.cap ∧ apertureAt o = .slotData sl := by
  unfold apertureAt
  split
  · exact .inl ⟨_, mem_of_lookup_eq_some ‹_›, rfl⟩
  · split
    · rename_i h; unfold frameBase Config.frameCap at h; exact .inr (.inl ⟨rfl, by omega, by omega⟩)
    · rcases slotAt_cases o Slot.all with h | ⟨sl, -, h1, h2⟩ | ⟨sl, -, h1, h2, h3⟩
      · exact .inr (.inr (.inl h))
      · exact .inr (.inr (.inr (.inl ⟨sl, h1, h2⟩)))
      · exact .inr (.inr (.inr (.inr ⟨sl, h1, h2, h3⟩)))

/-- A word of the frame buffer (R60). -/
theorem apertureAt_frame {o : Nat} (h : 0x4000 ≤ o ∧ o < 0x7000) : apertureAt o = .frame := by
  simp only [apertureAt, regMap_lookup_none (show 0x1000 ≤ o by omega)]
  rw [if_pos (by unfold frameBase Config.frameCap; omega)]

/-- A word of a slot (R58, R60). -/
theorem apertureAt_slot {o : Nat} {sl : Slot} (h : sl.base ≤ o ∧ o < sl.data + sl.cap) (ha : o % 4 = 0) :
    apertureAt o = if o = sl.base then .slotLen sl else .slotData sl := by
  have hb := sl.below_frame
  simp only [apertureAt, regMap_lookup_none (show 0x1000 ≤ o by omega)]
  rw [if_neg (by omega)]
  have hl : ∀ l : List Slot, sl ∈ l → slotAt o l = if o = sl.base then .slotLen sl else .slotData sl := by
    intro l
    induction l with
    | nil => intro h; cases h
    | cons t l ih =>
      intro hl
      have hd : sl.data = sl.base + 4 := rfl
      by_cases e : sl = t
      · subst e
        simp only [slotAt]
        split
        · rfl
        · rw [if_pos]; have := sl.base_mod; omega
      · have := Slot.disjoint e
        have hd' : t.data = t.base + 4 := rfl
        simp only [slotAt]
        rw [if_neg (by omega), if_neg (by omega)]
        exact ih (by simpa [e] using hl)
  exact hl _ (by cases sl <;> decide)

/-! ### Host accesses -/

/-- An aligned 32-bit host write inside the aperture (R62). -/
theorem step_hostWrite {s : State} (hr : s.resetHeld = false) {o : Nat} (ho : o < 0x8000) (ha : o % 4 = 0) (v : BitVec 64)
    (rest : List Turn) :
    step { s with turns := .host (.write .w32 o v) :: rest }
      = .next { apertureWrite { s with turns := rest } o (v.setWidth 32) with bus := .written } := by
  rw [step_live hr]
  have h1 : ¬ Config.apertureSize ≤ o := by unfold Config.apertureSize; omega
  have h2 : accessOk .w32 o = true := by simp [accessOk, ha]
  simp only [liveTurn, hostAccess, h1, h2, if_false]; rfl

/-- An aligned 32-bit host read inside the aperture that answers (R62). -/
theorem step_hostRead {s : State} (hr : s.resetHeld = false) {o : Nat} (ho : o < 0x8000) (ha : o % 4 = 0) {v : Word}
    (rest : List Turn) (h : apertureRead { s with turns := rest } o = .ok v) :
    step { s with turns := .host (.read .w32 o) :: rest } = .next { s with turns := rest, bus := .data v } := by
  rw [step_live hr]
  have h1 : ¬ Config.apertureSize ≤ o := by unfold Config.apertureSize; omega
  have h2 : accessOk .w32 o = true := by simp [accessOk, ha]
  simp only [liveTurn, hostAccess, h1, h2, if_false, h]; rfl

/-- What a host access that answers can do: it changes the bus's answer alone, or it is an aligned 32-bit write (R62). -/
theorem hostAccess_cases {s t : State} {a : HostAccess} (h : hostAccess a s = .next t) :
    t = { s with bus := t.bus }
      ∨ ∃ o v, a = .write .w32 o v ∧ o < 0x8000 ∧ o % 4 = 0
        ∧ t = { apertureWrite s o (v.setWidth 32) with bus := .written } := by
  cases a with
  | read w o =>
    simp only [hostAccess] at h
    split at h
    · cases h
    · split at h
      · cases h; exact .inl rfl
      · split at h
        · cases h
        · cases h; exact .inl rfl
  | write w o v =>
    simp only [hostAccess] at h
    split at h
    · cases h
    · split at h
      · cases h; exact .inl rfl
      · rename_i h1 h2
        cases h
        simp only [accessOk, Bool.not_eq_true', Bool.not_eq_false, Bool.and_eq_true, beq_iff_eq] at h2
        exact .inr ⟨o, v, by rw [h2.1], by unfold Config.apertureSize at h1; omega, h2.2, rfl⟩

theorem isLramOffset_slot {o : Nat} {sl : Slot} (h : sl.base ≤ o ∧ o < sl.data + sl.cap) : isLramOffset o = true := by
  simp only [isLramOffset, Bool.or_eq_true, List.any_eq_true, decide_eq_true_eq]
  exact .inl ⟨sl, by cases sl <;> decide, h⟩

theorem isLramOffset_frame {o : Nat} (h : 0x4000 ≤ o ∧ o < 0x7000) : isLramOffset o = true := by
  simp only [isLramOffset, Bool.or_eq_true, decide_eq_true_eq]
  exact .inr (by unfold frameBase Config.frameCap; omega)

/-- What a write to the aperture can do: a register's write, nothing, or one word of LRAM (R17, R58, R61, R63). -/
theorem apertureWrite_cases (s : State) (o : Nat) (v : Word) (ha : o % 4 = 0) :
    (∃ r, (o, r) ∈ regMap ∧ apertureWrite s o v = regWrite s v r) ∨ apertureWrite s o v = s
      ∨ ∃ w, apertureWrite s o v = s.withLram (s.lram.write o (bytesOfWord w)) ∧ ∀ i < 4, isLramOffset (o + i) = true := by
  unfold apertureWrite
  rcases apertureAt_cases o with ⟨r, hr, h⟩ | ⟨h, h1, h2⟩ | h | ⟨sl, h1, h⟩ | ⟨sl, h1, h2, h⟩
  · rw [h]; exact .inl ⟨r, hr, rfl⟩
  · rw [h]; exact .inr (.inr ⟨v, rfl, fun i hi => isLramOffset_frame (by omega)⟩)
  · rw [h]; exact .inr (.inl rfl)
  · rw [h]; simp only []
    split
    · exact .inr (.inl rfl)
    · refine .inr (.inr ⟨_, rfl, fun i hi => isLramOffset_slot (sl := sl) ?_⟩)
      have : sl.data = sl.base + 4 := rfl; have : 4 ≤ sl.cap := by cases sl <;> decide
      omega
  · rw [h]; simp only []
    split
    · exact .inr (.inl rfl)
    · refine .inr (.inr ⟨_, rfl, fun i hi => isLramOffset_slot (sl := sl) ?_⟩)
      have : sl.data = sl.base + 4 := rfl; have := sl.cap_mod; have := sl.base_mod
      omega

/-! ### LRAM's form -/

/-- What a store lists was listed, or lies in the stored range. -/
theorem Memory.mem_store {m : Memory} {a : Nat} {bs : Bytes} {c : Host.Cell} (h : c ∈ m.store a bs) :
    c ∈ m ∨ a ≤ c.1 ∧ c.1 < a + bs.length := by
  simp only [Memory.store, List.mem_append, List.mem_filter] at h
  rcases h with (h | h) | h
  · exact .inl h.1
  · exact .inr (mem_cellsAt h)
  · exact .inl h.1

/-- Whole words, by reading (R41). -/
theorem Memory.wholeWords_iff {m : Memory} :
    m.wholeWords ↔ ∀ a, (m.read a).isSome = true → ∀ i < 4, (m.read (a / 4 * 4 + i)).isSome = true := by
  have key : ∀ a, (m.read a).isSome = true ↔ ∃ c ∈ m, c.1 = a := by
    intro a
    simp only [Memory.read, Option.isSome_map, List.find?_isSome, beq_iff_eq]
  unfold Memory.wholeWords
  constructor
  · intro h a ha i hi
    obtain ⟨c, hc, rfl⟩ := (key a).1 ha
    exact h c hc i (by
      have : i = 0 ∨ i = 1 ∨ i = 2 ∨ i = 3 := by omega
      simp; omega)
  · intro h c hc i hi
    exact h c.1 ((key _).2 ⟨c, hc, rfl⟩) i (by simp at hi; omega)

/-- A word-aligned write keeps LRAM written word by word (R41, R186). -/
theorem Memory.write_wholeWords {m : Memory} (h : m.wholeWords) {a : Nat} (ha : a % 4 = 0) (bs : Bytes) :
    (m.write a bs).wholeWords := by
  rw [Memory.wholeWords_iff] at h ⊢
  have inside : ∀ x, a ≤ x → x < a + bs.length + wordPad bs.length → ((m.write a bs).read x).isSome = true := by
    intro x h1 h2
    by_cases h3 : x < a + bs.length
    · rw [Memory.read_write_inside _ _ _ _ ⟨h1, h3⟩]
      simp; omega
    · rw [Memory.read_write_pad _ _ _ _ ⟨by omega, h2⟩]; rfl
  intro x hx i hi
  have hp : (bs.length + wordPad bs.length) % 4 = 0 := by unfold wordPad; omega
  by_cases h1 : a ≤ x ∧ x < a + bs.length + wordPad bs.length
  · apply inside <;> omega
  · rw [Memory.read_write_outside _ _ _ _ (by omega)] at hx
    by_cases h2 : a ≤ x / 4 * 4 + i ∧ x / 4 * 4 + i < a + bs.length + wordPad bs.length
    · exact inside _ h2.1 h2.2
    · rw [Memory.read_write_outside _ _ _ _ (by omega)]; exact h x hx i hi

/-- What a write lists was listed, or lies in the words written. -/
theorem Memory.mem_write {m : Memory} {a : Nat} {bs : Bytes} {c : Host.Cell} (h : c ∈ m.write a bs) :
    c ∈ m ∨ a ≤ c.1 ∧ c.1 < a + bs.length + wordPad bs.length := by
  rcases Memory.mem_store h with h | h
  · exact .inl h
  · simp only [List.length_append, Memory.fill_length] at h; exact .inr (by omega)

end Sys2Proof.Machine
end

