-- ==== Sys2Proof/Tests/Slice0.lean ====
section
/-! SUPPORT. Tests of the model against the vectors of spec/95_test_vectors.md (named in each test's comment), the smoke test of
WellFormed, the command words written out from 30_encoding.md R84, and, for each statement with hypotheses, concrete states and
operands that meet them together (`test_witness_<statement>`). -/

namespace Sys2Proof.Tests

open Sys2Proof Sys2Proof.Machine

set_option maxRecDepth 100000
set_option Elab.async false

/-! ### Helpers -/

/-- The text of a frame, a brace written as a parenthesis. -/
def braced (s : String) : Bytes :=
  s.toByteArray.data.toList.map fun b =>
    if b.toBitVec = 0x28#8 then 0x7B#8 else if b.toBitVec = 0x29#8 then 0x7D#8 else b.toBitVec

/-- The next state of an outcome. -/
def after : Host.Outcome State Fault Refusal → Option State
  | .next s => some s
  | .fault _ => none
  | .refused _ => none

/-- What is seen of the next state of an outcome is seen of a next state. -/
theorem next_of_after {α : Type} {o : Host.Outcome State Fault Refusal} {f : State → α} {a : α}
    (h : (after o).map f = some a) : ∃ t, o = .next t ∧ f t = a := by
  cases o with
  | next t => exact ⟨t, rfl, Option.some.inj h⟩
  | fault _ => cases h
  | refused _ => cases h

/-- The fault of an outcome. -/
def faultOf : Host.Outcome State Fault Refusal → Option Fault
  | .fault f => some f
  | .next _ => none
  | .refused _ => none

/-- A state after host writes. -/
def poke (s : State) (l : List HostAccess) : State :=
  l.foldl (fun s a =>
    match a with
    | .write _ o v => apertureWrite s o (v.setWidth 32)
    | .read _ _ => s) s

/-- Reset, with `b` in the workspace frame buffer. -/
def frameState (b : Bytes) : State :=
  { State.reset with ws := { State.reset.ws with frameLen := BitVec.ofNat 16 b.length }, lram := cellsAt 0x4000 b }

/-- A frame from MAC/VIP client to server (V-RX). -/
def clientFrame (seq : SeqBit) (isAck : Bool) (ttl : Word) (p : Option Message) : Frame :=
  { srcPhys := ascii "mac-client", dstPhys := ascii "mac-server", checksum := 0#32,
    pkt := { srcLog := ascii "vip-client", dstLog := ascii "vip-server", ttl := ttl,
             seg := { seq := seq, isAck := isAck, payload := p } } }

/-- The message of program P-2. -/
def hi : Message := { type := ascii "chat", senderAddr := ascii "vip-client", text := ascii "hi", ts := 1700000000#64 }

/-- A frame with its computed checksum (R117). -/
def sealed (f : Frame) : Frame := { f with checksum := crc32 (canon f) }

/-- The minimal frame value of V-CODEC-1. -/
def emptyFrame : Frame :=
  { srcPhys := [], dstPhys := [], checksum := 0#32,
    pkt := { srcLog := [], dstLog := [], ttl := 0#32, seg := { seq := 0#1, isAck := false, payload := none } } }

/-- Server B of V-RX: its identity slots written, no latency. -/
def serverState : State :=
  poke State.reset (hostWstr .myPhys (ascii "mac-server") ++ hostWstr .myLog (ascii "vip-server"))

/-- Server B with one datagram in its RXQ. -/
def rxState (b : Bytes) : State :=
  { serverState with rx := { serverState.rx with rxq := [{ bytes := b, src := { ip := 0x0A000001#32, port := 5001#16 } }] } }

/-- Client A of program P-2: identity and TXM slots written. -/
def clientState : State :=
  poke State.reset (hostWstr .myPhys (ascii "mac-client") ++ hostWstr .myLog (ascii "vip-client")
    ++ hostWstr .peerPhys (ascii "mac-server") ++ hostWstr .peerLog (ascii "vip-server") ++ hostWstr .txmType (ascii "chat")
    ++ hostWstr .txmSender (ascii "vip-client") ++ hostWstr .txmText (ascii "hi") ++ hostW64 0x060 1700000000#64)

/-- Client A with its session open and SEND's first transmission done (STATUS 0x72). -/
def openState : State :=
  { clientState with
    arq := { clientState.arq with state := .awaitingAck, timerRun := true, timerRemain := 2500#32, frame := ascii "frame" } }

/-- The workspace with every string empty. -/
def emptyWorkspace : State :=
  poke State.reset (hostW 0x1800 0#32 :: hostW 0x1880 0#32 :: hostW 0x1900 0#32 :: [hostW 0x1980 0#32])

/-- A block with an injector queue. -/
def queueState (p : ChannelParams) (b : Bytes) (tag : RequestTag) : State :=
  { State.reset with
    cfg := { State.reset.cfg with channel := p },
    inj := { State.reset.inj with txq := [{ bytes := b, dst := { ip := 0x0A000002#32, port := 5002#16 }, tag := tag }] } }

/-! ### Well-formedness: an ill-formed term for each check -/

theorem test_wf_commands : ∀ i ∈ [Instr.nop, .encode, .decode, .crc32, .mkpkt, .ttlchk, .xmit, .send, .rxpop], i.wf = true := by
  decide

theorem test_wf_accepts_capacity : Frame.wf
    { srcPhys := List.replicate 64 1#8, dstPhys := List.replicate 64 1#8, checksum := 0#32,
      pkt := { srcLog := List.replicate 64 1#8, dstLog := List.replicate 64 1#8, ttl := 0#32,
               seg := { seq := 0#1, isAck := true,
                        payload := some { type := List.replicate 32 1#8, senderAddr := List.replicate 64 1#8,
                                          text := List.replicate 1024 1#8, ts := 0#64 } } } } = true := by decide +kernel

theorem test_wf_refuses_long_type : Message.wf { hi with type := List.replicate 33 1#8 } = false := by decide +kernel
theorem test_wf_refuses_long_sender : Message.wf { hi with senderAddr := List.replicate 65 1#8 } = false := by decide +kernel
theorem test_wf_refuses_long_text : Message.wf { hi with text := List.replicate 1025 1#8 } = false := by decide +kernel
theorem test_wf_refuses_long_srcLog : Packet.wf { emptyFrame.pkt with srcLog := List.replicate 65 1#8 } = false := by
  decide +kernel
theorem test_wf_refuses_long_dstLog : Packet.wf { emptyFrame.pkt with dstLog := List.replicate 65 1#8 } = false := by
  decide +kernel
theorem test_wf_refuses_long_payload : Packet.wf
    { emptyFrame.pkt with seg := { seq := 0#1, isAck := false, payload := some { hi with type := List.replicate 33 1#8 } } }
      = false := by decide +kernel
theorem test_wf_refuses_long_srcPhys : Frame.wf { emptyFrame with srcPhys := List.replicate 65 1#8 } = false := by
  decide +kernel
theorem test_wf_refuses_long_dstPhys : Frame.wf { emptyFrame with dstPhys := List.replicate 65 1#8 } = false := by
  decide +kernel
theorem test_wf_refuses_rsvd_word : commandWordWf 0x00000107#32 = false := by decide
theorem test_wf_refuses_reserved_opcode : commandWordWf 0x00000009#32 = false ∧ commandWordWf 0x00000008#32 = true := by decide

/-! ### Command words, bit by bit (R84); illegal words by name (R85, V-ENC-1) -/

theorem test_decode_nop : decode 0b00000000000000000000000000000000#32 = .ok .nop := by decide
theorem test_decode_encode : decode 0b00000000000000000000000000000001#32 = .ok .encode := by decide
theorem test_decode_decode : decode 0b00000000000000000000000000000010#32 = .ok .decode := by decide
theorem test_decode_crc32 : decode 0b00000000000000000000000000000011#32 = .ok .crc32 := by decide
theorem test_decode_mkpkt : decode 0b00000000000000000000000000000100#32 = .ok .mkpkt := by decide
theorem test_decode_ttlchk : decode 0b00000000000000000000000000000101#32 = .ok .ttlchk := by decide
theorem test_decode_xmit : decode 0b00000000000000000000000000000110#32 = .ok .xmit := by decide
theorem test_decode_send : decode 0b00000000000000000000000000000111#32 = .ok .send := by decide
theorem test_decode_rxpop : decode 0b00000000000000000000000000001000#32 = .ok .rxpop := by decide
theorem test_decode_reserved : decode 0x00000009#32 = .error (.reservedOpcode 0x09#8)
    ∧ decode 0x000000FF#32 = .error (.reservedOpcode 0xFF#8) := by decide
theorem test_decode_rsvd : decode 0x00000107#32 = .error (.rsvdBits 1#24)
    ∧ decode 0x80000001#32 = .error (.rsvdBits 0x800000#24) := by decide
theorem test_table_word : decodeTableWord 32 7 = some .send ∧ decodeTableWord 8 0x107 = some .send
    ∧ decodeTableWord 32 0x107 = none := by decide

/-! ### The commands, one step each -/

/-- R165's example: RESULT 0, IRQ_PEND.CMD_DONE. -/
theorem test_nop : (after (step (State.reset.withFetchWord 32 0))).map (fun t => (regRead t .result, regRead t .irqPend, t.busy))
    = some (0x00000000#32, 0x00000001#32, false) := by decide +kernel

/-- V-PKT-1. -/
theorem test_mkpkt : (after (step (State.reset.withFetchWord 32 4))).map (fun t => (regRead t .result, regRead t .wsTtl))
    = some (0x00040000#32, 10#32) := by decide +kernel

/-- V-PKT-4, V-PKT-6. -/
theorem test_ttlchk : (after (exec .ttlchk State.reset)).map (regRead · .result) = some 0x00050000#32
    ∧ (after (exec .ttlchk (regWrite State.reset 0xFFFFFFFF#32 .wsTtl))).map (regRead · .result) = some 0x00050100#32 := by
  decide +kernel

/-- V-RXPOP. -/
theorem test_rxpop : (after (exec .rxpop { State.reset with rx := { State.reset.rx with rxmFull := true } })).map
    (fun t => (regRead t .result, t.rx.rxmFull)) = some (0x00080000#32, false) := by decide +kernel

/-- V-RXPOP, the empty slot. -/
theorem test_rxpop_empty : (after (step (State.reset.withFetchWord 32 8))).map (regRead · .result) = some 0x00080002#32 := by
  decide +kernel

/-- V-CRC-2. -/
theorem test_crc32 : (after (exec .crc32 (frameState (ascii "123456789")))).map
    (fun t => (regRead t .crcOut, regRead t .result)) = some (0xCBF43926#32, 0x00030000#32) := by decide +kernel

/-- V-CODEC-1: ENCODE of the empty workspace. -/
theorem test_encode : (after (exec .encode emptyWorkspace)).map
    (fun t => (regRead t .wsFrameLen, regRead t .wsChecksum, regRead t .crcOut, regRead t .result))
      = some (187#32, 0x658E52E5#32, 0x658E52E5#32, 0x00010000#32) := by decide +kernel

/-- V-CTL-3: ENCODE with LEN(WS_SRC_PHYS) = 65. -/
theorem test_encode_long : (after (step ((poke emptyWorkspace [hostW 0x1800 65#32]).withFetchWord 32 1))).map
    (fun t => (regRead t .result, regRead t .wsFrameLen)) = some (0x00010003#32, 0#32) := by decide +kernel

/-- V-DEC-1: the bytes of V-CODEC-1. -/
theorem test_decode_valid : (after (exec .decode (frameState (wire (sealed emptyFrame))))).map
    (fun t => (regRead t .result, regRead t .crcOut, regRead t .wsChecksum))
      = some (0x00020300#32, 0x658E52E5#32, 0x658E52E5#32) := by decide +kernel

/-- V-DEC-1: the ttl digit changed to 1. -/
theorem test_decode_mismatch : (after (exec .decode (frameState (frameT { emptyFrame with
    pkt := { emptyFrame.pkt with ttl := 1#32 } } 0x658E52E5#32)))).map
    (fun t => (regRead t .result, regRead t .crcOut, regRead t .wsTtl)) = some (0x00020204#32, 0x8D99C244#32, 1#32) := by
  decide +kernel

/-- R113's example: the buffer goes to the queue; STATUS shows BUSY and TXQ_COUNT = 1. -/
theorem test_xmit : (after (exec .xmit { frameState (ascii "xy") with cmd := { phase := .exec, word := 6#32, opc := 6#8 } })).map
    (fun t => (t.inj.txq, t.statusWord))
      = some ([{ bytes := ascii "xy", dst := { ip := 0#32, port := 0#16 }, tag := .cmdXmit }], 0x00000161#32) := by
  decide +kernel

/-- R113: an empty datagram is queued. -/
theorem test_xmit_empty : (after (exec .xmit (frameState []))).map (fun t => (t.inj.txq.length, t.cmd.phase))
    = some (1, CmdPhase.waitInj) := by decide +kernel

/-- V-ARQ-2: 314 bytes queued, STATUS 0x00010163. -/
theorem test_send : (after (step (clientState.withFetchWord 32 7))).map (fun t => (t.arq.frame.length, t.statusWord))
    = some (314, 0x00010163#32) := by decide +kernel

/-- V-ARQ-9: a second SEND. -/
theorem test_send_open : (after (step (openState.withFetchWord 32 7))).map (fun t => (regRead t .result, t.statusWord))
    = some (0x00070002#32, 0x00000072#32) := by decide +kernel

/-- V-ENC-1: illegal words. -/
theorem test_illegal : (after (step (State.reset.withFetchWord 32 0x107))).map (regRead · .result) = some 0x00070001#32
    ∧ (after (step (State.reset.withFetchWord 32 0xFFFFFFFF))).map (regRead · .result) = some 0x00FF0001#32 := by
  decide +kernel

/-- V-ENC-1: ENCODE from a bare reset faults. -/
theorem test_encode_unwritten : faultOf (step (State.reset.withFetchWord 32 1)) = some (.unwrittenLram 0x1800) := by
  decide +kernel

/-! ### The codec -/

/-- V-CRC-1. -/
theorem test_crc : crc32 [] = 0#32 ∧ crc32 (ascii "a") = 0xE8B7BE43#32 ∧ crc32 (ascii "abc") = 0x352441C2#32
    ∧ crc32 (ascii "hi") = 0xD8932AAC#32 := by decide +kernel

/-- V-ENC-2. -/
theorem test_strings : strT (ascii "a\"b") = ascii "\"a\\\"b\"" ∧ strT [0x5C#8] = ascii "\"\\\\\""
    ∧ strT [0x08#8, 0x0C#8, 0x0D#8] = ascii "\"\\b\\f\\r\"" ∧ strT [0x0A#8, 0x09#8] = ascii "\"\\n\\t\""
    ∧ strT [0x1F#8] = ascii "\"\\u001f\"" ∧ strT [0x7F#8, 0xE9#8] = ascii "\"\\u007f\\u00e9\""
    ∧ strT [0x2F#8, 0x7E#8] = ascii "\"/~\"" := by decide +kernel

/-- V-ENC-3. -/
theorem test_numbers : dec 0 = ascii "0" ∧ dec 10 = ascii "10" ∧ dec 4294967295 = ascii "4294967295"
    ∧ dec 18446744073709551615 = ascii "18446744073709551615" := by decide +kernel

/-- V-CODEC-1's wire form. -/
theorem test_wire_empty : wire (sealed emptyFrame) = braced ("(\"checksum\": 1703826149, \"data\": (\"data\": (\"isAck\": false, " ++
    "\"payload\": null, \"sequenceBit\": 0), \"dstLogicalAddr\": \"\", \"srcLogicalAddr\": \"\", \"ttl\": 0), " ++
    "\"dstPhysAddr\": \"\", \"srcPhysAddr\": \"\")") := by decide +kernel

/-- V-CODEC-3's wire form: every kind of token, with escapes. -/
theorem test_wire_message : wire (sealed (clientFrame 0#1 false 10#32 (some { hi with
      text := ascii "say \"hi\"" ++ [0x0A#8, 0x09#8] ++ ascii "caf" ++ [0xE9#8, 0x20#8, 0x5C#8] })))
    = braced ("(\"checksum\": 3817870105, \"data\": (\"data\": (\"isAck\": false, \"payload\": (\"senderAddr\": \"vip-client\", " ++
      "\"text\": \"say \\\"hi\\\"\\n\\tcaf\\u00e9 \\\\\", \"timestampSeconds\": 1700000000, \"type\": \"chat\"), " ++
      "\"sequenceBit\": 0), \"dstLogicalAddr\": \"vip-server\", \"srcLogicalAddr\": \"vip-client\", \"ttl\": 10), " ++
      "\"dstPhysAddr\": \"mac-server\", \"srcPhysAddr\": \"mac-client\")") := by decide +kernel

/-- V-ENC-4: rows that fail to parse, and the last row, which parses with another checksum. -/
theorem test_parse_strict : parse [] = none ∧ parse (wire emptyFrame ++ [0x0A#8]) = none
    ∧ parse (braced ("(\"checksum\":0, \"data\": (\"data\": (\"isAck\": false, \"payload\": null, \"sequenceBit\": 0), " ++
      "\"dstLogicalAddr\": \"\", \"srcLogicalAddr\": \"\", \"ttl\": 0), \"dstPhysAddr\": \"\", \"srcPhysAddr\": \"\")")) = none
    ∧ parse (braced ("(\"checksum\": 0, \"data\": (\"data\": (\"isAck\": false, \"payload\": null, \"sequenceBit\": 0), " ++
      "\"dstLogicalAddr\": \"\", \"srcLogicalAddr\": \"\", \"ttl\": 00), \"dstPhysAddr\": \"\", \"srcPhysAddr\": \"\")")) = none
    ∧ parse (braced ("(\"checksum\": 0, \"data\": (\"data\": (\"isAck\": false, \"payload\": null, \"sequenceBit\": 0), " ++
      "\"dstLogicalAddr\": \"\", \"srcLogicalAddr\": \"\", \"ttl\": 4294967296), \"dstPhysAddr\": \"\", \"srcPhysAddr\": \"\")")) = none
    ∧ parse (braced ("(\"checksum\": 0, \"data\": (\"data\": (\"isAck\": false, \"payload\": null, \"sequenceBit\": 0), " ++
      "\"dstLogicalAddr\": \"\", \"srcLogicalAddr\": \"\", \"ttl\": 0), \"dstPhysAddr\": \"\\u00E9\", \"srcPhysAddr\": \"\")")) = none
    ∧ parse (braced ("(\"checksum\": 0, \"data\": (\"data\": (\"isAck\": false, \"payload\": null, \"sequenceBit\": 0), " ++
      "\"dstLogicalAddr\": \"\", \"srcLogicalAddr\": \"\", \"ttl\": 0), \"dstPhysAddr\": \"\", \"srcPhysAddr\": \"\")")) = some emptyFrame := by
  decide +kernel

/-- V-CODEC-2 and V-RX-18: the ACK of a data segment with bit 1. -/
theorem test_ack_bytes : (encodeAlg (ascii "mac-server") (ascii "mac-client")
    (ackPacket (clientFrame 1#1 false 10#32 (some hi)) (ascii "vip-server") 10#32)) =
    (braced ("(\"checksum\": 2297857666, \"data\": (\"data\": (\"isAck\": true, \"payload\": null, \"sequenceBit\": 1), " ++
      "\"dstLogicalAddr\": \"vip-client\", \"srcLogicalAddr\": \"vip-server\", \"ttl\": 10), " ++
      "\"dstPhysAddr\": \"mac-client\", \"srcPhysAddr\": \"mac-server\")"), 0x88F68682#32) := by decide +kernel

/-! ### Registers and LRAM -/

/-- V-MEM-1: the map's first registers from reset. -/
theorem test_reset_reads : [0x000, 0x004, 0x00C, 0x010, 0x020, 0x028, 0x02C, 0x030, 0x034].map (apertureRead State.reset)
    = [.ok 0x4D4E4331#32, .ok 1#32, .ok 0x60#32, .ok 0#32, .ok 0x3333#32, .ok 0x64#32, .ok 0x1F4#32, .ok 0x9C4#32, .ok 0xA#32] := by
  decide +kernel

/-- V-MEM-3: what WSTR expands to, and reading the length back. -/
theorem test_wstr : hostWstr .myPhys (ascii "mac-client")
      = [hostW 0x1000 0xA#32, hostW 0x1004 0x2D63616D#32, hostW 0x1008 0x65696C63#32, hostW 0x100C 0x746E#32]
    ∧ apertureRead clientState 0x1000 = .ok 0xA#32 := by decide +kernel

/-- V-MEM-4. -/
theorem test_length_word : apertureRead (poke State.reset [hostW 0x1000 0xABCD0041#32]) 0x1000 = .ok 0x41#32 := by decide +kernel

/-- V-MEM-5. -/
theorem test_holes : ∀ o ∈ [0x074, 0x0BC, 0x0C4, 0x0FFC, 0x1044, 0x2700, 0x7FFC],
    apertureRead State.reset o = .ok 0#32 ∧ apertureWrite State.reset o 0xFFFFFFFF#32 = State.reset := by decide +kernel

/-- V-MEM-7. -/
theorem test_irq_clear : regRead (regWrite { State.reset with irqPend := 0x15#6 } 5#32 .irqPend) .irqPend = 0x10#32 := by
  decide +kernel

/-- V-MEM-9: an unwritten RXM word faults; the host's write to it is ignored. -/
theorem test_rxm_unwritten : apertureRead (poke State.reset [hostW 0x2100 5#32]) 0x2100 = .error (.unwrittenLram 0x2100) := by
  decide +kernel

/-- V-IRQ-3, V-IRQ-4. -/
theorem test_irq_output : State.irqOutput { State.reset with irqPend := 5#6, irqEn := 4#6 } = true
    ∧ State.irqOutput { State.reset with irqPend := 5#6, irqEn := 2#6 } = false := by decide +kernel

/-- P-4 step 17: SRST and RX_EN together. -/
theorem test_soft_reset : (fun t => (regRead t .ctrl, regRead t .latMin, regRead t .irqPend, t.statusWord))
    (regWrite (poke { openState with irqPend := 0x21#6 } [hostW 0x028 500#32]) 3#32 .ctrl)
      = (1#32, 500#32, 0#32, 0x60#32) := by decide +kernel

/-! ### The agents -/

/-- V-INJ-1: lost below the threshold; SEND's first transmission ends (V-ARQ-3). -/
theorem test_inj_lost : (fun t => (regRead t (.cnt .loss), regRead t .result, regRead t .timerRemain, t.inj.serving))
    (injStart { loss := 0x3332#16, corrupt := 0#16, pos := 0, delay := 0 }
      (queueState { pLoss := 0x3333#17, pCorrupt := 0x3333#17, latMin := 100#32, latMax := 500#32 } [0x7B#8] .arqSend))
      = (1#32, 0x00070000#32, 2500#32, none) := by decide +kernel

/-- V-INJ-3: byte 0 complemented, delay 500. -/
theorem test_inj_corrupt : (fun t => (t.inj.serving.map (·.bytes), t.inj.delay, regRead t (.cnt .corrupt)))
    (injStart { loss := 0xFFFF#16, corrupt := 0#16, pos := 0, delay := 500 }
      (queueState { pLoss := 0x3333#17, pCorrupt := 0x3333#17, latMin := 100#32, latMax := 500#32 } [0x7B#8, 0x7D#8] .cmdXmit))
      = (some [0x84#8, 0x7D#8], 500#32, 1#32) := by decide +kernel

/-- V-INJ-9 and V-INJ-10: no corruption draw for an empty datagram; the bounds swapped. -/
theorem test_inj_empty : (fun t => (t.inj.serving.map (·.bytes), t.inj.delay, regRead t (.cnt .corrupt)))
    (injStart { loss := 0xFFFF#16, corrupt := 0#16, pos := 0, delay := 300 }
      (queueState { pLoss := 0#17, pCorrupt := 0x10000#17, latMin := 500#32, latMax := 200#32 } [] .cmdXmit))
      = (some [], 300#32, 0#32) := by decide +kernel

/-- V-INJ-7: P_LOSS above 0x10000 loses every request. -/
theorem test_inj_always_lost : attempt { pLoss := 0x1FFFF#17, pCorrupt := 0#17, latMin := 0#32, latMax := 0#32 }
    { loss := 0xFFFF#16, corrupt := 0xFFFF#16, pos := 0, delay := 0 } [1#8] = .lost := by decide +kernel

/-- V-ARQ-8: the session completes. -/
theorem test_arq_complete : (fun t => (t.statusWord, regRead t .irqPend))
    (arqComplete { openState with arq := { openState.arq with ackLatch := true } }) = (0x6C#32, 2#32) := by decide +kernel

/-- V-ARQ-4: the timeout's transmission. -/
theorem test_arq_timeout : (fun t => (t.statusWord, regRead t (.cnt .retx), regRead t .irqPend, t.inj.txq.map (·.bytes)))
    (arqTimeout { openState with arq := { openState.arq with timerRemain := 0#32 } })
      = (0x10162#32, 1#32, 8#32, [ascii "frame"]) := by decide +kernel

/-- V-RX-7: a new data segment is delivered. -/
theorem test_rx_deliver : (after (rxeTake (rxState (wire (sealed (clientFrame 0#1 false 10#32 (some hi))))))).map
    (fun t => (t.lram.slotRead .rxmText, t.lram.slotRead .rxmSrcLog, regRead t .rxmTsLo, regRead t .rxmInfo, regRead t .irqPend))
      = some (.ok (ascii "hi"), .ok (ascii "vip-client"), 0x6553F100#32, 1#32, 4#32) := by decide +kernel

/-- V-RX-8: a duplicate is acknowledged. -/
theorem test_rx_duplicate : (after (rxeTake ((fun s => { s with rx := { s.rx with lastAcc := some 0#1 } })
      (rxState (wire (sealed (clientFrame 0#1 false 10#32 (some hi)))))))).map
    (fun t => (regRead t (.cnt .rxDup), regRead t (.cnt .ackTx), regRead t .dropCause, t.rx.rxWait))
      = some (1#32, 1#32, 0#32, true) := by decide +kernel

/-- V-RX-6: ttl 0; V-RX-4: a corrupted byte. -/
theorem test_rx_gates :
    (after (rxeTake (rxState (wire (sealed (clientFrame 0#1 false 0#32 (some hi))))))).map
      (fun t => (regRead t .dropCause, regRead t .irqPend)) = some (2#32, 0x10#32)
    ∧ (after (rxeTake (rxState (complementAt (wire (sealed (clientFrame 0#1 false 10#32 (some hi)))) 20)))).map
      (fun t => (regRead t .dropCause, regRead t (.cnt .rxIntegrity))) = some (1#32, 1#32) := by decide +kernel

/-- V-RT-1, V-RT-2, V-RT-3. -/
theorem test_router :
    let routes := [(ascii "vip-server", ({ ip := 7#32, port := 9#16 } : Endpoint))]
    routerDecide .originalBytes routes (wire (sealed (clientFrame 0#1 false 1#32 none))) = none
    ∧ routerDecide .originalBytes routes (wire (sealed (clientFrame 0#1 false 0#32 none))) = none
    ∧ routerDecide .reencode routes (wire (sealed (clientFrame 0#1 false 10#32 (some hi))))
        = some ({ ip := 7#32, port := 9#16 }, wire (sealed (clientFrame 0#1 false 9#32 (some hi)))) := by decide +kernel

/-- R75: one emitter's earlier datagram to the same destination is not delivered after a later one, whatever source endpoints
they show; another emitter's still is. -/
theorem test_fifo_by_emitter :
    let d (e : Emitter) (ip : Word) : Transit :=
      { emitter := e, datagram := { bytes := [], dst := default, src := { ip := ip, port := 0#16 } } }
    flightAfter .fifoLossy [d .block 0#32, d (.other 0) 1#32, d .block 1#32] 2 (d .block 1#32) = [d (.other 0) 1#32] := by
  decide

/-- A router starts with nothing to emit (assumption log 19). -/
theorem test_wire_starts_routers_idle :
    (wireNet default [{ (default : Router) with txq := [default], serving := some default, delay := 5#32 }] State.reset).net.routers
      = [{ (default : Router) with txq := [], serving := none, delay := 0#32 }] := by decide

/-! ### Witnesses: states and operands that meet each statement's hypotheses together -/

/-- What the reads of `frameState b` answer. -/
theorem frameState_reads (b : Bytes) : ∀ i < b.length, (frameState b).lram.read (0x4000 + i) = b[i]? := by
  intro i hi
  show Memory.read (cellsAt 0x4000 b) _ = _
  rw [Memory.read_cellsAt, if_pos (by omega)]
  congr 1; omega

/-- The length register of `frameState b`. -/
theorem frameState_len {b : Bytes} (h : b.length ≤ 12288) : (frameState b).ws.frameLen.toNat = b.length := by
  simp only [frameState, BitVec.toNat_ofNat]; omega

/-- A full frame buffer. -/
def fullBuffer : Bytes := List.replicate 12288 0x31#8

theorem fullBuffer_length : fullBuffer.length = 12288 := List.length_replicate

/-- WS_FRAME_LEN one above FRAME_CAP. -/
def overState : State := { State.reset with ws := { State.reset.ws with frameLen := 0x3001#16 } }

/-- What the statements about the frame buffer ask of a state and its bytes. -/
def buffered (s : State) (b : Bytes) : Prop :=
  s.ws.frameLen.toNat ≤ 12288 ∧ b.length = s.ws.frameLen.toNat ∧ ∀ i < b.length, s.lram.read (0x4000 + i) = b[i]?

theorem frameState_buffered {b : Bytes} (h : b.length ≤ 12288) : buffered (frameState b) b :=
  ⟨by rw [frameState_len h]; exact h, (frameState_len h).symm, frameState_reads b⟩

theorem test_witness_StepRunsDecodedCommand : ∃ (s : State) (i : Instr) (rest : List Turn),
    s.resetHeld = false ∧ s.turns = .cmdExec :: rest ∧ s.cmd.phase = .exec ∧ decode s.cmd.word = .ok i :=
  ⟨State.reset.withFetchWord 32 8, .rxpop, [], rfl, rfl, rfl, by decide⟩

/-- The reserved opcodes' two ends, and the lowest RSVD bit. -/
theorem test_witness_IllegalWordCompletes : ∀ n ∈ [0x00000009, 0x000000FF, 0x00000100], ∃ s : State,
    s.resetHeld = false ∧ s.cmd.phase = .exec ∧ s.cmd.word = BitVec.ofNat 32 n
      ∧ (s.cmd.word.extractLsb' 8 24 ≠ 0#24 ∨ 0x09 ≤ (s.cmd.word.extractLsb' 0 8).toNat) :=
  fun n hn => ⟨State.reset.withFetchWord 32 n, rfl, rfl, by revert n; decide +kernel⟩

theorem test_witness_RxpopReleasesSlot : ∀ b : Bool, ∃ s : State, s.rx.rxmFull = b :=
  fun b => ⟨{ State.reset with rx := { State.reset.rx with rxmFull := b } }, rfl⟩

/-- The full frame buffer, 12288 bytes, and WS_FRAME_LEN one above it. -/
theorem test_witness_Crc32ChecksumsFrameBuffer : buffered (frameState fullBuffer) fullBuffer ∧ fullBuffer.length = 12288
    ∧ overState.ws.frameLen.toNat = 12289 :=
  ⟨frameState_buffered (by rw [fullBuffer_length]), fullBuffer_length, rfl⟩

/-- The empty datagram, and the bytes of V-CODEC-1 less the last. -/
theorem test_witness_DecodeRejectsWithoutWriting :
    (∀ b ∈ [[], (wire (sealed emptyFrame)).dropLast], buffered (frameState b) b ∧ parse b = none)
    ∧ overState.ws.frameLen.toNat = 12289 := by
  refine ⟨fun b hb => ⟨frameState_buffered ?_, ?_⟩, rfl⟩ <;> revert b <;> decide +kernel

/-- A valid frame, and a frame whose claimed checksum is wrong. -/
theorem test_witness_DecodeWritesMessageFrame :
    ∀ f ∈ [sealed (clientFrame 1#1 false 10#32 (some hi)), clientFrame 1#1 false 10#32 (some hi)],
      buffered (frameState (wire f)) (wire f) ∧ parse (wire f) = some f ∧ f.pkt.seg.payload = some hi := by
  refine fun f hf => ⟨frameState_buffered ?_, ?_, ?_⟩ <;> revert f <;> decide +kernel

theorem test_witness_DecodeWritesNullPayloadFrame :
    ∀ f ∈ [sealed emptyFrame, emptyFrame],
      buffered (frameState (wire f)) (wire f) ∧ parse (wire f) = some f ∧ f.pkt.seg.payload = none := by
  refine fun f hf => ⟨frameState_buffered ?_, ?_, ?_⟩ <;> revert f <;> decide +kernel

/-- A workspace with strings at their capacities. -/
def fullWorkspace : State :=
  poke emptyWorkspace (hostWstr .wsSrcPhys (List.replicate 64 1#8) ++ hostWstr .wsType (List.replicate 32 2#8)
    ++ hostWstr .wsSender (ascii "vip-client") ++ hostWstr .wsText (ascii "hi") ++ [hostW 0x04C 4#32])

/-- Strings at capacity with a message; empty strings without one. -/
theorem test_witness_EncodeWritesFrame :
    (fullWorkspace.lram.holds .wsSrcPhys (List.replicate 64 1#8) ∧ fullWorkspace.lram.holds .wsDstPhys []
      ∧ fullWorkspace.lram.holds .wsSrcLog [] ∧ fullWorkspace.lram.holds .wsDstLog [] ∧ fullWorkspace.ws.seg.getLsbD 2 = true
      ∧ fullWorkspace.lram.holds .wsType (List.replicate 32 2#8) ∧ fullWorkspace.lram.holds .wsSender (ascii "vip-client")
      ∧ fullWorkspace.lram.holds .wsText (ascii "hi") ∧ 0#64 = fullWorkspace.ws.tsHi ++ fullWorkspace.ws.tsLo)
    ∧ emptyWorkspace.lram.holds .wsSrcPhys [] ∧ emptyWorkspace.lram.holds .wsDstPhys []
      ∧ emptyWorkspace.lram.holds .wsSrcLog [] ∧ emptyWorkspace.lram.holds .wsDstLog []
      ∧ emptyWorkspace.ws.seg.getLsbD 2 = false := by
  unfold Memory.holds; and_intros <;> decide +kernel

/-- One above the capacity of an address slot. -/
def longAddress : State := poke emptyWorkspace [hostW 0x1980 65#32]

/-- One above the capacity of WS_TEXT, with a message. -/
def longText : State := poke fullWorkspace [hostW 0x1B00 1025#32]

theorem test_witness_EncodeRefusesLongSlots :
    (longAddress.ws.seg.getLsbD 2 = false
      ∧ [Slot.wsSrcPhys, .wsDstPhys, .wsSrcLog, .wsDstLog].map longAddress.lram.slotLen = [.ok 0, .ok 0, .ok 0, .ok 65]
      ∧ Slot.cap .wsDstLog < 65)
    ∧ longText.ws.seg.getLsbD 2 = true
      ∧ [Slot.wsSrcPhys, .wsDstPhys, .wsSrcLog, .wsDstLog, .wsType, .wsSender, .wsText].map longText.lram.slotLen
          = [.ok 64, .ok 0, .ok 0, .ok 0, .ok 32, .ok 10, .ok 1025]
      ∧ Slot.cap .wsText < 1025 := by
  decide +kernel

theorem test_witness_XmitQueuesFrameBuffer : buffered (frameState []) [] ∧ buffered (frameState fullBuffer) fullBuffer
    ∧ fullBuffer.length = 12288 ∧ overState.ws.frameLen.toNat = 12289 :=
  ⟨frameState_buffered (by decide), frameState_buffered (by rw [fullBuffer_length]), fullBuffer_length, rfl⟩

theorem test_witness_SendOpensSession : clientState.arq.state = .idle
    ∧ clientState.lram.holds .myPhys (ascii "mac-client") ∧ clientState.lram.holds .peerPhys (ascii "mac-server")
    ∧ clientState.lram.holds .myLog (ascii "vip-client") ∧ clientState.lram.holds .peerLog (ascii "vip-server")
    ∧ clientState.lram.holds .txmType (ascii "chat") ∧ clientState.lram.holds .txmSender (ascii "vip-client")
    ∧ clientState.lram.holds .txmText (ascii "hi") := by
  unfold Memory.holds; and_intros <;> decide +kernel

/-- V-CTL-3's LEN(TXM_TEXT) = 1025. -/
def longMessage : State := poke clientState [hostW 0x1300 1025#32]

theorem test_witness_SendRefusals : openState.arq.state = .awaitingAck ∧ longMessage.arq.state = .idle
    ∧ [Slot.myPhys, .peerPhys, .myLog, .peerLog, .txmSender, .txmType, .txmText].map longMessage.lram.slotLen
        = [.ok 10, .ok 10, .ok 10, .ok 10, .ok 10, .ok 4, .ok 1025]
    ∧ Slot.cap .txmText < 1025 := by
  decide +kernel

theorem test_witness_ParseInvertsWire : (sealed emptyFrame).wf = true
    ∧ frameT (sealed emptyFrame) 0#32 = frameT emptyFrame 0#32 := by decide +kernel

theorem test_witness_WireLengthBounds : emptyFrame.wf = true ∧ (wire emptyFrame).length = 178
    ∧ (clientFrame 0#1 true 0#32 none).wf = true ∧ (sealed emptyFrame).wf = true
    ∧ crc32 (canon (sealed emptyFrame)) = (sealed emptyFrame).checksum ∧ (wire (sealed emptyFrame)).length = 187 := by
  decide +kernel

theorem test_witness_CrcDetectsSingleBitErrors : ∃ (x : Bytes) (k j : Nat), k < x.length ∧ j < 8 :=
  ⟨[0#8], 0, 7, by decide, by decide⟩

/-- A flip that still parses: the low bit of the ttl digit of the minimal frame. -/
theorem test_witness_SingleBitFlipIsInvalid : ∃ k j : Nat, emptyFrame.wf = true
    ∧ k < (encodeAlg [] [] emptyFrame.pkt).1.length ∧ j < 8
    ∧ decodeAlg ((encodeAlg [] [] emptyFrame.pkt).1.modify k (· ^^^ (1#8 <<< j)))
        = some ({ sealed emptyFrame with pkt := { emptyFrame.pkt with ttl := 1#32 } }, 0x8D99C244#32, false) :=
  ⟨146, 0, by decide +kernel⟩

theorem test_witness_ComplementedByteFailsParsing : ∃ k, k < (encodeAlg [] [] emptyFrame.pkt).1.length :=
  ⟨186, by decide +kernel⟩

theorem test_witness_DecodeAfterEncodeIsValid : ∃ s t r : State, exec .encode s = .next t ∧ t.result.code = .ok
    ∧ r.ws.frameLen = t.ws.frameLen ∧ (∀ i < t.ws.frameLen.toNat, r.lram.read (0x4000 + i) = t.lram.read (0x4000 + i))
    ∧ s.ws.seg.getLsbD 2 = true := by
  obtain ⟨t, ht, hc⟩ := next_of_after (o := exec .encode fullWorkspace) (f := (·.result.code)) (a := .ok) (by decide +kernel)
  exact ⟨_, t, t, ht, hc, rfl, fun _ _ => rfl, by decide +kernel⟩

/-- A draw just below the threshold, and one at it. -/
theorem test_witness_InjectorServesHeadRequest : ∃ (s : State) (req : Request) (queue : List Request) (d e : Draws),
    s.resetHeld = false ∧ s.inj.serving = none ∧ s.inj.txq = req :: queue ∧ req.bytes ≠ []
      ∧ d.loss.toNat < min s.cfg.channel.pLoss.toNat 0x10000
      ∧ min s.cfg.channel.pLoss.toNat 0x10000 ≤ e.loss.toNat ∧ e.corrupt.toNat < min s.cfg.channel.pCorrupt.toNat 0x10000
      ∧ e.pos < req.bytes.length ∧ min s.cfg.channel.latMin.toNat s.cfg.channel.latMax.toNat ≤ e.delay
      ∧ e.delay ≤ max s.cfg.channel.latMin.toNat s.cfg.channel.latMax.toNat :=
  ⟨queueState State.reset.cfg.channel [0x7B#8] .cmdXmit, _, [], { loss := 0x3332#16, corrupt := 0#16, pos := 0, delay := 0 },
    { loss := 0x3333#16, corrupt := 0x3332#16, pos := 0, delay := 500 }, rfl, rfl, rfl, by decide⟩

/-- A request of an empty datagram. -/
def aRequest (tag : RequestTag) : Request := { bytes := [], dst := default, tag := tag }

/-- A served request with the delay run out, and with one millisecond left. (Which clause's time model holds is a parameter.) -/
theorem test_witness_InjectorEmitsWhenDelayElapsed : ∀ d ∈ [0#32, 1#32], ∃ (s : State) (req : Request),
    s.resetHeld = false ∧ s.inj.serving = some req ∧ s.inj.delay = d :=
  fun d _ => ⟨{ State.reset with inj := { txq := [], serving := some (aRequest .cmdXmit), delay := d } }, _, rfl, rfl, rfl⟩

theorem test_witness_ArqCompletesSession : ∃ s : State, s.resetHeld = false ∧ s.arq.state = .awaitingAck ∧ s.arq.txp = false
    ∧ s.arq.ackLatch = true :=
  ⟨{ openState with arq := { openState.arq with ackLatch := true } }, by decide +kernel⟩

/-- An open session with its timer run out, and with any time left. -/
theorem test_witness_ArqTimeoutRetransmits : ∀ w : Word, ∃ s : State, s.resetHeld = false ∧ s.arq.state = .awaitingAck
    ∧ s.arq.txp = false ∧ s.arq.timerRun = true ∧ s.arq.ackLatch = false ∧ s.arq.timerRemain = w :=
  fun w => ⟨{ State.reset with arq := { State.reset.arq with state := .awaitingAck, timerRun := true, timerRemain := w } },
    rfl, rfl, rfl, rfl, rfl, rfl⟩

/-- Each clause, in an open session and out of one. -/
theorem test_witness_LatchedAckDisablesTimeout : ∀ (st : ArqState) (latch txp run : Bool), ∃ s : State, s.resetHeld = false
    ∧ s.arq.state = st ∧ s.arq.ackLatch = latch ∧ s.arq.txp = txp ∧ s.arq.timerRun = run :=
  fun st latch txp run =>
    ⟨{ State.reset with arq := { State.reset.arq with state := st, ackLatch := latch, txp := txp, timerRun := run } },
      rfl, rfl, rfl, rfl, rfl⟩

theorem test_witness_TickCountsDown : State.reset.resetHeld = false := rfl

/-- V-ARQ-8: the session ends and the bit flips. -/
theorem test_witness_OnlyCompletionEndsSession : ∃ (s t : State) (tn : Turn) (rest : List Turn),
    s.turns = tn :: rest ∧ step s = .next t ∧ t.arq.seqBit ≠ s.arq.seqBit ∧ s.arq.state = .awaitingAck ∧ t.arq.state = .idle :=
  ⟨{ State.reset with
      turns := [.arqComplete], arq := { State.reset.arq with state := .awaitingAck, ackLatch := true } }, _, _, [], rfl, rfl,
    by decide, rfl, rfl⟩

theorem test_witness_OnlySendWritesArqFrame : ∃ (s t : State) (tn : Turn) (rest : List Turn),
    s.turns = tn :: rest ∧ step s = .next t ∧ t.arq.frame ≠ s.arq.frame := by
  obtain ⟨t, ht, hf⟩ := next_of_after (o := step (clientState.withFetchWord 32 7)) (f := (·.arq.frame.length)) (a := 314)
    (by decide +kernel)
  have h : (clientState.withFetchWord 32 7).arq.frame = [] := by decide +kernel
  exact ⟨_, t, .cmdExec, clientState.turns, rfl, ht, fun hn => by simp [hn, h] at hf⟩

/-- The datagram in `rxState b`. -/
def rxDatagram (b : Bytes) : RxDatagram := { bytes := b, src := { ip := 0x0A000001#32, port := 5001#16 } }

/-- What the receive statements ask of a state and the datagram it takes. -/
def taken (s : State) (b : Bytes) : Prop := s.resetHeld = false ∧ s.rx.rxWait = false ∧ s.rx.rxq = [rxDatagram b]

/-- A state with one datagram in its RXQ. -/
def withDatagram (s : State) (lastAcc : Option SeqBit) (full : Bool) (b : Bytes) : State :=
  { s with rx := { lastAcc := lastAcc, rxmFull := full, rxWait := false, rxq := [rxDatagram b] } }

/-- A block out of reset with one datagram in its RXQ is what the receive statements ask for. -/
theorem withDatagram_taken {s : State} (h : s.resetHeld = false) (lastAcc : Option SeqBit) (full : Bool) (b : Bytes) :
    taken (withDatagram s lastAcc full b) b := ⟨h, rfl, rfl⟩

/-- What the receive statements ask of a frame that passes the integrity and TTL gates. -/
def passes (f : Frame) : Prop := parse (wire f) = some f ∧ crc32 (canon f) = f.checksum ∧ f.pkt.ttl ≠ 0#32

/-- A matching ACK sets the latch, and SEND clears it. -/
theorem test_witness_OnlyCompletionEndsSession_latch :
    (∃ (s t : State) (rest : List Turn), s.turns = .rxeTake :: rest ∧ step s = .next t ∧ s.arq.ackLatch = false
      ∧ t.arq.ackLatch = true)
    ∧ ∃ (s t : State) (rest : List Turn), s.turns = .cmdExec :: rest ∧ step s = .next t ∧ s.arq.ackLatch = true
      ∧ t.arq.ackLatch = false := by
  constructor
  · obtain ⟨t, ht, hl⟩ := next_of_after
      (o := step { withDatagram openState none false (wire (sealed (clientFrame 0#1 true 1#32 none))) with turns := [.rxeTake] })
      (f := (·.arq.ackLatch)) (a := true) (by decide +kernel)
    exact ⟨_, t, [], rfl, ht, by decide +kernel, hl⟩
  · obtain ⟨t, ht, hl⟩ := next_of_after
      (o := step (State.withFetchWord { clientState with arq := { clientState.arq with ackLatch := true } } 32 7))
      (f := (·.arq.ackLatch)) (a := false) (by decide +kernel)
    exact ⟨_, t, _, rfl, ht, rfl, hl⟩

/-- Bytes that do not parse, a wrong checksum, a ttl of 0; an engine that waits, and an empty RXQ. -/
theorem test_witness_ReceiveGatesDiscard :
    (∀ b, taken (withDatagram State.reset none false b) b) ∧ parse [] = none
    ∧ parse (wire emptyFrame) = some emptyFrame ∧ crc32 (canon emptyFrame) ≠ emptyFrame.checksum
    ∧ parse (wire (sealed emptyFrame)) = some (sealed emptyFrame)
    ∧ crc32 (canon (sealed emptyFrame)) = (sealed emptyFrame).checksum ∧ (sealed emptyFrame).pkt.ttl = 0#32
    ∧ (∃ s : State, s.resetHeld = false ∧ s.rx.rxWait = true ∧ s.rx.rxq ≠ [])
    ∧ State.reset.resetHeld = false ∧ State.reset.rx.rxWait = false ∧ State.reset.rx.rxq = [] := by
  have h : parse (wire emptyFrame) = some emptyFrame ∧ crc32 (canon emptyFrame) ≠ emptyFrame.checksum
      ∧ parse (wire (sealed emptyFrame)) = some (sealed emptyFrame)
      ∧ crc32 (canon (sealed emptyFrame)) = (sealed emptyFrame).checksum ∧ (sealed emptyFrame).pkt.ttl = 0#32 := by
    decide +kernel
  exact ⟨withDatagram_taken rfl none false, by decide +kernel, h.1, h.2.1, h.2.2.1, h.2.2.2.1, h.2.2.2.2,
    ⟨{ State.reset with rx := { State.reset.rx with rxWait := true, rxq := [rxDatagram []] } }, rfl, rfl, by simp⟩,
    rfl, rfl, rfl⟩

/-- A valid ACK with ttl 1, taken in IDLE and in an open session. -/
theorem test_witness_AckGateSetsLatch :
    passes (sealed (clientFrame 0#1 true 1#32 none)) ∧ (clientFrame 0#1 true 1#32 none).pkt.seg.isAck = true
      ∧ (∀ b, taken (withDatagram State.reset none false b) b) ∧ State.reset.arq.state = .idle
      ∧ (∀ b, taken (withDatagram openState none false b) b) ∧ openState.arq.state = .awaitingAck ∧ openState.arq.seqBit = 0#1 := by
  have h : openState.resetHeld = false := by decide +kernel
  refine ⟨?_, rfl, withDatagram_taken rfl none false, rfl, withDatagram_taken h none false, ?_⟩
  · unfold passes; decide +kernel
  · decide +kernel

/-- Server B with LEN(MY_PHYS) = `n`. -/
def identityState (n : Word) : State := poke serverState [hostW 0x1000 n]

/-- A new data segment meeting an over-long identity slot (65), and an identity slot at capacity with a held delivery slot. -/
theorem test_witness_DataSegmentDiscards : passes (sealed (clientFrame 0#1 false 1#32 (some hi)))
    ∧ (clientFrame 0#1 false 1#32 (some hi)).pkt.seg.isAck = false
    ∧ (∀ b, taken (withDatagram (identityState 65#32) none false b) b)
    ∧ (∀ b, taken (withDatagram (identityState 64#32) (some 1#1) true b) b)
    ∧ (identityState 65#32).lram.slotLen .myPhys = .ok 65 ∧ (identityState 65#32).lram.slotLen .myLog = .ok 10
    ∧ (identityState 64#32).lram.slotLen .myPhys = .ok 64 ∧ (identityState 64#32).lram.slotLen .myLog = .ok 10 := by
  have h : (identityState 65#32).resetHeld = false ∧ (identityState 64#32).resetHeld = false := by decide +kernel
  refine ⟨?_, rfl, withDatagram_taken h.1 none false, withDatagram_taken h.2 (some 1#1) true, ?_⟩
  · unfold passes; decide +kernel
  · decide +kernel

theorem test_witness_DuplicateIsAcknowledged : passes (sealed (clientFrame 0#1 false 1#32 (some hi)))
    ∧ (clientFrame 0#1 false 1#32 (some hi)).pkt.seg.isAck = false
    ∧ (∀ b, taken (withDatagram serverState (some 0#1) true b) b)
    ∧ serverState.lram.holds .myPhys (ascii "mac-server") ∧ serverState.lram.holds .myLog (ascii "vip-server") := by
  have h : serverState.resetHeld = false := by decide +kernel
  refine ⟨?_, rfl, fun b => ⟨h, rfl, rfl⟩, ?_⟩
  · unfold passes; decide +kernel
  · unfold Memory.holds; and_intros <;> decide +kernel

/-- A message, and a null payload, with nothing accepted yet and the delivery slot free. -/
theorem test_witness_NewSegmentIsDelivered : (∀ p ∈ [some hi, none], passes (sealed (clientFrame 0#1 false 1#32 p))
      ∧ (clientFrame 0#1 false 1#32 p).pkt.seg.isAck = false ∧ (clientFrame 0#1 false 1#32 p).pkt.seg.payload = p)
    ∧ (∀ b, taken (withDatagram serverState none false b) b)
    ∧ serverState.lram.holds .myPhys (ascii "mac-server") ∧ serverState.lram.holds .myLog (ascii "vip-server") := by
  have h : serverState.resetHeld = false := by decide +kernel
  refine ⟨?_, fun b => ⟨h, rfl, rfl⟩, ?_⟩
  · unfold passes; decide +kernel
  · unfold Memory.holds; and_intros <;> decide +kernel

theorem test_witness_DedupDeliversOnceAcksTwice :
    ∃ (s : State) (d e : RxDatagram) (f g : Frame) (x : Draws) (myPhys myLog : Bytes),
      s.resetHeld = false ∧ s.rx.rxWait = false ∧ s.rx.rxq = [d, e] ∧ s.inj.txq = [] ∧ s.inj.serving = none
      ∧ s.turns = [.rxeTake, .injStart x, .rxeTake] ∧ x.loss.toNat < min s.cfg.channel.pLoss.toNat 0x10000
      ∧ parse d.bytes = some f ∧ crc32 (canon f) = f.checksum ∧ f.pkt.ttl ≠ 0#32 ∧ f.pkt.seg.isAck = false
      ∧ parse e.bytes = some g ∧ crc32 (canon g) = g.checksum ∧ g.pkt.ttl ≠ 0#32 ∧ g.pkt.seg.isAck = false
      ∧ f.pkt.seg.seq = g.pkt.seg.seq ∧ s.rx.lastAcc ≠ some f.pkt.seg.seq ∧ s.rx.rxmFull = false
      ∧ s.lram.holds .myPhys myPhys ∧ s.lram.holds .myLog myLog := by
  refine ⟨{ serverState with
      rx := { lastAcc := none, rxmFull := false, rxWait := false, rxq :=
        [rxDatagram (wire (sealed (clientFrame 0#1 false 10#32 none))), rxDatagram (wire (sealed (clientFrame 0#1 false 10#32 none)))] },
      inj := { txq := [], serving := none, delay := 0#32 },
      resetHeld := false,
      turns := [.rxeTake, .injStart default, .rxeTake] }, _, _, sealed (clientFrame 0#1 false 10#32 none),
    sealed (clientFrame 0#1 false 10#32 none), default, ascii "mac-server", ascii "vip-server", rfl, rfl, rfl, rfl, rfl, rfl, ?_⟩
  unfold Memory.holds; and_intros <;> decide +kernel

theorem test_witness_CommandWriteAcceptedOrDropped : ∀ p ∈ [CmdPhase.idle, .exec, .waitInj], ∃ s : State,
    s.resetHeld = false ∧ s.cmd.phase = p :=
  fun p _ => ⟨{ State.reset with cmd := { phase := p, word := 0#32, opc := 0#8 } }, rfl, rfl⟩

/-- V-MEM-8. -/
theorem test_witness_BadAccessIsRefused : ∀ p ∈ [(AccessWidth.w8, 0x000), (.w16, 0x010), (.w32, 0x002), (.w64, 0x048)],
    State.reset.resetHeld = false ∧ p.2 < 0x8000 ∧ (p.1 ≠ .w32 ∨ p.2 % 4 ≠ 0) := by decide

/-- An unwritten byte of the frame buffer; the two slots; a host read; both sides of the aperture's end. -/
theorem test_witness_FaultsAreUnwrittenReads :
    (∃ s : State, s.ws.frameLen.toNat ≤ 12288 ∧ ∃ i < s.ws.frameLen.toNat, s.lram.read (0x4000 + i) = none)
    ∧ State.reset.lram.read 0x1800 = none ∧ State.reset.arq.state = .idle ∧ State.reset.lram.read 0x1000 = none
    ∧ State.reset.resetHeld = false ∧ 0x6FFC % 4 = 0 ∧ isLramOffset 0x6FFC = true ∧ State.reset.lram.read 0x6FFC = none
    ∧ isLramOffset 0x7000 = false ∧ (0x8000 : Nat) ≤ 0x8000 := by
  refine ⟨⟨{ State.reset with ws := { State.reset.ws with frameLen := 1#16 } }, by decide, 0, by decide, rfl⟩, ?_⟩
  decide

/-- V-MEM-5: both ends of each range of holes. -/
theorem test_witness_HoleReadsZeroIgnoresWrites :
    ∀ o ∈ [0x074, 0x07C, 0x0BC, 0x0C4, 0x0FFC, 0x1044, 0x2644, 0x3FFC, 0x7000, 0x7FFC],
      State.reset.resetHeld = false ∧ o < 0x8000 ∧ o % 4 = 0
        ∧ (0x074 ≤ o ∧ o ≤ 0x07C ∨ o = 0x0BC ∨ 0x0C4 ≤ o ∧ o ≤ 0x0FFC ∨ 0x1000 ≤ o ∧ isLramOffset o = false) := by decide +kernel

theorem test_witness_HostReadHasNoSideEffect : State.reset.resetHeld = false
    ∧ ∃ (s t : State) (w : AccessWidth) (o : Nat) (rest : List Turn), s.turns = .host (.read w o) :: rest ∧ step s = .next t :=
  ⟨rfl, { State.reset with turns := [.host (hostR 0x00C)] }, _, .w32, 0x00C, [], rfl, rfl⟩

/-- CTRL with SRST = 0. -/
theorem test_witness_ReservedBitsReadZero : State.reset.resetHeld = false ∧ (0x00000001#32).getLsbD 1 = false := by decide

/-- Full queues. -/
theorem test_witness_ResetValues : ∃ s : State, s.inj.txq.length = 4 ∧ s.rx.rxq.length = 4 :=
  ⟨{ State.reset with
      inj := { State.reset.inj with txq := List.replicate 4 (aRequest .rxeAck) }
      rx  := { State.reset.rx with rxq := List.replicate 4 (rxDatagram []) } }, rfl, rfl⟩

theorem test_witness_ReadOnlyWordsIgnoreWrites :
    ∀ o ∈ [0x000, 0x0C0, 0x080, 0x0B8, 0x2000, 0x2640, 0x3FFC], State.reset.resetHeld = false ∧ o % 4 = 0
      ∧ (o ∈ [0x000, 0x004, 0x00C, 0x014, 0x040, 0x044, 0x068, 0x06C, 0x070, 0x0C0] ∨ 0x080 ≤ o ∧ o ≤ 0x0B8
        ∨ 0x2000 ≤ o ∧ o < 0x4000) := by decide

theorem test_witness_LramWordReadsBack :
    (∀ o ∈ [0x4000, 0x6FFC], o % 4 = 0 ∧ 0x4000 ≤ o ∧ o < 0x7000)
    ∧ ∀ o ∈ [0x1000, 0x1004, 0x1040], o % 4 = 0 ∧ Slot.readOnly .myPhys = false ∧ Slot.base .myPhys ≤ o
        ∧ o < Slot.data .myPhys + Slot.cap .myPhys := by decide

theorem test_witness_InterruptPendingAndOutput : State.reset.resetHeld = false := rfl

theorem test_witness_SoftResetKeepsConfiguration : State.reset.resetHeld = false
    ∧ (0x00000002#32).getLsbD 1 = true ∧ (0x00000003#32).getLsbD 1 = true := by decide

/-- A delivery while the reset input is held. -/
theorem test_witness_HeldResetStopsBlock : ∃ (s : State) (tn : Turn) (t : State) (rest : List Turn),
    s.resetHeld = true ∧ s.turns = tn :: rest ∧ (∀ b, tn ≠ .hardReset b) ∧ step s = .next t :=
  ⟨{ State.reset with resetHeld := true, turns := [.host (hostR 0)] }, _, _, [], rfl, rfl, by simp, rfl⟩

/-- MKPKT from reset, for the invariants. -/
theorem test_witness_StepKeepsMemoryForm : ∃ s t : State, s.memoryOk ∧ s.protocolOk ∧ step s = .next t :=
  ⟨State.reset.withFetchWord 32 4, _, by decide, by decide, rfl⟩

theorem test_witness_StepKeepsProtocolInvariant : ∃ s t : State, s.protocolOk ∧ step s = .next t :=
  ⟨State.reset.withFetchWord 32 4, _, by decide, rfl⟩

/-- Three requests outstanding. -/
theorem test_witness_AtMostThreeRequests : ∃ s : State, s.protocolOk ∧ s.outstanding.length = 3 :=
  ⟨{ State.reset with
      inj :=
        { txq := [aRequest .arqRetx, aRequest .rxeAck],
          serving := some (aRequest .cmdXmit), delay := 0#32 }
      cmd := { phase := .waitInj, word := 6#32, opc := 6#8 }
      arq := { State.reset.arq with state := .awaitingAck, txp := true }
      rx  := { State.reset.rx with rxWait := true } }, by decide⟩

theorem test_witness_QuiescentBlockStays : State.reset.resetHeld = false ∧ State.reset.protocolOk ∧ State.reset.quiescent
    ∧ Turn.tick.isInternal = true := by decide

/-- MKPKT changes RESULT; so does the emission of XMIT's request, and the loss of it. -/
theorem test_witness_ResultChangesOnlyAtCommandEnd :
    ∀ s ∈ [State.reset.withFetchWord 32 4,
      { State.reset with
        turns := [.injEmit], inj := { txq := [], serving := some (aRequest .cmdXmit), delay := 0#32 } },
      { queueState State.reset.cfg.channel [] .cmdXmit with turns := [.injStart default] }],
      ∃ (t : State) (tn : Turn) (rest : List Turn), s.turns = tn :: rest ∧ step s = .next t ∧ t.result ≠ s.result := by
  intro s hs
  simp only [List.mem_cons, List.not_mem_nil, or_false] at hs
  rcases hs with rfl | rfl | rfl <;> exact ⟨_, _, _, rfl, rfl, by decide⟩

/-- The injector's emission, of a copy of what is already in flight. -/
theorem test_witness_OnlyInjectorEmits : ∃ (s t : State) (tn : Turn) (rest : List Turn) (x : Transit),
    s.turns = tn :: rest ∧ step s = .next t ∧ 0 < s.net.flight.count x ∧ s.net.flight.count x < t.net.flight.count x := by
  let x : Transit :=
    { emitter := .block, datagram := { bytes := [], dst := default, src := { ip := 0#32, port := 0#16 } } }
  exact ⟨{ State.reset with
      turns := [.injEmit], inj := { txq := [], serving := some (aRequest .rxeAck), delay := 0#32 }
      net   := { endpoint := none, flight := [x], routers := [] } }, _, _, [], x, rfl, rfl, by decide, by decide⟩

/-- A checksum-valid frame with ttl 1, with ttl 2 and a route, and without one. -/
theorem test_witness_RouterForwardsOrDiscards :
    (∀ f ∈ [sealed (clientFrame 0#1 false 1#32 none), sealed (clientFrame 0#1 false 2#32 none)],
      parse (wire f) = some f ∧ crc32 (canon f) = f.checksum)
    ∧ List.lookup (ascii "vip-server") [(ascii "vip-server", (default : Endpoint))] = some default
    ∧ List.lookup (ascii "vip-server") ([] : List (Bytes × Endpoint)) = none := by decide +kernel

theorem test_witness_DeliveryReachesNetworkPort : ∃ (s : State) (k : Nat) (x : Transit),
    s.resetHeld = false ∧ s.net.flight[k]? = some x ∧ s.net.endpoint = some x.datagram.dst :=
  ⟨{ State.reset with net := { endpoint := some default, flight := [default], routers := [] } }, 0, default, rfl, rfl, rfl⟩

end Sys2Proof.Tests
end

section
/-! ### The holes of the aperture (20_memory.md R63) -/

namespace Sys2Proof.Machine

/-- No register stands from 0x074 to 0x07C, at 0x0BC, or from 0x0C4 on (R17). -/
theorem regMap_gaps {o : Nat} {r : Reg} (h : (o, r) ∈ regMap) :
    ¬ (0x074 ≤ o ∧ o ≤ 0x07C) ∧ o ≠ 0x0BC ∧ o < 0x0C4 := by
  have hall : ∀ p ∈ regMap, ¬ (0x074 ≤ p.1 ∧ p.1 ≤ 0x07C) ∧ p.1 ≠ 0x0BC ∧ p.1 < 0x0C4 := by decide
  exact hall _ h

/-- LRAM begins at 0x1000 (R60). -/
theorem isLramOffset_of_lt {o : Nat} (h : o < 0x1000) : isLramOffset o = false := by
  have hslot (sl : Slot) : ¬ (sl.base ≤ o ∧ o < sl.data + sl.cap) := by have := sl.below_frame; omega
  have hframe : ¬ (frameBase ≤ o ∧ o < frameBase + Config.frameCap) := by unfold frameBase; omega
  simp [isLramOffset, hslot, hframe]

/-- An offset that holds no register and no byte of LRAM is a hole (R63). -/
theorem apertureAt_hole {o : Nat} (hreg : ∀ r, (o, r) ∉ regMap) (hlram : isLramOffset o = false) : apertureAt o = .hole := by
  rcases apertureAt_cases o with ⟨r, hr, -⟩ | ⟨-, hframe⟩ | h | ⟨sl, hbase, -⟩ | ⟨sl, hlo, hhi, -⟩
  · exact absurd hr (hreg r)
  · simp [isLramOffset_frame hframe] at hlram
  · exact h
  · have hin : sl.base ≤ o ∧ o < sl.data + sl.cap := by unfold Slot.data; omega
    simp [isLramOffset_slot hin] at hlram
  · have hin : sl.base ≤ o ∧ o < sl.data + sl.cap := by unfold Slot.data at *; omega
    simp [isLramOffset_slot hin] at hlram

/-- A read of a hole answers 0 (R63). -/
theorem apertureRead_hole {o : Nat} (h : apertureAt o = .hole) (s : State) : apertureRead s o = .ok 0#32 := by
  simp only [apertureRead, h]

/-- A write to a hole changes nothing (R63). -/
theorem apertureWrite_hole {o : Nat} (h : apertureAt o = .hole) (s : State) (v : Word) : apertureWrite s o v = s := by
  simp only [apertureWrite, h]

/-- Settles O43: each offset of the statement is a hole of the map, so the read answers 0 and the write stores nothing. -/
theorem holeReadsZeroIgnoresWrites : Obligations.HoleReadsZeroIgnoresWrites := by
  intro s o v hr ho ha hrange
  have hreg (r : Reg) : (o, r) ∉ regMap := fun hmem => by have := regMap_gaps hmem; omega
  have hlram : isLramOffset o = false := by
    rcases hrange with h | h | h | ⟨-, h⟩
    · exact isLramOffset_of_lt (by omega)
    · exact isLramOffset_of_lt (by omega)
    · exact isLramOffset_of_lt (by omega)
    · exact h
  have hhole : apertureAt o = .hole := apertureAt_hole hreg hlram
  constructor <;> intro rest
  · exact step_hostRead hr ho ha rest (apertureRead_hole hhole _)
  · rw [step_hostWrite hr ho ha v rest, apertureWrite_hole hhole]

end Sys2Proof.Machine
end

section
/-! ### Command words (30_encoding.md R82 to R85) -/

namespace Sys2Proof

/-- Every command's word is legal: RSVD is zero and OPC is the command's opcode (R82, R84). -/
theorem legalWord (i : Instr) : Laws.LegalWord.Statement i := by
  cases i with
  | nop => exact Laws.LegalWord.nop
  | encode => exact Laws.LegalWord.encode
  | decode => exact Laws.LegalWord.decode
  | crc32 => exact Laws.LegalWord.crc32
  | mkpkt => exact Laws.LegalWord.mkpkt
  | ttlchk => exact Laws.LegalWord.ttlchk
  | xmit => exact Laws.LegalWord.xmit
  | send => exact Laws.LegalWord.send
  | rxpop => exact Laws.LegalWord.rxpop

/-- RSVD and OPC together are all 32 bits of a command word (R82). -/
theorem commandWord_ext {v w : Word} (hrsvd : commandRsvd v = commandRsvd w) (hopc : commandOpc v = commandOpc w) : v = w := by
  have append_fields (u : Word) : commandRsvd u ++ commandOpc u = u :=
    (BitVec.extractLsb'_append_extractLsb'_eq_extractLsb' (Nat.zero_add 8).symm).trans BitVec.extractLsb'_eq_self
  calc v = commandRsvd v ++ commandOpc v := (append_fields v).symm
    _ = commandRsvd w ++ commandOpc w := by rw [hrsvd, hopc]
    _ = w := append_fields w

/-- The opcode map assigns an opcode to exactly one command (R84). -/
theorem decodeOpc_eq_ok_iff {opc : BitVec 8} {i : Instr} : decodeOpc opc = .ok i ↔ opc = i.opcode := by
  constructor
  · intro h
    unfold decodeOpc at h
    split_ifs at h <;> cases h <;> assumption
  · rintro rfl
    cases i <;> rfl

/-- The decoder checks RSVD and looks OPC up (R85). -/
theorem decode_eq_ok_iff {w : Word} {i : Instr} : decode w = .ok i ↔ commandRsvd w = 0#24 ∧ commandOpc w = i.opcode := by
  by_cases h : commandRsvd w = 0#24 <;> simp [decode, h, decodeOpc_eq_ok_iff]

/-- A command has exactly one word (R84). -/
theorem decode_eq_ok_iff_eq_encode {w : Word} {i : Instr} : decode w = .ok i ↔ w = encode i := by
  obtain ⟨-, hrsvd, hopc, -⟩ := legalWord i
  rw [decode_eq_ok_iff]
  constructor
  · rintro ⟨hwrsvd, hwopc⟩
    exact commandWord_ext (hwrsvd.trans hrsvd.symm) (hwopc.trans hopc.symm)
  · rintro rfl
    exact ⟨hrsvd, hopc⟩

/-- Settles O1: a word decodes to a command exactly when it is that command's encoding, and the nine encodings are the words
of R84. -/
theorem commandWordsDecodeExactly : Obligations.CommandWordsDecodeExactly := by
  refine ⟨fun i => decode_eq_ok_iff_eq_encode.2 rfl, fun w => ?_⟩
  refine ⟨?_, ?_, ?_, ?_, ?_, ?_, ?_, ?_, ?_⟩ <;> exact decode_eq_ok_iff_eq_encode

end Sys2Proof
end

section
/-! ### Parsing a frame (30_encoding.md R101 to R103) -/

namespace Sys2Proof.Machine

/-- The reader of a frame reads back what `FrameT` writes. -/
theorem frameTok_frameT (f : Frame) (h : f.wf = true) (r : Bytes) : frameTok (frameT f f.checksum ++ r) = some (f, r) := by
  simp only [Frame.wf, Bool.and_eq_true, decide_eq_true_eq] at h
  obtain ⟨⟨hsrc, hdst⟩, hpkt⟩ := h
  have hn (b : Bytes) : numTok (2 ^ 32) (dec f.checksum.toNat ++ (tFrameData ++ b)) = some (f.checksum.toNat, tFrameData ++ b) :=
    numTok_dec _ _ _ _ f.checksum.isLt (by decide)
  simp only [frameTok, frameT, List.append_assoc, expect_append, Option.bind_eq_bind, Option.bind_some, hn,
    pktTok_pktT _ hpkt, strTok_strT _ _ _ hdst, strTok_strT _ _ _ hsrc, BitVec.ofNat_toNat, BitVec.setWidth_eq]

/-- What the reader of a frame accepts, `FrameT` writes, within the capacities. -/
theorem frameTok_some {b r : Bytes} {f : Frame} (h : frameTok b = some (f, r)) :
    f.wf = true ∧ b = frameT f f.checksum ++ r := by
  simp only [frameTok, Option.bind_eq_bind, Option.bind_eq_some_iff, Prod.exists] at h
  obtain ⟨b1, e1, c, b2, e2, b3, e3, k, b4, e4, b5, e5, dst, b6, e6, b7, e7, src, b8, e8, b9, e9, h⟩ := h
  cases h
  obtain ⟨hc, hlt⟩ := numTok_some e2
  obtain ⟨hkwf, hk⟩ := pktTok_some e4
  obtain ⟨hdst, hdstLen⟩ := strTok_some e6
  obtain ⟨hsrc, hsrcLen⟩ := strTok_some e8
  have hvalue : (BitVec.ofNat 32 c).toNat = c := by rw [BitVec.toNat_ofNat, Nat.mod_eq_of_lt hlt]
  constructor
  · simp [Frame.wf, hsrcLen, hdstLen, hkwf]
  · simp only [frameT, hvalue, expect_some e1, hc, expect_some e3, hk, expect_some e5, hdst, expect_some e7, hsrc,
      expect_some e9, List.append_assoc]

/-- `parse` is the reader of a frame with nothing left over (R102). -/
theorem parse_eq_some_iff_frameTok {b : Bytes} {f : Frame} : parse b = some f ↔ frameTok b = some (f, []) := by
  unfold parse
  split
  next g h => simp [h]
  next h => simpa using h f

/-- `parse` succeeds exactly on the wire encodings of the frame values within range (R101). -/
theorem parse_eq_some_iff {b : Bytes} {f : Frame} : parse b = some f ↔ f.wf = true ∧ b = wire f := by
  rw [parse_eq_some_iff_frameTok]
  constructor
  · intro h
    simpa [wire] using frameTok_some h
  · rintro ⟨hwf, rfl⟩
    simpa [wire] using frameTok_frameT f hwf []

/-- `parse` reads back the wire encoding of a frame value within range (R101). -/
theorem parse_wire {f : Frame} (h : f.wf = true) : parse (wire f) = some f := parse_eq_some_iff.2 ⟨h, rfl⟩

/-- Two frame values within range with the same wire encoding are equal: the parser reads both back from it (R103). -/
theorem wire_injective {f g : Frame} (hf : f.wf = true) (hg : g.wf = true) (h : wire f = wire g) : f = g := by
  have heq : some f = some g := by rw [← parse_wire hf, h, parse_wire hg]
  exact Option.some.inj heq

/-- `FrameT(f, c)` is the wire encoding of `f` with the checksum `c` (R98). -/
theorem wire_withChecksum (f : Frame) (c : Word) : wire { f with checksum := c } = frameT f c := rfl

/-- R91's capacities do not speak of the checksum. -/
theorem wf_withChecksum (f : Frame) (c : Word) : Frame.wf { f with checksum := c } = f.wf := rfl

/-- `FrameT` is injective on the checksum and the frame values within range, the frame's own checksum aside (R103). -/
theorem frameT_injective {f g : Frame} {c d : Word} (hf : f.wf = true) (hg : g.wf = true) (h : frameT f c = frameT g d) :
    { f with checksum := c } = { g with checksum := d } := by
  rw [← wire_withChecksum, ← wire_withChecksum] at h
  exact wire_injective ((wf_withChecksum f c).trans hf) ((wf_withChecksum g d).trans hg) h

/-- Settles O17: the reader of a frame is complete and sound for `FrameT`, and an encoding a reader inverts is injective. -/
theorem parseInvertsWire : Obligations.ParseInvertsWire := by
  refine ⟨fun b f => parse_eq_some_iff, fun f g c d hf hg h => ?_⟩
  have heq := frameT_injective hf hg h
  simp only [Frame.mk.injEq] at heq ⊢
  obtain ⟨hsrc, hdst, hc, hpkt⟩ := heq
  exact ⟨hc, hsrc, hdst, trivial, hpkt⟩

end Sys2Proof.Machine
end

section
/-! ### The bytes of an encoding (30_encoding.md R99) -/

namespace Sys2Proof.Machine

/-- Every byte of a text is in 0x20 to 0x7E (R99). -/
def Printable (t : Bytes) : Prop := ∀ b ∈ t, 0x20 ≤ b.toNat ∧ b.toNat ≤ 0x7E

@[simp] theorem printable_nil : Printable [] := List.forall_mem_nil _

@[simp] theorem printable_append {s t : Bytes} : Printable (s ++ t) ↔ Printable s ∧ Printable t := List.forall_mem_append

@[simp] theorem printable_cons {b : Byte} {t : Bytes} :
    Printable (b :: t) ↔ (0x20 ≤ b.toNat ∧ b.toNat ≤ 0x7E) ∧ Printable t := List.forall_mem_cons

/-- The fixed texts between the tokens are printable (R95). -/
theorem printable_fixedTexts :
    Printable tSenderAddr ∧ Printable tText ∧ Printable tTimestamp ∧ Printable tType ∧ Printable tIsAck ∧ Printable tPayload
      ∧ Printable tSequenceBit ∧ Printable tPktData ∧ Printable tDstLog ∧ Printable tSrcLog ∧ Printable tTtl
      ∧ Printable tChecksum ∧ Printable tFrameData ∧ Printable tDstPhys ∧ Printable tSrcPhys ∧ Printable tNull
      ∧ Printable tClose := by
  and_intros
  all_goals
    unfold Printable
    decide

@[simp] theorem printable_boolT (x : Bool) : Printable (boolT x) := by
  unfold Printable
  revert x; decide

@[simp] theorem printable_bitT (x : SeqBit) : Printable (bitT x) := by
  unfold Printable
  revert x; decide

theorem printable_hexDigit {n : Nat} (h : n < 16) : 0x20 ≤ (hexDigit n).toNat ∧ (hexDigit n).toNat ≤ 0x7E := by
  have hall : ∀ i : Fin 16, 0x20 ≤ (hexDigit i.1).toNat ∧ (hexDigit i.1).toNat ≤ 0x7E := by decide
  exact hall ⟨n, h⟩

/-- A byte outside the range is escaped, by bytes within it; a byte that is not escaped is within it (R92). -/
theorem printable_esc (c : Byte) : Printable (esc c) := by
  have hlt := c.isLt
  have hhi := printable_hexDigit (n := c.toNat / 16) (by omega)
  have hlo := printable_hexDigit (n := c.toNat % 16) (by omega)
  unfold esc
  split_ifs
  case neg => simp only [printable_cons, printable_nil, and_true]; omega
  all_goals simp [hhi, hlo]

@[simp] theorem printable_strT (s : Bytes) : Printable (strT s) := by
  have hchars : Printable (s.flatMap esc) := by
    intro b hb
    obtain ⟨c, -, hc⟩ := List.mem_flatMap.1 hb
    exact printable_esc c b hc
  simp [strT, hchars]

/-- A decimal text is digits, 0x30 to 0x39 (R93). -/
@[simp] theorem printable_dec (n : Nat) : Printable (dec n) := by
  intro d hd
  have hdigit := dec_digits n d hd
  simp only [isDigit, Bool.and_eq_true, decide_eq_true_eq, BitVec.le_def, BitVec.toNat_ofNat] at hdigit
  omega

@[simp] theorem printable_msgT (m : Message) : Printable (msgT m) := by
  simp [msgT, printable_fixedTexts]

@[simp] theorem printable_payT (p : Option Message) : Printable (payT p) := by
  cases p with
  | none => simp [payT, printable_fixedTexts]
  | some m => simp [payT]

@[simp] theorem printable_segT (s : Segment) : Printable (segT s) := by
  simp [segT, printable_fixedTexts]

@[simp] theorem printable_pktT (k : Packet) : Printable (pktT k) := by
  simp [pktT, printable_fixedTexts]

theorem printable_frameT (f : Frame) (c : Word) : Printable (frameT f c) := by
  simp [frameT, printable_fixedTexts]

/-- Settles O18: the canonical and the wire encoding are both `FrameT`, whose fixed texts and tokens are all printable. -/
theorem wireBytesPrintable : Obligations.WireBytesPrintable := by
  rintro f b (hcanon | hwire)
  · exact printable_frameT f 0#32 b hcanon
  · exact printable_frameT f f.checksum b hwire

end Sys2Proof.Machine
end

section
/-! ### The codec's commands as checks, reads and writes (41_codec.md R119 to R121) -/

namespace Sys2Proof.Machine

theorem exec_encode (s : State) : exec .encode s = s.endCommand ((workspaceOperands s.lram s.ws).bind (encodeFrom s)) := rfl

theorem exec_decode (s : State) : exec .decode s = s.endCommand ((frameOperand s).map (decodeFrom s)) := rfl

theorem exec_crc32 (s : State) : exec .crc32 s = s.endCommand ((frameOperand s).map (crcWrites s)) := rfl

/-- ENCODE raises no OK: where it ends with CODE = OK, its operands were read and its writes were made (R119). -/
theorem exec_encode_ok {s t : State} (h : exec .encode s = .next t) (hok : t.result.code = .ok) :
    ∃ srcPhys dstPhys pkt, workspaceOperands s.lram s.ws = .ok (srcPhys, dstPhys, pkt)
      ∧ (encodeAlg srcPhys dstPhys pkt).1.length ≤ Config.frameCap
      ∧ t = encodeWrites s (encodeAlg srcPhys dstPhys pkt).1 (encodeAlg srcPhys dstPhys pkt).2 := by
  rw [exec_encode] at h
  rcases State.endCommand_next h with hwrites | ⟨code, hraise, rfl⟩
  · obtain ⟨⟨srcPhys, dstPhys, pkt⟩, hops, hfrom⟩ := Except.bind_eq_ok_iff.1 hwrites
    unfold encodeFrom at hfrom
    split at hfrom
    case isTrue => cases hfrom
    case isFalse hlen =>
      cases hfrom
      exact ⟨srcPhys, dstPhys, pkt, hops, Nat.le_of_not_lt hlen, rfl⟩
  · have hcode : code = .ok := hok
    subst hcode
    rcases Except.bind_eq_error_iff.1 hraise with hops | ⟨x, -, hfrom⟩
    · cases workspaceOperands_result hops
    · unfold encodeFrom at hfrom
      split at hfrom <;> cases hfrom

/-- DECODE of a frame buffer that parses makes DECODE's writes (R120). -/
theorem exec_decode_parsed {s : State} {b : Bytes} {f : Frame} {c : Word} {v : Bool} (hb : frameOperand s = .ok b)
    (hd : decodeAlg b = some (f, c, v)) : exec .decode s = .next (decodeWrites s f c v) := by
  rw [exec_decode, hb]
  simp only [Except.map, State.endCommand, decodeFrom, hd]

/-- Settles O8: the frame buffer's bytes are the operand, or its length is above FRAME_CAP. -/
theorem crc32ChecksumsFrameBuffer : Obligations.Crc32ChecksumsFrameBuffer := by
  intro s b
  constructor
  · intro hcap hlen hbytes
    rw [exec_crc32, frameOperand_ok hcap hlen hbytes]
    rfl
  · intro hlong
    rw [exec_crc32, frameOperand_long hlong]
    rfl

end Sys2Proof.Machine
end

section
/-! ### DECODE of what ENCODE wrote (41_codec.md R122) -/

namespace Sys2Proof.Machine

/-! #### What DECODE's writes leave in the workspace (R120) -/

section
variable (s : State) (f : Frame) (c : Word) (v : Bool)

@[simp] theorem decodeWrites_result : (decodeWrites s f c v).result =
    { code := if v then .ok else .eIntegrity, flag := v, parseOk := true, opc := 0x02#8 } := rfl

@[simp] theorem decodeWrites_crcOut : (decodeWrites s f c v).crcOut = c := rfl

@[simp] theorem decodeWrites_checksum : (decodeWrites s f c v).ws.checksum = f.checksum := rfl

@[simp] theorem decodeWrites_ttl : (decodeWrites s f c v).ws.ttl = f.pkt.ttl := rfl

@[simp] theorem decodeWrites_seg : (decodeWrites s f c v).ws.seg =
    segBits f.pkt.seg.seq f.pkt.seg.isAck f.pkt.seg.payload.isSome := rfl

/-- The timestamp registers take the message's timestamp. -/
theorem decodeWrites_timestamp {m : Message} (h : f.pkt.seg.payload = some m) :
    (decodeWrites s f c v).ws.tsLo = timestampLo m.ts ∧ (decodeWrites s f c v).ws.tsHi = timestampHi m.ts := by
  simp [decodeWrites, decodePayload, h]

/-- DECODE writes the four address slots, then the payload. -/
theorem decodeWrites_lram : (decodeWrites s f c v).lram =
    (decodePayload ((((s.writeSlot .wsSrcPhys f.srcPhys).writeSlot .wsDstPhys f.dstPhys).writeSlot .wsSrcLog
      f.pkt.srcLog).writeSlot .wsDstLog f.pkt.dstLog) f.pkt.seg.payload).lram := rfl

end

/-- Writing a payload leaves the slots that are not the message's as they were. -/
theorem decodePayload_holds_other {s : State} {p : Option Message} {sl : Slot} {x : Bytes} (hp : p.all Message.wf = true)
    (hsl : sl ∉ [Slot.wsType, .wsSender, .wsText]) (h : s.lram.holds sl x) : (decodePayload s p).lram.holds sl x := by
  cases p with
  | none => exact h
  | some m =>
    simp only [List.mem_cons, List.not_mem_nil, or_false, not_or] at hsl
    obtain ⟨hneType, hneSender, hneText⟩ := hsl
    simp only [Option.all_some, Message.wf, Bool.and_eq_true, decide_eq_true_eq] at hp
    obtain ⟨⟨htype, hsender⟩, htext⟩ := hp
    have h1 := Memory.holds_slotWrite_other h hneType htype
    have h2 := Memory.holds_slotWrite_other h1 hneSender hsender
    exact Memory.holds_slotWrite_other h2 hneText htext

/-- Writing a message puts its strings in the message slots. -/
theorem decodePayload_holds_message (s : State) {m : Message} (h : m.wf = true) :
    (decodePayload s (some m)).lram.holds .wsType m.type ∧ (decodePayload s (some m)).lram.holds .wsSender m.senderAddr
      ∧ (decodePayload s (some m)).lram.holds .wsText m.text := by
  simp only [Message.wf, Bool.and_eq_true, decide_eq_true_eq] at h
  obtain ⟨⟨htype, hsender⟩, htext⟩ := h
  have hwType := s.lram.holds_slotWrite_self (sl := .wsType) htype
  have hwSender := (s.lram.slotWrite .wsType m.type).holds_slotWrite_self (sl := .wsSender) hsender
  refine ⟨?_, ?_, ?_⟩
  · exact Memory.holds_slotWrite_other (Memory.holds_slotWrite_other hwType (by decide) hsender) (by decide) htext
  · exact Memory.holds_slotWrite_other hwSender (by decide) htext
  · exact Memory.holds_slotWrite_self _ htext

/-- DECODE leaves the frame's address strings in the address slots. -/
theorem decodeWrites_holds_addresses (s : State) {f : Frame} (hwf : f.wf = true) (c : Word) (v : Bool) :
    (decodeWrites s f c v).lram.holds .wsSrcPhys f.srcPhys ∧ (decodeWrites s f c v).lram.holds .wsDstPhys f.dstPhys
      ∧ (decodeWrites s f c v).lram.holds .wsSrcLog f.pkt.srcLog
      ∧ (decodeWrites s f c v).lram.holds .wsDstLog f.pkt.dstLog := by
  simp only [Frame.wf, Packet.wf, Bool.and_eq_true, decide_eq_true_eq] at hwf
  obtain ⟨⟨hsrcPhys, hdstPhys⟩, ⟨hsrcLog, hdstLog⟩, hpayload⟩ := hwf
  obtain ⟨h1, h2, h3, h4, -⟩ := Memory.slotWrite_four (m := s.lram) (s1 := .wsSrcPhys) (s2 := .wsDstPhys) (s3 := .wsSrcLog)
    (s4 := .wsDstLog) hsrcPhys hdstPhys hsrcLog hdstLog (by decide) (by decide) (by decide) (by decide) (by decide) (by decide)
  rw [decodeWrites_lram]
  exact ⟨decodePayload_holds_other hpayload (by decide) h1, decodePayload_holds_other hpayload (by decide) h2,
    decodePayload_holds_other hpayload (by decide) h3, decodePayload_holds_other hpayload (by decide) h4⟩

/-- DECODE leaves a message's strings in the message slots. -/
theorem decodeWrites_holds_message (s : State) {f : Frame} {m : Message} (hwf : f.wf = true) (h : f.pkt.seg.payload = some m)
    (c : Word) (v : Bool) :
    (decodeWrites s f c v).lram.holds .wsType m.type ∧ (decodeWrites s f c v).lram.holds .wsSender m.senderAddr
      ∧ (decodeWrites s f c v).lram.holds .wsText m.text := by
  have hm : m.wf = true := by
    simp only [Frame.wf, Packet.wf, h, Option.all_some, Bool.and_eq_true] at hwf
    obtain ⟨-, -, hpayload⟩ := hwf
    exact hpayload
  rw [decodeWrites_lram, h]
  exact decodePayload_holds_message _ hm

/-! #### Fields split and joined -/

/-- WS_SEG is its three fields (R34). -/
theorem segBits_fields (w : Workspace) : segBits w.seq w.isAck w.hasPl = w.seg := by
  have hall : ∀ seg : BitVec 3,
      segBits (seg.extractLsb' 0 1) (seg.getLsbD 1) (seg.getLsbD 2) = seg := by decide
  exact hall w.seg

@[simp] theorem timestampLo_timestamp (lo hi : Word) : timestampLo (timestamp lo hi) = lo :=
  BitVec.extractLsb'_append_eq_right

@[simp] theorem timestampHi_timestamp (lo hi : Word) : timestampHi (timestamp lo hi) = hi :=
  BitVec.extractLsb'_append_eq_left

/-! #### The round trip -/

/-- The frame value `encode_alg` builds (R117). -/
def encodedFrame (srcPhys dstPhys : Bytes) (pkt : Packet) : Frame :=
  { srcPhys := srcPhys, dstPhys := dstPhys, checksum := (encodeAlg srcPhys dstPhys pkt).2, pkt := pkt }

section
variable (srcPhys dstPhys : Bytes) (pkt : Packet)

theorem encodeAlg_fst : (encodeAlg srcPhys dstPhys pkt).1 = wire (encodedFrame srcPhys dstPhys pkt) := rfl

/-- The checksum `encode_alg` places is the one `decode_alg` recomputes (R97). -/
theorem crc32_canon_encodedFrame :
    crc32 (canon (encodedFrame srcPhys dstPhys pkt)) = (encodedFrame srcPhys dstPhys pkt).checksum := rfl

/-- `decode_alg` inverts `encode_alg` (R122). -/
theorem decodeAlg_encodeAlg (hwf : (encodedFrame srcPhys dstPhys pkt).wf = true) :
    decodeAlg (encodeAlg srcPhys dstPhys pkt).1
      = some (encodedFrame srcPhys dstPhys pkt, (encodeAlg srcPhys dstPhys pkt).2, true) := by
  rw [encodeAlg_fst, decodeAlg_some (parse_wire hwf), crc32_canon_encodedFrame]
  simp [encodedFrame]

end

/-- The frame ENCODE builds is within the capacities: its operands passed the length checks (R119). -/
theorem encodedFrame_wf {m : Memory} {w : Workspace} {srcPhys dstPhys : Bytes} {pkt : Packet}
    (h : workspaceOperands m w = .ok (srcPhys, dstPhys, pkt)) : (encodedFrame srcPhys dstPhys pkt).wf = true := by
  obtain ⟨⟨-, hsrcPhys, -⟩, ⟨-, hdstPhys, -⟩, ⟨-, hsrcLog, -⟩, ⟨-, hdstLog, -⟩, -, -, -, hpayload⟩ :=
    workspaceOperands_eq_ok h
  have hp : pkt.seg.payload.all Message.wf = true := by
    split at hpayload
    next hnone => simp [hnone]
    next msg hsome =>
      obtain ⟨-, ⟨-, htype, -⟩, ⟨-, hsender, -⟩, ⟨-, htext, -⟩, -⟩ := hpayload
      simp only [hsome, Option.all_some, Message.wf, Bool.and_eq_true]
      exact ⟨⟨decide_eq_true htype, decide_eq_true hsender⟩, decide_eq_true htext⟩
  simp only [Frame.wf, Packet.wf, encodedFrame, Bool.and_eq_true]
  exact ⟨⟨decide_eq_true hsrcPhys, decide_eq_true hdstPhys⟩, ⟨decide_eq_true hsrcLog, decide_eq_true hdstLog⟩, hp⟩

/-- The frame buffer after ENCODE's writes, in any state that still has them, is the frame written. -/
theorem frameOperand_encodeWrites {s r : State} {w : Bytes} {c : Word} (hcap : w.length ≤ Config.frameCap)
    (hlen : r.ws.frameLen = (encodeWrites s w c).ws.frameLen)
    (hbytes : ∀ i < (encodeWrites s w c).ws.frameLen.toNat,
      r.lram.read (0x4000 + i) = (encodeWrites s w c).lram.read (0x4000 + i)) : frameOperand r = .ok w := by
  have hcap' : w.length ≤ 12288 := hcap
  have hn : (encodeWrites s w c).ws.frameLen.toNat = w.length := by
    show (BitVec.ofNat 16 w.length).toNat = w.length
    rw [BitVec.toNat_ofNat, Nat.mod_eq_of_lt (by omega)]
  rw [hn] at hbytes
  rw [← hlen] at hn
  refine frameOperand_ok (by omega) hn.symm fun i hi => ?_
  calc r.lram.read (0x4000 + i) = (s.lram.write frameBase w).read (frameBase + i) := hbytes i hi
    _ = w[i]? := by rw [Memory.read_write_inside _ _ _ _ (by omega), Nat.add_sub_cancel_left]

/-- WS_SEG as DECODE rebuilds it is WS_SEG as ENCODE read it (R34). -/
theorem segBits_operands {m : Memory} {w : Workspace} {srcPhys dstPhys : Bytes} {pkt : Packet}
    (h : workspaceOperands m w = .ok (srcPhys, dstPhys, pkt)) :
    segBits pkt.seg.seq pkt.seg.isAck pkt.seg.payload.isSome = w.seg := by
  obtain ⟨-, -, -, -, -, hseq, hack, hpayload⟩ := workspaceOperands_eq_ok h
  have hsome : pkt.seg.payload.isSome = w.hasPl := by
    split at hpayload
    next hnone => simp [hnone, hpayload]
    next msg hsome => simp [hsome, hpayload.1]
  rw [hseq, hack, hsome, segBits_fields]

/-- The message ENCODE read, with HASPL = 1 (R119). -/
theorem message_of_workspaceOperands {m : Memory} {w : Workspace} {srcPhys dstPhys : Bytes} {pkt : Packet}
    (h : workspaceOperands m w = .ok (srcPhys, dstPhys, pkt)) (hpl : w.hasPl = true) :
    ∃ msg, pkt.seg.payload = some msg ∧ m.holds .wsType msg.type ∧ m.holds .wsSender msg.senderAddr
      ∧ m.holds .wsText msg.text ∧ msg.ts = timestamp w.tsLo w.tsHi := by
  obtain ⟨-, -, -, -, -, -, -, hpayload⟩ := workspaceOperands_eq_ok h
  split at hpayload
  next => rw [hpayload] at hpl; cases hpl
  next msg hsome => exact ⟨msg, hsome, hpayload.2⟩

/-- Two memories that hold the same string in a slot read it alike. -/
theorem Memory.slotRead_eq_of_holds {m n : Memory} {sl : Slot} {x : Bytes} (hm : m.holds sl x) (hn : n.holds sl x) :
    m.slotRead sl = n.slotRead sl := hm.slotRead.trans hn.slotRead.symm

/-- Settles O23: the frame ENCODE writes is within the capacities and carries its own checksum, so DECODE finds it in the
buffer, parses it back, and writes each field where ENCODE read it. -/
theorem decodeAfterEncodeIsValid : Obligations.DecodeAfterEncodeIsValid := by
  intro s t r hexec hok hlen hbytes
  obtain ⟨srcPhys, dstPhys, pkt, hops, hcap, rfl⟩ := exec_encode_ok hexec hok
  have hwf := encodedFrame_wf hops
  have hdecode := exec_decode_parsed (frameOperand_encodeWrites hcap hlen hbytes) (decodeAlg_encodeAlg srcPhys dstPhys pkt hwf)
  obtain ⟨hsrcPhys, hdstPhys, hsrcLog, hdstLog, httl, -⟩ := workspaceOperands_eq_ok hops
  refine ⟨_, hdecode, decodeWrites_result .., (decodeWrites_ttl ..).trans httl,
    (decodeWrites_seg ..).trans (segBits_operands hops), decodeWrites_checksum .., decodeWrites_crcOut .., rfl,
    ?_, fun hpl => ?_⟩
  · obtain ⟨usrcPhys, udstPhys, usrcLog, udstLog⟩ := decodeWrites_holds_addresses r hwf (encodeAlg srcPhys dstPhys pkt).2 true
    simp only [List.forall_mem_cons]
    exact ⟨Memory.slotRead_eq_of_holds usrcPhys hsrcPhys, Memory.slotRead_eq_of_holds udstPhys hdstPhys,
      Memory.slotRead_eq_of_holds usrcLog hsrcLog, Memory.slotRead_eq_of_holds udstLog hdstLog, List.forall_mem_nil _⟩
  · obtain ⟨msg, hsome, htype, hsender, htext, hts⟩ := message_of_workspaceOperands hops hpl
    obtain ⟨utype, usender, utext⟩ := decodeWrites_holds_message r hwf hsome (encodeAlg srcPhys dstPhys pkt).2 true
    obtain ⟨hlo, hhi⟩ :=
      decodeWrites_timestamp r (encodedFrame srcPhys dstPhys pkt) (encodeAlg srcPhys dstPhys pkt).2 true hsome
    rw [hts, timestampLo_timestamp] at hlo
    rw [hts, timestampHi_timestamp] at hhi
    refine ⟨hlo, hhi, ?_⟩
    simp only [List.forall_mem_cons]
    exact ⟨Memory.slotRead_eq_of_holds utype htype, Memory.slotRead_eq_of_holds usender hsender,
      Memory.slotRead_eq_of_holds utext htext, List.forall_mem_nil _⟩

end Sys2Proof.Machine
end

section
/-! ### CRC-32 detects the change of one byte (41_codec.md R116) -/

namespace Sys2Proof.Machine

/-- Two texts of one length that differ in exactly one byte. -/
inductive OneByteApart : Bytes → Bytes → Prop
  | here {x y : Byte} (t : Bytes) : x ≠ y → OneByteApart (x :: t) (y :: t)
  | there (x : Byte) {a b : Bytes} : OneByteApart a b → OneByteApart (x :: a) (x :: b)

theorem oneByteApart_cons {x y : Byte} {a b : Bytes} :
    OneByteApart (x :: a) (y :: b) ↔ (x ≠ y ∧ a = b) ∨ (x = y ∧ OneByteApart a b) := by
  constructor
  · intro h
    cases h with
    | here _ hne => exact .inl ⟨hne, rfl⟩
    | there _ h => exact .inr ⟨rfl, h⟩
  · rintro (⟨hne, rfl⟩ | ⟨rfl, h⟩)
    · exact .here a hne
    · exact .there x h

theorem OneByteApart.ne {a b : Bytes} (h : OneByteApart a b) : a ≠ b := by
  induction h with
  | here _ hne => simp [hne]
  | there _ _ ih => simp [ih]

@[simp] theorem oneByteApart_append_left {p a b : Bytes} : OneByteApart (p ++ a) (p ++ b) ↔ OneByteApart a b := by
  induction p with
  | nil => rfl
  | cons x p ih => simp [oneByteApart_cons, ih]

/-- A text and the same text with one byte changed. -/
theorem oneByteApart_modify {g : Byte → Byte} (hg : ∀ b, g b ≠ b) {x : Bytes} {k : Nat} (hk : k < x.length) :
    OneByteApart (x.modify k g) x := by
  induction x generalizing k with
  | nil => cases hk
  | cons b x ih =>
    cases k with
    | zero => exact .here x (hg b)
    | succ k => exact .there b (ih (Nat.lt_of_succ_lt_succ hk))

/-- A XOR with a byte that is not 0 changes the byte. -/
theorem xor_ne_self {e : Byte} (he : e ≠ 0#8) (b : Byte) : b ^^^ e ≠ b :=
  fun h => he (by simpa using h)

theorem oneBit_ne_zero {j : Nat} (hj : j < 8) : 1#8 <<< j ≠ 0#8 := by
  have hall : ∀ i : Fin 8, 1#8 <<< i.1 ≠ 0#8 := by decide
  exact hall ⟨j, hj⟩

/-- The bit a shift of R115 drops is the top bit of its result: the reflected generator has bit 31 set. -/
theorem crcShift_getLsbD_top (c : Word) : (crcShift c).getLsbD 31 = c.getLsbD 0 := by
  unfold crcShift
  split
  next h => simp [h]
  next h => simpa using h

/-- A shift of R115 loses nothing: its top bit says whether the generator was added, and the rest is the other bits. -/
theorem crcShift_injective : Function.Injective crcShift := by
  intro c d h
  have hlow : c.getLsbD 0 = d.getLsbD 0 := by rw [← crcShift_getLsbD_top, h, crcShift_getLsbD_top]
  have hrest : c >>> 1 = d >>> 1 := by
    unfold crcShift at h
    rw [hlow] at h
    split at h
    · exact (BitVec.xor_left_inj _).1 h
    · exact h
  refine BitVec.eq_of_getLsbD_eq fun i hi => ?_
  cases i with
  | zero => exact hlow
  | succ i => simpa [Nat.add_comm] using congrArg (BitVec.getLsbD · i) hrest

theorem repeat_crcShift_injective (n : Nat) : Function.Injective (Nat.repeat crcShift n) := by
  induction n with
  | zero => exact Function.injective_id
  | succ n ih => exact crcShift_injective.comp ih

/-- The checksum register after a byte determines the register before it. -/
theorem crcByte_injective_register (b : Byte) : Function.Injective (crcByte · b) := fun _ _ h =>
  (BitVec.xor_left_inj _).1 (repeat_crcShift_injective 8 h)

/-- The checksum register after a byte determines the byte. -/
theorem crcByte_injective_byte (c : Word) : Function.Injective (crcByte c) := fun a b h => by
  have hext : a.setWidth 32 = b.setWidth 32 := (BitVec.xor_right_inj _).1 (repeat_crcShift_injective 8 h)
  simpa using congrArg (BitVec.setWidth 8) hext

/-- Bytes fed to two different registers leave them different. -/
theorem foldl_crcByte_injective (s : Bytes) : Function.Injective (s.foldl crcByte ·) := by
  induction s with
  | nil => exact Function.injective_id
  | cons b s ih => exact ih.comp (crcByte_injective_register b)

theorem OneByteApart.foldl_crcByte_ne {a b : Bytes} (h : OneByteApart a b) (c : Word) :
    a.foldl crcByte c ≠ b.foldl crcByte c := by
  induction h generalizing c with
  | here t hne => exact fun he => hne (crcByte_injective_byte c (foldl_crcByte_injective t he))
  | there x _ ih => exact ih (crcByte c x)

/-- CRC-32 tells apart two texts that differ in exactly one byte (R116). -/
theorem OneByteApart.crc32_ne {a b : Bytes} (h : OneByteApart a b) : crc32 a ≠ crc32 b :=
  fun he => h.foldl_crcByte_ne _ ((BitVec.xor_left_inj _).1 he)

/-- Settles O20: a single-bit error changes exactly one byte, and CRC-32 detects that. -/
theorem crcDetectsSingleBitErrors : Obligations.CrcDetectsSingleBitErrors := by
  refine ⟨rfl, fun x k j hk hj => ?_⟩
  exact (oneByteApart_modify (xor_ne_self (oneBit_ne_zero hj)) hk).crc32_ne

end Sys2Proof.Machine
end

section
/-! ### Corrupted frames (41_codec.md R123, R124) -/

namespace Sys2Proof.Machine

/-- What follows the checksum in `FrameT` (R95), less the two bytes `, ` it begins with. -/
def frameRest (f : Frame) : Bytes :=
  ascii "\"data\": " ++ pktT f.pkt ++ tDstPhys ++ strT f.dstPhys ++ tSrcPhys ++ strT f.srcPhys ++ tClose

/-- `FrameT` is a fixed text, the checksum's digits, and a text the checksum does not enter (R95). -/
theorem frameT_eq_checksum_rest (f : Frame) (c : Word) :
    frameT f c = tChecksum ++ (dec c.toNat ++ 0x2C#8 :: 0x20#8 :: frameRest f) := by
  have hdata : tFrameData = 0x2C#8 :: 0x20#8 :: ascii "\"data\": " := by decide
  simp [frameT, frameRest, hdata]

theorem dec_injective : Function.Injective dec := fun m n h => by
  rw [← digitsValue_dec m, h, digitsValue_dec]

/-- A run of digits ends where the first byte that is no digit stands. -/
theorem dropWhile_isDigit_append {d : Bytes} (hd : ∀ b ∈ d, isDigit b = true) {x : Byte} (hx : isDigit x = false)
    (r : Bytes) : (d ++ x :: r).dropWhile isDigit = x :: r := by
  rw [List.dropWhile_append_of_pos hd, List.dropWhile_cons_of_neg (by simp [hx])]

/-- Where a run of digits ends in `x`, it is not `y` that stands there. -/
theorem cons_ne_digits_append {x y : Byte} (hy : isDigit y = false) (hxy : x ≠ y) {d : Bytes}
    (hd : ∀ b ∈ d, isDigit b = true) (r q : Bytes) : y :: q ≠ d ++ x :: r := by
  cases d with
  | nil => simp [hxy.symm]
  | cons a d =>
    intro heq
    have hya : y = a := (List.cons.inj heq).1
    have ha : isDigit a = true := hd a (by simp)
    rw [← hya, hy] at ha
    cases ha

/-- Two runs of digits, each closed by the same two different bytes that are no digits, in texts that differ in exactly one byte:
the runs are equal, or what follows them is. Runs of different lengths would put the texts apart in both closing bytes. -/
theorem OneByteApart.digits {x y : Byte} (hx : isDigit x = false) (hy : isDigit y = false) (hxy : x ≠ y) {d e r q : Bytes}
    (hd : ∀ b ∈ d, isDigit b = true) (he : ∀ b ∈ e, isDigit b = true)
    (h : OneByteApart (d ++ x :: y :: r) (e ++ x :: y :: q)) : (d = e ∧ OneByteApart r q) ∨ r = q := by
  have hne {b : Byte} (hb : isDigit b = true) : b ≠ x := by rintro rfl; rw [hx] at hb; cases hb
  induction d generalizing e with
  | nil =>
    cases e with
    | nil => exact .inl ⟨rfl, by simpa [oneByteApart_cons] using h⟩
    | cons b e =>
      obtain ⟨hb, he'⟩ := List.forall_mem_cons.1 he
      rw [List.nil_append, List.cons_append, oneByteApart_cons] at h
      rcases h with ⟨-, heq⟩ | ⟨heq, -⟩
      · exact absurd heq (cons_ne_digits_append hy hxy he' _ _)
      · exact absurd heq.symm (hne hb)
  | cons a d ih =>
    obtain ⟨ha, hd'⟩ := List.forall_mem_cons.1 hd
    cases e with
    | nil =>
      rw [List.nil_append, List.cons_append, oneByteApart_cons] at h
      rcases h with ⟨-, heq⟩ | ⟨heq, -⟩
      · exact absurd heq.symm (cons_ne_digits_append hy hxy hd' _ _)
      · exact absurd heq (hne ha)
    | cons b e =>
      obtain ⟨-, he'⟩ := List.forall_mem_cons.1 he
      rw [List.cons_append, List.cons_append, oneByteApart_cons] at h
      rcases h with ⟨-, heq⟩ | ⟨rfl, htail⟩
      · have hdrop := congrArg (List.dropWhile isDigit) heq
        rw [dropWhile_isDigit_append hd' hx, dropWhile_isDigit_append he' hx] at hdrop
        simp only [List.cons.injEq, true_and] at hdrop
        exact .inr hdrop
      · simpa using ih hd' he' htail

/-- Two encodings that differ in exactly one byte have the same checksum and differ after it, or differ in the checksum alone. -/
theorem frameT_oneByteApart {f g : Frame} {c d : Word} (h : OneByteApart (frameT f c) (frameT g d)) :
    (c = d ∧ OneByteApart (canon f) (canon g)) ∨ (c ≠ d ∧ canon f = canon g) := by
  have hcanon (k : Frame) : canon k = _ := frameT_eq_checksum_rest k 0#32
  have hpart := h
  rw [frameT_eq_checksum_rest, frameT_eq_checksum_rest, oneByteApart_append_left] at hpart
  rcases hpart.digits (by decide) (by decide) (by decide) (dec_digits _) (dec_digits _) with ⟨hdec, hrest⟩ | hrest
  · refine .inl ⟨BitVec.eq_of_toNat_eq (dec_injective hdec), ?_⟩
    simpa [hcanon, oneByteApart_cons] using hrest
  · have heq : canon f = canon g := by rw [hcanon, hcanon, hrest]
    refine .inr ⟨fun hcd => h.ne ?_, heq⟩
    rw [frameT_eq_checksum_rest, frameT_eq_checksum_rest, hcd, hrest]

/-- A text that differs from a frame built by `encode_alg` in exactly one byte does not decode as valid: the claimed checksum
differs and the recomputed one does not, or the other way round. -/
theorem decodeAlg_oneByteApart {srcPhys dstPhys : Bytes} {pkt : Packet} {b : Bytes} {f : Frame} {c : Word} {v : Bool}
    (h : OneByteApart b (encodeAlg srcPhys dstPhys pkt).1) (hd : decodeAlg b = some (f, c, v)) : v = false := by
  obtain ⟨hparse, -, rfl⟩ := decodeAlg_eq_some hd
  obtain ⟨-, rfl⟩ := parse_eq_some_iff.1 hparse
  rw [beq_eq_false_iff_ne]
  rw [encodeAlg_fst] at h
  rcases frameT_oneByteApart h with ⟨hclaim, hapart⟩ | ⟨hclaim, hsame⟩
  · rw [hclaim, ← crc32_canon_encodedFrame]
    exact hapart.crc32_ne
  · rw [hsame, crc32_canon_encodedFrame]
    exact hclaim.symm

/-- Settles O21: a flipped bit changes one byte of the frame, the claimed checksum's or the checksummed text's. -/
theorem singleBitFlipIsInvalid : Obligations.SingleBitFlipIsInvalid := by
  intro srcPhys dstPhys pkt k j _ hk hj f c v hd
  exact decodeAlg_oneByteApart (oneByteApart_modify (xor_ne_self (oneBit_ne_zero hj)) hk) hd

/-- A complemented printable byte is not printable: its top bit is set. -/
theorem complement_not_printable {b : Byte} (h : b.toNat ≤ 0x7E) : 0x7E < (b ^^^ 0xFF#8).toNat := by
  have hnot : b ^^^ 0xFF#8 = ~~~b := BitVec.xor_allOnes
  rw [hnot, BitVec.toNat_not]
  omega

/-- Bytes that parse are printable, being an encoding (R99, R101). -/
theorem printable_of_parse {b : Bytes} {f : Frame} (h : parse b = some f) : Printable b := by
  obtain ⟨-, rfl⟩ := parse_eq_some_iff.1 h
  exact printable_frameT f f.checksum

/-- A text printable but for one complemented byte does not parse. -/
theorem parse_complement {b : Bytes} (h : Printable b) {k : Nat} (hk : k < b.length) :
    parse (b.modify k (· ^^^ 0xFF#8)) = none := by
  rw [Option.eq_none_iff_forall_ne_some]
  intro f hf
  have hmem : b[k] ^^^ 0xFF#8 ∈ b.modify k (· ^^^ 0xFF#8) :=
    List.mem_iff_getElem.2 ⟨k, by simpa using hk, by simp⟩
  have hle := (printable_of_parse hf _ hmem).2
  have hgt := complement_not_printable (h _ (List.getElem_mem hk)).2
  omega

/-- Settles O22: every byte of an encoding is printable, a complemented one is not, and what parses is an encoding. -/
theorem complementedByteFailsParsing : Obligations.ComplementedByteFailsParsing := by
  intro srcPhys dstPhys pkt k hk
  exact decodeAlg_none (parse_complement (printable_frameT _ _) hk)

end Sys2Proof.Machine
end

section
/-! ### The packet model's TTL gate (42_packet.md R125, R129) -/

namespace Sys2Proof.Machine

/-- R125's gate is the order on the naturals: a word differs from 0 exactly when its value is positive. -/
theorem isTtlValid_eq_decide_pos (ttl : Word) : isTtlValid ttl = decide (0 < ttl.toNat) := by
  have hpos : ttl ≠ 0#32 ↔ 0 < ttl.toNat := by
    rw [Nat.pos_iff_ne_zero, ← BitVec.toNat_ne_iff_ne, BitVec.toNat_zero]
  rw [isTtlValid, Bool.eq_iff_iff, bne_iff_ne, decide_eq_true_iff, hpos]

/-- A command's end writes RESULT, IRQ_PEND.CMD_DONE and CMD_PHASE, and nothing else (R163). -/
theorem State.finish_eq (s : State) (r : CmdResult) :
    s.finish r = { s with result := r, irqPend := s.irqPend ||| 0x01#6, cmd := { s.cmd with phase := .idle } } := rfl

theorem exec_ttlchk (s : State) :
    exec .ttlchk s = .next (s.finish { code := .ok, flag := isTtlValid s.ws.ttl, parseOk := false, opc := 0x05#8 }) := rfl

/-- Settles O6: TTLCHK is the end of a command whose FLAG is the TTL gate, and the gate is `0 < WS_TTL`. -/
theorem ttlchkAnswersTtlGate : Obligations.TtlchkAnswersTtlGate := by
  intro s
  rw [exec_ttlchk, isTtlValid_eq_decide_pos, State.finish_eq]

end Sys2Proof.Machine
end

section
/-! ### What RXE.take does with an ACK (44_endpoint.md R146, R150) -/

namespace Sys2Proof.Machine

/-- RXE.take, enabled, removes the oldest datagram of the RXQ, counts it, and takes its bytes through the gates (R146). -/
theorem rxeTake_cons {s : State} {d : RxDatagram} {queue : List RxDatagram} (hwait : s.rx.rxWait = false)
    (hq : s.rx.rxq = d :: queue) :
    rxeTake s = outcomeOf (takeBytes d.bytes ({ s with rx := { s.rx with rxq := queue } }.bump .rx)) := by
  simp only [rxeTake, hwait, hq, Bool.false_eq_true, if_false]

/-- A turn of RXE whose datagram passes the integrity and TTL gates with an ACK is that ACK's handling (R146 to R150). -/
theorem step_rxeTake_ack {s : State} {d : RxDatagram} {queue : List RxDatagram} {f : Frame} (hrun : s.resetHeld = false)
    (hwait : s.rx.rxWait = false) (hq : s.rx.rxq = d :: queue) (hparse : parse d.bytes = some f)
    (hcrc : crc32 (canon f) = f.checksum) (httl : f.pkt.ttl ≠ 0#32) (hack : f.pkt.seg.isAck = true) (rest : List Turn) :
    step { s with turns := .rxeTake :: rest }
      = .next (takeAck f ({ s with turns := rest, rx := { s.rx with rxq := queue } }.bump .rx)) := by
  rw [step_live hrun, liveTurn, rxeTake_cons (s := { s with turns := rest }) hwait hq, takeBytes_valid hparse hcrc httl,
    if_pos hack]
  rfl

/-- The ACK of the outstanding bit sets the latch and is counted (R150). -/
theorem takeAck_outstanding {f : Frame} {s : State} (h : s.arq.state = .awaitingAck ∧ f.pkt.seg.seq = s.arq.seqBit) :
    takeAck f s = { s with
      cnt := { s.cnt with ackMatch := s.cnt.ackMatch + 1#32 }
      arq := { s.arq with ackLatch := true } } := if_pos h

/-- Every other ACK is counted as ignored (R150). -/
theorem takeAck_ignored {f : Frame} {s : State} (h : ¬ (s.arq.state = .awaitingAck ∧ f.pkt.seg.seq = s.arq.seqBit)) :
    takeAck f s = { s with
      cnt       := { s.cnt with ackIgnored := s.cnt.ackIgnored + 1#32 }
      dropCause := .ignoredAck } := if_neg h

/-- Settles O35: the turn is the ACK's handling, whose one test is that of the statement; what RXE.take has done before it, to
the RXQ and CNT_RX, leaves the sender it tests as it was. -/
theorem ackGateSetsLatch : Obligations.AckGateSetsLatch := by
  intro s d queue f hrun hwait hq hparse hcrc httl hack
  by_cases houtstanding : s.arq.state = .awaitingAck ∧ f.pkt.seg.seq = s.arq.seqBit
  · rw [if_pos houtstanding]
    intro rest
    rw [step_rxeTake_ack hrun hwait hq hparse hcrc httl hack]
    exact congrArg Host.Outcome.next (takeAck_outstanding houtstanding)
  · rw [if_neg houtstanding]
    intro rest
    rw [step_rxeTake_ack hrun hwait hq hparse hcrc httl hack]
    exact congrArg Host.Outcome.next (takeAck_ignored houtstanding)

end Sys2Proof.Machine
end

section
/-! ### RXPOP (44_endpoint.md R157) -/

namespace Sys2Proof.Machine

/-- RXPOP with the slot held releases it and ends with OK (R157). -/
theorem exec_rxpop_held {s : State} (h : s.rx.rxmFull = true) :
    exec .rxpop s = .next ({ s with rx := { s.rx with rxmFull := false } }.finishOk 0x08#8) := by
  simp only [exec, execRxpop, h, if_true, State.endCommand]

/-- RXPOP with the slot empty raises E_STATE (R157). -/
theorem exec_rxpop_empty {s : State} (h : s.rx.rxmFull = false) : exec .rxpop s = .next (s.raiseResult .eState) := by
  simp only [exec, execRxpop, h, Bool.false_eq_true, if_false, State.endCommand]

/-- Settles O7: in both cases RXPOP is the end of a command, on the state with the slot released or on the state as it was. -/
theorem rxpopReleasesSlot : Obligations.RxpopReleasesSlot := by
  intro s
  constructor
  · intro hheld
    rw [exec_rxpop_held hheld, State.finishOk, State.finish_eq]
  · intro hempty
    rw [exec_rxpop_empty hempty, State.raiseResult, State.finish_eq]

end Sys2Proof.Machine
end

section
/-! ### The network port (44_endpoint.md R145) -/

namespace Sys2Proof.Machine

/-- A discard that raises RX_DROP writes its counter, DROP_CAUSE and IRQ_PEND, and nothing else (R145, R147, R148, R153). -/
theorem discard_eq (c : Counter) (cause : DropCause) (s : State) :
    discard c cause s = { s with cnt := s.cnt.bump c, dropCause := cause, irqPend := s.irqPend ||| 0x10#6 } := rfl

section
variable {b : Bytes} {src : Endpoint} {s : State}

/-- With RX_EN = 0 the port discards without an interrupt (R145). -/
theorem netArrive_off (hoff : s.rxEn = false) : netArrive b src s = (s.bump .rxOff).drop .rxOff := by
  simp [netArrive, hoff]

/-- A datagram above FRAME_CAP is discarded with cause INTEGRITY (R145). -/
theorem netArrive_long (hon : s.rxEn = true) (hlong : 12288 < b.length) :
    netArrive b src s = discard .rxIntegrity .integrity s := by
  simp [netArrive, hon, Config.frameCap, hlong]

/-- An arrival at a full RXQ is discarded with cause RXQ_OVF (R145). -/
theorem netArrive_full (hon : s.rxEn = true) (hlen : ¬ 12288 < b.length) (hfull : 4 ≤ s.rx.rxq.length) :
    netArrive b src s = discard .rxqOvf .rxqOvf s := by
  simp [netArrive, hon, Config.frameCap, hlen, Config.rxqDepth, hfull]

/-- Any other arrival is appended to the RXQ (R145). -/
theorem netArrive_queued (hon : s.rxEn = true) (hlen : ¬ 12288 < b.length) (hroom : ¬ 4 ≤ s.rx.rxq.length) :
    netArrive b src s = { s with rx := { s.rx with rxq := s.rx.rxq ++ [{ bytes := b, src := src }] } } := by
  simp [netArrive, hon, Config.frameCap, hlen, Config.rxqDepth, hroom]

end

/-- Settles O33: the port's four outcomes, in the order in which R145 tests for them. -/
theorem networkPortArrival : Obligations.NetworkPortArrival := by
  intro s b src
  by_cases hoff : s.rxEn = false
  · rw [if_pos hoff, netArrive_off hoff]
    rfl
  rw [if_neg hoff]
  have hon : s.rxEn = true := Bool.eq_true_of_not_eq_false hoff
  by_cases hlong : 12288 < b.length
  · rw [if_pos hlong, netArrive_long hon hlong, discard_eq]
    rfl
  rw [if_neg hlong]
  by_cases hfull : 4 ≤ s.rx.rxq.length
  · rw [if_pos hfull, netArrive_full hon hlong hfull, discard_eq]
    rfl
  · rw [if_neg hfull, netArrive_queued hon hlong hfull]

end Sys2Proof.Machine
end

section
/-! ### The command unit (45_control.md R161 to R165) -/

namespace Sys2Proof

/-- The assigned opcodes are 0x00 to 0x08 (R84). -/
theorem Instr.opcode_lt (i : Instr) : i.opcode.toNat < 0x09 := by
  cases i <;> decide

/-- A bit of RSVD set, or a reserved opcode, makes a word illegal (R85). -/
theorem exists_decode_eq_error {w : Word} (h : commandRsvd w ≠ 0#24 ∨ 0x09 ≤ (commandOpc w).toNat) :
    ∃ e, decode w = .error e := by
  cases hd : decode w with
  | error e => exact ⟨e, rfl⟩
  | ok i =>
    obtain ⟨hrsvd, hopc⟩ := decode_eq_ok_iff.1 hd
    have hlt : (commandOpc w).toNat < 0x09 := hopc ▸ i.opcode_lt
    exact absurd h (not_or.2 ⟨not_not.2 hrsvd, Nat.not_le.2 hlt⟩)

end Sys2Proof

namespace Sys2Proof.Machine

/-! #### CMD.exec -/

/-- CMD.exec on a word the decoder rejects completes it as illegal (R164). -/
theorem cmdExec_illegal {s : State} {e : DecodeError} (hphase : s.cmd.phase = .exec) (hd : decode s.cmd.word = .error e) :
    cmdExec s = .next (execIllegal s) := by
  simp only [cmdExec, hphase, hd, if_true]

/-- Settles O3: the decoder rejects the word, and an illegal word's completion is a command's end with E_ILLEGAL. -/
theorem illegalWordCompletes : Obligations.IllegalWordCompletes := by
  intro s hrun hphase hillegal rest
  obtain ⟨e, hd⟩ := exists_decode_eq_error hillegal
  rw [step_live hrun, liveTurn, cmdExec_illegal (s := { s with turns := rest }) hphase hd, execIllegal, State.finish_eq]

theorem exec_nop (s : State) : exec .nop s = .next (s.finishOk 0x00#8) := rfl

/-- Settles O4: NOP is a command's end with OK, and nothing before it. -/
theorem nopOnlyCompletes : Obligations.NopOnlyCompletes := by
  intro s
  rw [exec_nop, State.finishOk, State.finish_eq]

/-! #### The write to CMD -/

/-- CMD stands at 0x010 (R17). -/
theorem apertureAt_cmd : apertureAt 0x010 = .reg .cmd := rfl

/-- A write of the word at 0x010 offers a command (R161, R162). -/
theorem apertureWrite_cmd (s : State) (w : Word) : apertureWrite s 0x010 w = acceptCommand s w := by
  simp only [apertureWrite, apertureAt_cmd, regWrite]

/-- An idle command unit takes the word (R161). -/
theorem acceptCommand_idle {s : State} (h : s.cmd.phase = .idle) (w : Word) :
    acceptCommand s w = { s with cmd := { phase := .exec, word := w, opc := w.extractLsb' 0 8 } } := if_pos h

/-- A busy one drops it and raises CMD_OVR (R162). -/
theorem acceptCommand_busy {s : State} (h : s.cmd.phase ≠ .idle) (w : Word) :
    acceptCommand s w = { s with irqPend := s.irqPend ||| 0x20#6 } := if_neg h

/-- A host's 32-bit write to CMD offers its word to the command unit (R161, R162). -/
theorem step_hostWrite_cmd {s : State} (hrun : s.resetHeld = false) (w : Word) (rest : List Turn) :
    step { s with turns := .host (.write .w32 0x010 (w.setWidth 64)) :: rest }
      = .next { acceptCommand { s with turns := rest } w with bus := .written } := by
  have hw : (w.setWidth 64).setWidth 32 = w :=
    (BitVec.setWidth_setWidth_of_le w (by decide)).trans (BitVec.setWidth_eq w)
  rw [step_hostWrite hrun (by decide) (by decide), hw, apertureWrite_cmd]

/-- Settles O40: the write offers the word to the command unit, which tests CMD_PHASE as the statement does. -/
theorem commandWriteAcceptedOrDropped : Obligations.CommandWriteAcceptedOrDropped := by
  intro s w hrun rest
  rw [step_hostWrite_cmd hrun]
  by_cases hidle : s.cmd.phase = .idle
  · rw [if_pos hidle, acceptCommand_idle (s := { s with turns := rest }) hidle]
  · rw [if_neg hidle, acceptCommand_busy (s := { s with turns := rest }) hidle]

end Sys2Proof.Machine
end

section
/-! ### The soft reset (70_reset_and_hazards.md R187) -/

namespace Sys2Proof.Machine

/-- `MemWrite(o, 4, v)` as a turn of the running block: the bus carries the word's own 32 bits (R62). -/
theorem step_hostWrite_word {s : State} (hrun : s.resetHeld = false) {o : Nat} (ho : o < 0x8000) (ha : o % 4 = 0) (v : Word)
    (rest : List Turn) :
    step { s with turns := .host (.write .w32 o (v.setWidth 64)) :: rest }
      = .next { apertureWrite { s with turns := rest } o v with bus := .written } := by
  have hv : (v.setWidth 64).setWidth 32 = v :=
    (BitVec.setWidth_setWidth_of_le v (by decide)).trans (BitVec.setWidth_eq v)
  rw [step_hostWrite hrun ho ha, hv]

/-- CTRL stands at 0x008 (R17). -/
theorem apertureAt_ctrl : apertureAt 0x008 = .reg .ctrl := rfl

/-- A write of the word at 0x008 is a write to CTRL (R20). -/
theorem apertureWrite_ctrl (s : State) (v : Word) : apertureWrite s 0x008 v = writeCtrl s v := by
  simp only [apertureWrite, apertureAt_ctrl, regWrite]

/-- With SRST = 1 the soft reset comes first, and RX_EN then takes bit [0] (R187). -/
theorem writeCtrl_srst {v : Word} (h : v.getLsbD 1 = true) (s : State) :
    writeCtrl s v = { softReset s with rxEn := v.getLsbD 0 } := by
  simp only [writeCtrl, h, if_true]

/-- The soft reset field by field: the reset state, but for what R187 keeps and what is not the block's own. -/
theorem softReset_eq (s : State) :
    softReset s = { State.reset with
      cfg := s.cfg, irqEn := s.irqEn, ws := s.ws, txm := s.txm, lram := s.lram, resetHeld := s.resetHeld, bus := s.bus,
      net := s.net, turns := s.turns, turnCount := s.turnCount } := rfl

/-- The reset input is released at power-on. -/
theorem reset_resetHeld : State.reset.resetHeld = false := rfl

/-- Settles O50: the access is a write to CTRL with SRST = 1, so the soft reset of the state with the turn taken; it leaves the
reset input released, as the reset state has it. -/
theorem softResetKeepsConfiguration : Obligations.SoftResetKeepsConfiguration := by
  intro s v hrun hsrst rest
  rw [step_hostWrite_word hrun (by decide) (by decide), apertureWrite_ctrl, writeCtrl_srst hsrst, softReset_eq, hrun,
    reset_resetHeld]

end Sys2Proof.Machine
end

section
/-! ### The length of an encoding (30_encoding.md R100) -/

namespace Sys2Proof.Machine

/-- A message's fixed texts are 58 bytes (R95). -/
theorem msgT_length (m : Message) : (msgT m).length =
    58 + (strT m.senderAddr).length + (strT m.text).length + (dec m.ts.toNat).length + (strT m.type).length := by
  have hfixed : tSenderAddr.length = 15 ∧ tText.length = 10 ∧ tTimestamp.length = 22 ∧ tType.length = 10
      ∧ tClose.length = 1 := by decide
  simp only [msgT, List.length_append]
  omega

/-- `true` is one byte shorter than `false` (R94). -/
theorem boolT_length (x : Bool) : (boolT x).length = if x then 4 else 5 := by
  revert x; decide

/-- A segment's fixed texts and its sequence bit are 42 bytes (R95). -/
theorem segT_length (s : Segment) :
    (segT s).length = 42 + (boolT s.isAck).length + (payT s.payload).length := by
  have hfixed : tIsAck.length = 10 ∧ tPayload.length = 13 ∧ tSequenceBit.length = 17 ∧ tClose.length = 1 := by decide
  have hbit : ∀ b : SeqBit, (bitT b).length = 1 := by decide
  have := hbit s.seq
  simp only [segT, List.length_append]
  omega

/-- A packet's fixed texts are 59 bytes (R95). -/
theorem pktT_length (k : Packet) : (pktT k).length =
    59 + (segT k.seg).length + (strT k.dstLog).length + (strT k.srcLog).length + (dec k.ttl.toNat).length := by
  have hfixed : tPktData.length = 9 ∧ tDstLog.length = 20 ∧ tSrcLog.length = 20 ∧ tTtl.length = 9 ∧ tClose.length = 1 := by
    decide
  simp only [pktT, List.length_append]
  omega

/-- A frame's fixed texts are 58 bytes (R95). -/
theorem frameT_length (f : Frame) (c : Word) : (frameT f c).length =
    58 + (dec c.toNat).length + (pktT f.pkt).length + (strT f.dstPhys).length + (strT f.srcPhys).length := by
  have hfixed : tChecksum.length = 13 ∧ tFrameData.length = 10 ∧ tDstPhys.length = 17 ∧ tSrcPhys.length = 17
      ∧ tClose.length = 1 := by decide
  simp only [frameT, List.length_append]
  omega

/-- A 32-bit number has one to ten digits. -/
theorem dec_length_word (w : Word) : 0 < (dec w.toNat).length ∧ (dec w.toNat).length ≤ 10 :=
  dec_length (Nat.lt_of_lt_of_le w.isLt (by decide)) (by decide)

/-- A payload is `null`, or a message's encoding, longer by 61 bytes at least (R95). -/
theorem payT_length_pos (p : Option Message) : if p = none then (payT p).length = 4 else 65 ≤ (payT p).length := by
  cases p with
  | none => decide
  | some m =>
    have hsender := (strT_length m.senderAddr).1
    have htext := (strT_length m.text).1
    have htype := (strT_length m.type).1
    have hts := (dec_length (n := m.ts.toNat) (k := 20) (Nat.lt_of_lt_of_le m.ts.isLt (by decide)) (by decide)).1
    simp only [payT, msgT_length, reduceCtorEq, if_false]
    omega

/-- The longest payload is a message at capacity with every byte escaped (R91, R92). -/
theorem payT_length_le {p : Option Message} (h : ∀ m, p = some m →
    m.type.length ≤ 32 ∧ m.senderAddr.length ≤ 64 ∧ m.text.length ≤ 1024) : (payT p).length ≤ 6804 := by
  cases p with
  | none => decide
  | some m =>
    obtain ⟨ctype, csender, ctext⟩ := h m rfl
    have hsender := (strT_length m.senderAddr).2
    have htext := (strT_length m.text).2
    have htype := (strT_length m.type).2
    have hts := (dec_length (n := m.ts.toNat) (k := 20) (Nat.lt_of_lt_of_le m.ts.isLt (by decide)) (by decide)).2
    simp only [payT, msgT_length]
    omega

/-- The longest encoding of a frame value within range (R100). -/
theorem frameT_length_le {f : Frame} (hwf : f.wf = true) (c : Word) : (frameT f c).length ≤ 8532 := by
  obtain ⟨csrcPhys, cdstPhys, csrcLog, cdstLog, cmsg⟩ := Frame.wf_caps hwf
  have hsrcPhys := (strT_length f.srcPhys).2
  have hdstPhys := (strT_length f.dstPhys).2
  have hsrcLog := (strT_length f.pkt.srcLog).2
  have hdstLog := (strT_length f.pkt.dstLog).2
  have hpay := payT_length_le cmsg
  have httl := (dec_length_word f.pkt.ttl).2
  have hc := (dec_length_word c).2
  have hbool : (boolT f.pkt.seg.isAck).length ≤ 5 := by rw [boolT_length]; split <;> omega
  rw [frameT_length, pktT_length, segT_length]
  omega

/-- The shortest encoding, by the token of `isAck` (R94, R95). -/
theorem le_frameT_length (f : Frame) (c : Word) : (if f.pkt.seg.isAck then 177 else 178) ≤ (frameT f c).length := by
  have hsrcPhys := (strT_length f.srcPhys).1
  have hdstPhys := (strT_length f.dstPhys).1
  have hsrcLog := (strT_length f.pkt.srcLog).1
  have hdstLog := (strT_length f.pkt.dstLog).1
  have hpay : 4 ≤ (payT f.pkt.seg.payload).length := by
    have := payT_length_pos f.pkt.seg.payload; split at this <;> omega
  have httl := (dec_length_word f.pkt.ttl).1
  have hc := (dec_length_word c).1
  have hbool := boolT_length f.pkt.seg.isAck
  rw [frameT_length, pktT_length, segT_length]
  by_cases hack : f.pkt.seg.isAck = true
  · rw [if_pos hack] at hbool ⊢
    omega
  · rw [if_neg hack] at hbool ⊢
    omega

theorem decAux_length_lt_two {fuel n : Nat} (h : (decAux (fuel + 1) n []).length < 2) (hfuel : 0 < fuel) : n < 10 := by
  by_contra hn
  have hpos := decAux_pos fuel (n / 10) hfuel
  rw [decAux, if_neg hn, decAux_append] at h
  simp only [List.length_append, List.length_cons, List.length_nil] at h
  omega

/-- A number of one digit is below 10. -/
theorem lt_ten_of_dec_length {n : Nat} (h : (dec n).length < 2) : n < 10 := by
  rcases Nat.eq_zero_or_pos n with rfl | hn
  · decide
  · exact decAux_length_lt_two h hn

/-- A frame value with empty strings and a null payload. -/
def bareFrame (isAck : Bool) (ttl : Word) (seq : SeqBit) (c : Word) : Frame :=
  { srcPhys := [], dstPhys := [], checksum := c,
    pkt := { srcLog := [], dstLog := [], ttl := ttl, seg := { seq := seq, isAck := isAck, payload := none } } }

/-- Only a bare ACK with a one-digit ttl and a one-digit checksum is encoded in less than 178 bytes (R94, R95). -/
theorem eq_bareAck_of_frameT_length_lt {f : Frame} {c : Word} (h : (frameT f c).length < 178) :
    f = bareFrame true f.pkt.ttl f.pkt.seg.seq f.checksum ∧ f.pkt.ttl.toNat < 10 ∧ c.toNat < 10 := by
  have hsrcPhys := (strT_length f.srcPhys).1
  have hdstPhys := (strT_length f.dstPhys).1
  have hsrcLog := (strT_length f.pkt.srcLog).1
  have hdstLog := (strT_length f.pkt.dstLog).1
  have hpay := payT_length_pos f.pkt.seg.payload
  have httl := (dec_length_word f.pkt.ttl).1
  have hc := (dec_length_word c).1
  have hbool := boolT_length f.pkt.seg.isAck
  rw [frameT_length, pktT_length, segT_length] at h
  have hnone : f.pkt.seg.payload = none := by
    by_contra hsome
    rw [if_neg hsome] at hpay
    split at hbool <;> omega
  rw [if_pos hnone] at hpay
  have hack : f.pkt.seg.isAck = true := by
    by_contra hdata
    rw [if_neg hdata] at hbool
    omega
  rw [if_pos hack] at hbool
  have e1 : f.srcPhys = [] := List.length_eq_zero_iff.1 (by omega)
  have e2 : f.dstPhys = [] := List.length_eq_zero_iff.1 (by omega)
  have e3 : f.pkt.srcLog = [] := List.length_eq_zero_iff.1 (by omega)
  have e4 : f.pkt.dstLog = [] := List.length_eq_zero_iff.1 (by omega)
  refine ⟨?_, lt_ten_of_dec_length (by omega), lt_ten_of_dec_length (by omega)⟩
  obtain ⟨srcPhys, dstPhys, checksum, ⟨srcLog, dstLog, ttl, ⟨seq, isAck, payload⟩⟩⟩ := f
  simp only at e1 e2 e3 e4 hnone hack
  subst e1 e2 e3 e4 hnone hack
  rfl

/-- The checksum register as a number, computed byte by byte: each byte's register is evaluated before the next is read. -/
def crcRegister (n : Nat) : Bytes → Nat
  | [] => n
  | b :: s =>
    match (crcByte (BitVec.ofNat 32 n) b).toNat with
    | 0 => crcRegister 0 s
    | k + 1 => crcRegister (k + 1) s

theorem crcRegister_eq (s : Bytes) (c : Word) : crcRegister c.toNat s = (s.foldl crcByte c).toNat := by
  induction s generalizing c with
  | nil => rfl
  | cons b s ih =>
    have hstep : crcRegister c.toNat (b :: s) = crcRegister (crcByte c b).toNat s := by
      simp only [crcRegister, BitVec.ofNat_toNat, BitVec.setWidth_eq]
      split
      next h => rw [h]
      next k h => rw [h]
    rw [hstep, ih, List.foldl_cons]

/-- No bare ACK with a one-digit ttl has a one-digit checksum. -/
theorem le_crc32_bareAck (i : Fin 10) (seq : SeqBit) (c : Word) :
    10 ≤ (crc32 (canon (bareFrame true (BitVec.ofNat 32 i.1) seq c))).toNat := by
  have hall : ∀ (i : Fin 10) (seq : SeqBit), 10 ≤ (BitVec.ofNat 32 (crcRegister (0xFFFFFFFF#32).toNat
      (canon (bareFrame true (BitVec.ofNat 32 i.1) seq 0#32))) ^^^ 0xFFFFFFFF#32).toNat := by
    decide +kernel
  have hle := hall i seq
  rw [crcRegister_eq, BitVec.ofNat_toNat, BitVec.setWidth_eq] at hle
  exact hle

/-- A frame whose checksum is right is encoded in at least 178 bytes (R100). -/
theorem le_wire_length_of_crc32 {f : Frame} (h : crc32 (canon f) = f.checksum) : 178 ≤ (wire f).length := by
  by_contra hlt
  obtain ⟨hf, httl, hc⟩ := eq_bareAck_of_frameT_length_lt (Nat.lt_of_not_le hlt)
  have hcrc := le_crc32_bareAck ⟨f.pkt.ttl.toNat, httl⟩ f.pkt.seg.seq f.checksum
  simp only [BitVec.ofNat_toNat, BitVec.setWidth_eq] at hcrc
  rw [← hf, h] at hcrc
  omega

/-- A string of `n` bytes of value 0, each escaped in six bytes (R92). -/
theorem strT_replicate_length (n : Nat) : (strT (List.replicate n 0#8)).length = 2 + 6 * n := by
  have hesc : (esc 0#8).length = 6 := by decide
  simp only [strT, List.length_cons, List.length_append, List.length_flatMap, List.map_replicate, hesc, List.sum_replicate,
    smul_eq_mul, List.length_nil]
  omega

/-- The frame value with every string at capacity and every byte escaped, and every number at its widest. -/
def longestFrame : Frame :=
  { srcPhys := List.replicate 64 0#8, dstPhys := List.replicate 64 0#8, checksum := 0xFFFFFFFF#32,
    pkt :=
      { srcLog := List.replicate 64 0#8, dstLog := List.replicate 64 0#8, ttl := 0xFFFFFFFF#32,
        seg :=
          { seq := 0#1, isAck := false,
            payload := some
              { type := List.replicate 32 0#8, senderAddr := List.replicate 64 0#8, text := List.replicate 1024 0#8,
                ts := 0xFFFFFFFFFFFFFFFF#64 } } } }

theorem longestFrame_wf : longestFrame.wf = true := by
  decide +kernel

theorem wire_longestFrame_length : (wire longestFrame).length = 8532 := by
  have hword : (dec (0xFFFFFFFF#32).toNat).length = 10 := by decide +kernel
  have hts : (dec (0xFFFFFFFFFFFFFFFF#64).toNat).length = 20 := by decide +kernel
  have hbool : (boolT false).length = 5 := by decide
  simp only [wire, frameT_length, pktT_length, segT_length, longestFrame, payT, msgT_length, strT_replicate_length, hword,
    hts, hbool]

/-- The bounds are attained: with numbers of one digit nothing but the token of `isAck` is left to choose. -/
theorem wire_bareFrame_length (b : Bool) : (wire (bareFrame b 0#32 0#1 0#32)).length = if b then 177 else 178 := by
  have hstr : (strT []).length = 2 := by decide
  have hdec : (dec (0#32).toNat).length = 1 := by decide
  have hnull : (payT none).length = 4 := by decide
  simp only [wire, frameT_length, pktT_length, segT_length, bareFrame, boolT_length, hstr, hdec, hnull]
  cases b <;> rfl

/-- Settles O19: the lengths add up token by token; only a bare ACK could be shorter than 178 bytes, and its checksum, computed,
has more than one digit. -/
theorem wireLengthBounds : Obligations.WireLengthBounds := by
  refine ⟨fun f hwf => ⟨le_frameT_length f f.checksum, frameT_length_le hwf f.checksum, le_wire_length_of_crc32⟩,
    fun b => ⟨bareFrame b 0#32 0#1 0#32, rfl, rfl, wire_bareFrame_length b⟩, longestFrame, longestFrame_wf, wire_longestFrame_length⟩

end Sys2Proof.Machine
end

section
/-! ### What one step can do (00_scope.md R13) -/

namespace Sys2Proof.Machine

/-- The command unit, its result, the sender, the receive engine and the injector are the same in both states. -/
structure SameUnits (s t : State) : Prop where
  result : t.result = s.result
  arq : t.arq = s.arq
  rx : t.rx = s.rx
  inj : t.inj = s.inj
  cmd : t.cmd = s.cmd

theorem SameUnits.refl (s : State) : SameUnits s s := ⟨rfl, rfl, rfl, rfl, rfl⟩

/-- What a turn `tn` can make of the state `s`, turn by turn: the one place where the agents' steps are taken apart. -/
inductive Transition : Turn → State → State → Prop
  /-- The units, LRAM and what is on the wire are as they were, or the wire has lost something: a turn that is not enabled, a
  configuration write, the environment. -/
  | still {tn : Turn} {s t : State} (units : SameUnits s t) (lram : t.lram = s.lram)
      (wire : t.net.flight.Sublist s.net.flight) : Transition tn s t
  /-- A soft or a hard reset (R185, R187). -/
  | reset {tn : Turn} {s t : State} (isReset : tn.isReset = true) (units : SameUnits State.reset t)
      (lram : t.lram = s.lram ∨ t.lram = []) (net : t.net = s.net) : Transition tn s t
  /-- A host write of one word of LRAM (R58). -/
  | hostLram {a : HostAccess} {s t : State} (o : Nat) (w : Word) (units : SameUnits s t)
      (lram : t.lram = s.lram.write o (bytesOfWord w)) (aligned : o % 4 = 0) (inside : ∀ i < 4, isLramOffset (o + i) = true)
      (net : t.net = s.net) : Transition (.host a) s t
  /-- A host write to CMD, taken (R161). -/
  | accept {a : HostAccess} {s t : State} (w : Word) (idle : s.cmd.phase = .idle)
      (units : SameUnits { s with cmd := { phase := .exec, word := w, opc := w.extractLsb' 0 8 } } t)
      (lram : t.lram = s.lram) (net : t.net = s.net) : Transition (.host a) s t
  /-- CMD.exec of a legal command word (R163). -/
  | command {s t : State} (i : Instr) (phase : s.cmd.phase = .exec) (word : decode s.cmd.word = .ok i)
      (next : exec i s = .next t) : Transition .cmdExec s t
  /-- CMD.exec of an illegal command word (R164). -/
  | illegal {s : State} (phase : s.cmd.phase = .exec) : Transition .cmdExec s (execIllegal s)
  /-- ARQ.complete (R135). -/
  | arqComplete {s : State} (enabled : arqCompleteEnabled s = true) : Transition .arqComplete s (arqComplete s)
  /-- ARQ.timeout (R136). -/
  | arqTimeout {s : State} (enabled : arqTimeoutEnabled s = true) : Transition .arqTimeout s (arqTimeout s)
  /-- RXE.take (R146). -/
  | take {s t : State} (d : RxDatagram) (queue : List RxDatagram) (ready : s.rx.rxWait = false) (queued : s.rx.rxq = d :: queue)
      (taken : takeBytes d.bytes ({ s with rx := { s.rx with rxq := queue } }.bump .rx) = .ok t) : Transition .rxeTake s t
  /-- INJ.start (R106). -/
  | injStart {s : State} (d : Draws) (req : Request) (queue : List Request) (free : s.inj.serving = none)
      (queued : s.inj.txq = req :: queue) : Transition (.injStart d) s (injServe req queue d s)
  /-- INJ.emit (R111). -/
  | injEmit {s : State} (req : Request) (serving : s.inj.serving = some req) :
      Transition .injEmit s (injIdle (completeRequest req.tag (emitDatagram req s)))
  /-- TICK.ms with TICK.inj (R138, R110). -/
  | tick {s : State} : Transition .tick s (tickRouters (tickBlock s))
  /-- NET delivers a datagram to the block (R74, R145). -/
  | arrive {s : State} (k : Nat) (d : Datagram) (u : State) (units : SameUnits s u) (lram : u.lram = s.lram)
      (wire : u.net.flight.Sublist s.net.flight) : Transition (.netDeliver k) s (netArrive d.bytes d.src u)
  /-- The environment puts a datagram on the wire (R74, R77). -/
  | emission {tn : Turn} {s t : State} (x : Transit) (units : SameUnits s t) (lram : t.lram = s.lram)
      (wire : t.net.flight = s.net.flight ++ [x])
      (emitter : (∃ n, tn = .netInject n x.datagram ∧ x.emitter = .other n) ∨ ∃ i, tn = .routerEmit i ∧ x.emitter = .router i) :
      Transition tn s t

/-- A turn that changes nothing. -/
theorem Transition.refl (tn : Turn) (s : State) : Transition tn s s := .still (.refl s) rfl (.refl _)

/-- A change of the network alone that adds nothing to the wire. -/
theorem Transition.withNet {tn : Turn} {s : State} {n : Net} (h : n.flight.Sublist s.net.flight) :
    Transition tn s (s.withNet n) := .still ⟨rfl, rfl, rfl, rfl, rfl⟩ rfl h

/-! #### The host's writes -/

/-- CTRL stands at 0x008 alone (R17). -/
theorem regMap_ctrl {o : Nat} (h : (o, .ctrl) ∈ regMap) : o = 0x008 := by
  have hall : ∀ p ∈ regMap, p.2 = .ctrl → p.1 = 0x008 := by decide
  exact hall _ h rfl

/-- With SRST = 0 a write to CTRL stores RX_EN alone (R20). -/
theorem writeCtrl_run {v : Word} (h : ¬ v.getLsbD 1 = true) (s : State) : writeCtrl s v = { s with rxEn := v.getLsbD 0 } := by
  simp only [writeCtrl, if_neg h]

/-- A register write resets the block, offers a command, or leaves the units, LRAM and the network as they were (R17, R20). -/
theorem regWrite_cases (s : State) (v : Word) (r : Reg) :
    (r = .ctrl ∧ v.getLsbD 1 = true ∧ regWrite s v r = { softReset s with rxEn := v.getLsbD 0 })
      ∨ (r = .cmd ∧ regWrite s v r = acceptCommand s v)
      ∨ (SameUnits s (regWrite s v r) ∧ (regWrite s v r).lram = s.lram ∧ (regWrite s v r).net = s.net) := by
  cases r with
  | ctrl =>
    by_cases hsrst : v.getLsbD 1 = true
    · exact .inl ⟨rfl, hsrst, writeCtrl_srst hsrst s⟩
    · refine .inr (.inr ?_)
      rw [regWrite, writeCtrl_run hsrst]
      exact ⟨⟨rfl, rfl, rfl, rfl, rfl⟩, rfl, rfl⟩
  | cmd => exact .inr (.inl ⟨rfl, rfl⟩)
  | _ => exact .inr (.inr ⟨⟨rfl, rfl, rfl, rfl, rfl⟩, rfl, rfl⟩)

/-- A host access that answers. -/
theorem hostAccess_transition {a : HostAccess} {s t : State} (h : hostAccess a s = .next t) : Transition (.host a) s t := by
  rcases hostAccess_cases h with hbus | ⟨o, v, rfl, -, haligned, rfl⟩
  · rw [hbus]
    exact .still ⟨rfl, rfl, rfl, rfl, rfl⟩ rfl (.refl _)
  rcases apertureWrite_cases s o (v.setWidth 32) haligned with ⟨r, hmap, hwrite⟩ | hwrite | ⟨w, hwrite, hinside⟩
  · rcases regWrite_cases s (v.setWidth 32) r with ⟨rfl, hsrst, hreset⟩ | ⟨rfl, haccept⟩ | ⟨hunits, hlram, hnet⟩
    · rw [hwrite, hreset]
      have hv : v.getLsbD 1 = true := by simpa using hsrst
      refine .reset ?_ ⟨rfl, rfl, rfl, rfl, rfl⟩ (.inl rfl) rfl
      simp [Turn.isReset, regMap_ctrl hmap, hv]
    · rw [hwrite, haccept]
      by_cases hidle : s.cmd.phase = .idle
      · rw [acceptCommand_idle hidle]
        exact .accept (v.setWidth 32) hidle ⟨rfl, rfl, rfl, rfl, rfl⟩ rfl rfl
      · rw [acceptCommand_busy hidle]
        exact .still ⟨rfl, rfl, rfl, rfl, rfl⟩ rfl (.refl _)
    · rw [hwrite]
      obtain ⟨h1, h2, h3, h4, h5⟩ := hunits
      refine .still ⟨h1, h2, h3, h4, h5⟩ hlram ?_
      rw [hnet]
  · rw [hwrite]
    exact .still ⟨rfl, rfl, rfl, rfl, rfl⟩ rfl (.refl _)
  · rw [hwrite]
    exact .hostLram o w ⟨rfl, rfl, rfl, rfl, rfl⟩ rfl haligned hinside rfl

/-! #### The environment -/

theorem netLose_transition (k : Nat) (s : State) : Transition (.netLose k) s (netLose k s) :=
  .withNet (List.eraseIdx_sublist ..)

theorem netInject_transition (n : Nat) (d : Datagram) (s : State) : Transition (.netInject n d) s (netInject n d s) :=
  .emission { emitter := .other n, datagram := d } ⟨rfl, rfl, rfl, rfl, rfl⟩ rfl rfl (.inl ⟨n, rfl, rfl⟩)

theorem routerStart_transition (i : Nat) (d : Draws) (s : State) : Transition (.routerStart i d) s (routerStart i d s) :=
  .withNet (.refl _)

theorem routerEmit_transition (i : Nat) (s : State) : Transition (.routerEmit i) s (routerEmit i s) := by
  unfold routerEmit
  split
  · exact .refl _ s
  · split
    · exact .refl _ s
    · rename_i d _
      split
      · exact .emission { emitter := .router i, datagram := d } ⟨rfl, rfl, rfl, rfl, rfl⟩ rfl rfl (.inr ⟨i, rfl, rfl⟩)
      · exact .refl _ s

theorem wireNet_transition (e : Endpoint) (rs : List Router) (s : State) : Transition (.wire e rs) s (wireNet e rs s) := by
  unfold wireNet
  split
  · exact .withNet (.refl _)
  · exact .refl _ s

theorem tickRouters_transition (s : State) : Transition .tick s (tickRouters s) := by
  unfold tickRouters
  split
  · exact .withNet (.refl _)
  · exact .refl _ s

/-- A delivery ends at the block's port, or changes the network alone. -/
theorem netDeliver_transition (k : Nat) (s : State) : Transition (.netDeliver k) s (netDeliver k s) := by
  unfold netDeliver
  split
  · exact .refl _ s
  · rename_i x _
    split
    · exact .withNet (List.eraseIdx_sublist ..)
    · have hwire := flightAfter_sublist Config.netModel s.net.flight k x
      unfold receiveAt
      split
      · split
        · exact .withNet hwire
        · exact .arrive k x.datagram _ ⟨rfl, rfl, rfl, rfl, rfl⟩ rfl hwire
      · exact .withNet hwire

theorem hardReset_transition (b : Bool) (s : State) : Transition (.hardReset b) s (hardReset b s) := by
  rcases hardReset_cases b s with h | ⟨b', h⟩
  · rw [h]
    exact .refl _ s
  · rw [h]
    exact .reset rfl ⟨rfl, rfl, rfl, rfl, rfl⟩ (.inr rfl) rfl

/-! #### The block's agents -/

theorem cmdExec_transition {s t : State} (h : cmdExec s = .next t) : Transition .cmdExec s t := by
  unfold cmdExec at h
  split at h
  next hphase =>
    split at h
    next i hword => exact .command i hphase hword h
    next => cases h; exact .illegal hphase
  next => cases h; exact .refl _ s

theorem rxeTake_transition {s t : State} (h : rxeTake s = .next t) : Transition .rxeTake s t := by
  rcases rxeTake_cases h with rfl | ⟨d, queue, hready, hqueued, htaken⟩
  · exact .refl _ t
  · exact .take d queue hready hqueued htaken

theorem injStart_transition (d : Draws) (s : State) : Transition (.injStart d) s (injStart d s) := by
  unfold injStart
  split
  next req queue hfree hqueued => exact .injStart d req queue hfree hqueued
  next => exact .refl _ s

theorem injEmit_transition (s : State) : Transition .injEmit s (injEmit s) := by
  unfold injEmit
  split
  next => exact .refl _ s
  next req hserving =>
    split
    · exact .injEmit req hserving
    · exact .refl _ s

/-- A turn of the running block. -/
theorem liveTurn_transition {tn : Turn} {s t : State} (h : liveTurn tn s = .next t) : Transition tn s t := by
  cases tn with
  | host a => exact hostAccess_transition h
  | cmdExec => exact cmdExec_transition h
  | rxeTake => exact rxeTake_transition h
  | arqComplete =>
    cases h
    split
    next henabled => exact .arqComplete henabled
    next => exact .refl _ s
  | arqTimeout =>
    cases h
    split
    next henabled => exact .arqTimeout henabled
    next => exact .refl _ s
  | injStart d => cases h; exact injStart_transition d s
  | injEmit => cases h; exact injEmit_transition s
  | tick => cases h; exact .tick
  | netDeliver k => cases h; exact netDeliver_transition k s
  | netLose k => cases h; exact netLose_transition k s
  | netInject n d => cases h; exact netInject_transition n d s
  | routerStart i d => cases h; exact routerStart_transition i d s
  | routerEmit i => cases h; exact routerEmit_transition i s
  | hardReset b => cases h; exact hardReset_transition b s
  | wire e rs => cases h; exact wireNet_transition e rs s

/-- A turn while the hard reset is held. -/
theorem heldTurn_transition {tn : Turn} {s t : State} (h : heldTurn tn s = .next t) : Transition tn s t := by
  cases tn with
  | host a => cases h; exact .still ⟨rfl, rfl, rfl, rfl, rfl⟩ rfl (.refl _)
  | tick => cases h; exact tickRouters_transition s
  | netDeliver k => cases h; exact netDeliver_transition k s
  | netLose k => cases h; exact netLose_transition k s
  | netInject n d => cases h; exact netInject_transition n d s
  | routerStart i d => cases h; exact routerStart_transition i d s
  | routerEmit i => cases h; exact routerEmit_transition i s
  | hardReset b => cases h; exact hardReset_transition b s
  | wire e rs => cases h; exact wireNet_transition e rs s
  | _ => cases h; exact .refl _ s

theorem runTurn_transition {tn : Turn} {s t : State} (h : runTurn tn s = .next t) : Transition tn s t := by
  unfold runTurn at h
  split at h
  · exact heldTurn_transition h
  · exact liveTurn_transition h

/-- What a step can do, the turn being listed. -/
theorem step_transition {s t : State} {tn : Turn} {rest : List Turn} (hturns : s.turns = tn :: rest) (h : step s = .next t) :
    Transition tn { s with turns := rest } t := by
  rw [step_of_turns hturns] at h
  exact runTurn_transition h

/-- What a step can do, wherever its turn comes from. -/
theorem exists_step_transition {s t : State} (h : step s = .next t) :
    ∃ tn turns count, Transition tn { s with turns := turns, turnCount := count } t := by
  unfold step takeTurn at h
  split at h
  next tn rest hturns => exact ⟨tn, rest, s.turnCount, runTurn_transition h⟩
  next hturns => exact ⟨_, s.turns, _, runTurn_transition h⟩

end Sys2Proof.Machine
end

section
/-! ### What a command's execute step can do (45_control.md R163) -/

namespace Sys2Proof.Machine

/-- The command ends: the unit is idle, CMD_DONE is pending, and the sender, the injector, the network and the receive engine
are as they were, the delivered-message slot's flag aside (R163). -/
structure EndsCommand (s t : State) : Prop where
  cmd : t.cmd = { s.cmd with phase := .idle }
  done : t.irqPend = s.irqPend ||| 0x01#6
  arq : t.arq = s.arq
  inj : t.inj = s.inj
  net : t.net = s.net
  rx : ∃ full, t.rx = { s.rx with rxmFull := full }

theorem endsCommand_raiseResult (s : State) (c : ResultCode) : EndsCommand s (s.raiseResult c) :=
  ⟨rfl, rfl, rfl, rfl, rfl, s.rx.rxmFull, rfl⟩

theorem endsCommand_decodeFrom (s : State) (b : Bytes) : EndsCommand s (decodeFrom s b) := by
  obtain ⟨hinj, hcmd, harq, hrx, hnet, hpend⟩ := decodeFrom_frame s b
  exact ⟨hcmd, hpend, harq, hinj, hnet, ⟨s.rx.rxmFull, hrx⟩⟩

theorem endsCommand_execIllegal (s : State) : EndsCommand s (execIllegal s) :=
  ⟨rfl, rfl, rfl, rfl, rfl, s.rx.rxmFull, rfl⟩

theorem exec_xmit (s : State) : exec .xmit s = s.endCommand ((frameOperand s).map (xmitWrites s)) := rfl

theorem exec_send (s : State) : exec .send s = s.endCommand
    (if s.arq.state = .idle then (sendOperands s).map fun x => sendWrites s (encodeAlg x.1 x.2.1 x.2.2).1
      else .error (.result .eState)) := rfl

/-- A frame `encode_alg` builds of strings within their capacities is within FRAME_CAP (R100). -/
theorem encodeAlg_length_le {srcPhys dstPhys : Bytes} {pkt : Packet} (h : (encodedFrame srcPhys dstPhys pkt).wf = true) :
    (encodeAlg srcPhys dstPhys pkt).1.length ≤ Config.frameCap :=
  Nat.le_trans (frameT_length_le h _) (by decide)

/-- A command ends, or it is an accepted XMIT or SEND and waits for the injector. -/
theorem exec_cases {i : Instr} {s t : State} (h : exec i s = .next t) :
    EndsCommand s t
      ∨ (i = .xmit ∧ ∃ b, b.length ≤ Config.frameCap ∧ t = xmitWrites s b)
      ∨ (i = .send ∧ s.arq.state = .idle ∧ ∃ w, w.length ≤ Config.frameCap ∧ t = sendWrites s w) := by
  cases i with
  | nop => cases h; exact .inl ⟨rfl, rfl, rfl, rfl, rfl, s.rx.rxmFull, rfl⟩
  | mkpkt => cases h; exact .inl ⟨rfl, rfl, rfl, rfl, rfl, s.rx.rxmFull, rfl⟩
  | ttlchk => cases h; exact .inl ⟨rfl, rfl, rfl, rfl, rfl, s.rx.rxmFull, rfl⟩
  | encode =>
    rcases State.endCommand_next h with hwrites | ⟨c, -, rfl⟩
    · obtain ⟨x, -, hfrom⟩ := Except.bind_eq_ok_iff.1 hwrites
      unfold encodeFrom at hfrom
      split at hfrom
      · cases hfrom
      · cases hfrom; exact .inl ⟨rfl, rfl, rfl, rfl, rfl, s.rx.rxmFull, rfl⟩
    · exact .inl (endsCommand_raiseResult s c)
  | decode =>
    rcases State.endCommand_next h with hwrites | ⟨c, -, rfl⟩
    · obtain ⟨b, -, rfl⟩ := Except.map_eq_ok_iff.1 hwrites
      exact .inl (endsCommand_decodeFrom s b)
    · exact .inl (endsCommand_raiseResult s c)
  | crc32 =>
    rcases State.endCommand_next h with hwrites | ⟨c, -, rfl⟩
    · obtain ⟨b, -, rfl⟩ := Except.map_eq_ok_iff.1 hwrites
      exact .inl ⟨rfl, rfl, rfl, rfl, rfl, s.rx.rxmFull, rfl⟩
    · exact .inl (endsCommand_raiseResult s c)
  | xmit =>
    rcases State.endCommand_next h with hwrites | ⟨c, -, rfl⟩
    · obtain ⟨b, hb, rfl⟩ := Except.map_eq_ok_iff.1 hwrites
      exact .inr (.inl ⟨rfl, b, (frameOperand_length hb).2, rfl⟩)
    · exact .inl (endsCommand_raiseResult s c)
  | send =>
    rcases State.endCommand_next h with hwrites | ⟨c, -, rfl⟩
    · split at hwrites
      next hidle =>
        obtain ⟨x, hx, rfl⟩ := Except.map_eq_ok_iff.1 hwrites
        exact .inr (.inr ⟨rfl, hidle, _, encodeAlg_length_le (sendOperands_wf hx), rfl⟩)
      next => cases hwrites
    · exact .inl (endsCommand_raiseResult s c)
  | rxpop =>
    rcases State.endCommand_next h with hwrites | ⟨c, -, rfl⟩
    · split at hwrites
      · cases hwrites; exact .inl ⟨rfl, rfl, rfl, rfl, rfl, false, rfl⟩
      · cases hwrites
    · exact .inl (endsCommand_raiseResult s c)

end Sys2Proof.Machine
end

section
/-! ### What the other agents' steps leave alone -/

namespace Sys2Proof.Machine

/-- What the port does to the receive engine: nothing, or a datagram of at most FRAME_CAP bytes at the end of a queue with room
(R145). -/
theorem netArrive_rx (b : Bytes) (src : Endpoint) (s : State) :
    (netArrive b src s).rx = s.rx
      ∨ (s.rx.rxq.length < Config.rxqDepth ∧ b.length ≤ Config.frameCap
        ∧ (netArrive b src s).rx = { s.rx with rxq := s.rx.rxq ++ [{ bytes := b, src := src }] }) := by
  unfold netArrive
  split
  · exact .inl rfl
  · split
    · exact .inl rfl
    · split
      · exact .inl rfl
      · exact .inr ⟨by omega, by omega, rfl⟩

/-- Under TICKED a tick counts each running down-counter of the block down (R138, R110). -/
theorem tickBlock_ticked (h : Config.timeModel = .ticked) (s : State) :
    tickBlock s = { s with
      arq := { s.arq with timerRemain := if s.arq.timerRun then countDown s.arq.timerRemain else s.arq.timerRemain }
      inj := { s.inj with delay := if s.injActive then countDown s.inj.delay else s.inj.delay } } := by
  unfold tickBlock
  rw [if_pos h]
  congr 1
  · split <;> rfl
  · split <;> rfl

/-- Under UNTIMED a tick does nothing to the block (R138). -/
theorem tickBlock_untimed (h : Config.timeModel ≠ .ticked) (s : State) : tickBlock s = s := if_neg h

theorem tickRouters_frame (s : State) : ∃ routers, tickRouters s = { s with net := { s.net with routers := routers } } := by
  unfold tickRouters
  split
  · exact ⟨_, rfl⟩
  · exact ⟨s.net.routers, rfl⟩

/-- A tick changes the two down-counters and the routers alone, and a stopped timer not at all (R138, R110). -/
theorem tick_frame (s : State) :
    ∃ remain delay routers, tickRouters (tickBlock s) = { s with
      arq := { s.arq with timerRemain := remain }, inj := { s.inj with delay := delay },
      net := { s.net with routers := routers } } ∧ (s.arq.timerRun = false → remain = s.arq.timerRemain) := by
  obtain ⟨routers, hrouters⟩ := tickRouters_frame (tickBlock s)
  rw [hrouters]
  by_cases hticked : Config.timeModel = .ticked
  · rw [tickBlock_ticked hticked]
    exact ⟨_, _, _, rfl, fun hstopped => by rw [hstopped]; rfl⟩
  · rw [tickBlock_untimed hticked]
    exact ⟨s.arq.timerRemain, s.inj.delay, routers, rfl, fun _ => rfl⟩

/-- What INJ.start leaves: the head request lost and completed, or served with bytes of the same length (R106 to R109). -/
theorem injServe_cases (req : Request) (queue : List Request) (d : Draws) (s : State) :
    (∃ u : State, injServe req queue d s = injIdle (completeRequest req.tag u) ∧ SameUnits { s with inj := u.inj } u
        ∧ u.inj.txq = queue ∧ u.lram = s.lram ∧ u.net = s.net ∧ u.cfg = s.cfg)
      ∨ ∃ b delay, b.length = req.bytes.length
        ∧ SameUnits { s with inj := { txq := queue, serving := some { req with bytes := b }, delay := delay } }
            (injServe req queue d s)
        ∧ (injServe req queue d s).lram = s.lram ∧ (injServe req queue d s).net = s.net := by
  unfold injServe
  split
  next => exact .inl ⟨_, rfl, ⟨rfl, rfl, rfl, rfl, rfl⟩, rfl, rfl, rfl, rfl⟩
  next b corrupted delay hattempt =>
    refine .inr ⟨b, delay, attempt_length hattempt, ?_⟩
    split <;> exact ⟨⟨rfl, rfl, rfl, rfl, rfl⟩, rfl, rfl⟩

/-- The completion of a request leaves RESULT alone, or it ends XMIT or SEND (R112, R114, R133). -/
theorem completeRequest_result (tag : RequestTag) (s : State) :
    (completeRequest tag s).result = s.result
      ∨ ((tag = .cmdXmit ∨ tag = .arqSend) ∧ (completeRequest tag s).cmd.phase = .idle
        ∧ (completeRequest tag s).irqPend = s.irqPend ||| 0x01#6) := by
  cases tag with
  | cmdXmit => exact .inr ⟨.inl rfl, rfl, rfl⟩
  | arqSend => exact .inr ⟨.inr rfl, rfl, rfl⟩
  | arqRetx => exact .inl rfl
  | rxeAck => exact .inl rfl

theorem completeRequest_ackLatch (tag : RequestTag) (s : State) :
    (completeRequest tag s).arq.ackLatch = s.arq.ackLatch := by
  cases tag <;> rfl

theorem sendAck_frame {f : Frame} {s t : State} (h : sendAck f s = .ok t) :
    t.arq = s.arq ∧ t.cmd = s.cmd ∧ t.net = s.net ∧ t.result = s.result ∧ t.lram = s.lram
      ∧ t.rx = { s.rx with rxWait := true } := by
  obtain ⟨w, mp, ml, -, -, -, rfl⟩ := sendAck_eq_ok h
  exact ⟨rfl, rfl, rfl, rfl, rfl, rfl⟩

/-- The receive engine changes nothing of the sender but the latch, which it sets (R150); nor RESULT, the command unit or the
network. -/
theorem takeBytes_frame {b : Bytes} {s t : State} (h : takeBytes b s = .ok t) :
    (t.arq = s.arq ∨ t.arq = { s.arq with ackLatch := true }) ∧ t.cmd = s.cmd ∧ t.net = s.net ∧ t.result = s.result := by
  rcases takeBytes_cases h with rfl | rfl | rfl | rfl | ⟨f, -, rfl⟩ | ⟨f, -, -, hack⟩ | ⟨f, -, -, hack⟩
  · exact ⟨.inl rfl, rfl, rfl, rfl⟩
  · exact ⟨.inl rfl, rfl, rfl, rfl⟩
  · exact ⟨.inl rfl, rfl, rfl, rfl⟩
  · exact ⟨.inl rfl, rfl, rfl, rfl⟩
  · by_cases houtstanding : s.arq.state = .awaitingAck ∧ f.pkt.seg.seq = s.arq.seqBit
    · rw [takeAck_outstanding houtstanding]
      exact ⟨.inr rfl, rfl, rfl, rfl⟩
    · rw [takeAck_ignored houtstanding]
      exact ⟨.inl rfl, rfl, rfl, rfl⟩
  · obtain ⟨harq, hcmd, hnet, hresult, -, -⟩ := sendAck_frame hack
    exact ⟨.inl harq, hcmd, hnet, hresult⟩
  · obtain ⟨harq, hcmd, hnet, hresult, -, -⟩ := sendAck_frame hack
    obtain ⟨-, dcmd, darq, dnet, dresult, -⟩ := deliver_frame f s
    exact ⟨.inl (harq.trans darq), hcmd.trans dcmd, hnet.trans dnet, hresult.trans dresult⟩

end Sys2Proof.Machine
end

section
/-! ### Who writes the sender's state (43_arq.md section 4) -/

namespace Sys2Proof.Machine

/-- What a turn does to the sender session: nothing to its bit, latch and frame, and it does not end, but for a reset, SEND's
execute step, ARQ.complete, and RXE.take, which can set the latch alone. -/
theorem Transition.sender {tn : Turn} {s t : State} (h : Transition tn s t) :
    (tn.isReset = true ∧ t.arq.ackLatch = false)
      ∨ (t.arq.seqBit = s.arq.seqBit ∧ t.arq.ackLatch = s.arq.ackLatch ∧ t.arq.frame = s.arq.frame
          ∧ (s.arq.state = .awaitingAck → t.arq.state = .awaitingAck))
      ∨ (tn = .rxeTake ∧ t.arq = { s.arq with ackLatch := true })
      ∨ (tn = .arqComplete ∧ arqCompleteEnabled s = true ∧ t.arq.ackLatch = s.arq.ackLatch ∧ t.arq.frame = s.arq.frame)
      ∨ (tn = .cmdExec ∧ s.cmd.phase = .exec ∧ decode s.cmd.word = .ok .send ∧ s.arq.state = .idle
          ∧ t.arq.seqBit = s.arq.seqBit ∧ t.arq.ackLatch = false) := by
  have kept {u : State} (hu : u.arq = s.arq) : u.arq.seqBit = s.arq.seqBit ∧ u.arq.ackLatch = s.arq.ackLatch
      ∧ u.arq.frame = s.arq.frame ∧ (s.arq.state = .awaitingAck → u.arq.state = .awaitingAck) := by
    rw [hu]
    exact ⟨rfl, rfl, rfl, id⟩
  cases h with
  | still units => exact .inr (.inl (kept units.arq))
  | reset isReset units => exact .inl ⟨isReset, by rw [units.arq]; rfl⟩
  | hostLram o w units => exact .inr (.inl (kept units.arq))
  | accept w idle units => exact .inr (.inl (kept units.arq))
  | command i phase word next =>
    rcases exec_cases next with hends | ⟨-, b, -, rfl⟩ | ⟨rfl, hidle, w, -, rfl⟩
    · exact .inr (.inl (kept hends.arq))
    · exact .inr (.inl (kept rfl))
    · exact .inr (.inr (.inr (.inr ⟨rfl, phase, word, hidle, rfl, rfl⟩)))
  | illegal phase => exact .inr (.inl (kept rfl))
  | arqComplete enabled => exact .inr (.inr (.inr (.inl ⟨rfl, enabled, rfl, rfl⟩)))
  | arqTimeout enabled => exact .inr (.inl ⟨rfl, rfl, rfl, id⟩)
  | take d queue ready queued taken =>
    rcases (takeBytes_frame taken).1 with harq | harq
    · exact .inr (.inl (kept harq))
    · exact .inr (.inr (.inl ⟨rfl, harq⟩))
  | injStart d req queue free queued =>
    rcases injServe_cases req queue d s with ⟨u, hu, hunits, -⟩ | ⟨b, delay, -, hunits, -⟩
    · obtain ⟨-, -, -, hbit, hstate, hframe⟩ := completeRequest_frame req.tag u
      have harq : u.arq = s.arq := hunits.arq
      rw [harq] at hbit hstate hframe
      have hlatch := completeRequest_ackLatch req.tag u
      rw [harq] at hlatch
      rw [hu]
      exact .inr (.inl ⟨hbit, hlatch, hframe, fun h => hstate.trans h⟩)
    · exact .inr (.inl (kept hunits.arq))
  | injEmit req serving =>
    obtain ⟨-, -, -, hbit, hstate, hframe⟩ := completeRequest_frame req.tag (emitDatagram req s)
    exact .inr (.inl ⟨hbit, completeRequest_ackLatch req.tag _, hframe, fun h => hstate.trans h⟩)
  | tick =>
    obtain ⟨remain, delay, routers, htick, -⟩ := tick_frame s
    rw [htick]
    exact .inr (.inl ⟨rfl, rfl, rfl, id⟩)
  | arrive k d u units =>
    obtain ⟨-, harq, -⟩ := netArrive_frame d.bytes d.src u
    exact .inr (.inl (kept (harq.trans units.arq)))
  | emission x units => exact .inr (.inl (kept units.arq))

/-- What ARQ.complete waits for (R135). -/
theorem arqCompleteEnabled_iff {s : State} : arqCompleteEnabled s = true ↔
    s.arq.state = .awaitingAck ∧ s.arq.txp = false ∧ s.arq.ackLatch = true := by
  simp [arqCompleteEnabled, and_assoc]

/-- Settles O31: of the five things a turn can do to the sender, only a reset and ARQ.complete end the session or flip the bit,
only RXE.take sets the latch, and only a reset and SEND clear it. -/
theorem onlyCompletionEndsSession : Obligations.OnlyCompletionEndsSession := by
  intro s t tn rest hturns hstep
  rcases (step_transition hturns hstep).sender with ⟨hreset, hlatch⟩ | ⟨hbit, hlatch, -, hstate⟩ | ⟨rfl, harq⟩
    | ⟨rfl, henabled, hlatch, -⟩ | ⟨rfl, hphase, hword, hidle, hbit, hlatch⟩
  · refine ⟨fun _ => .inr hreset, fun _ ht => ?_, fun _ _ => .inr hreset⟩
    rw [hlatch] at ht; cases ht
  · refine ⟨fun h => ?_, fun hs ht => ?_, fun hs ht => ?_⟩
    · rcases h with h | ⟨hs, ht⟩
      · exact absurd hbit h
      · rw [hstate hs] at ht; cases ht
    · rw [hlatch, hs] at ht; cases ht
    · rw [hlatch, hs] at ht; cases ht
  · rw [harq]
    refine ⟨fun h => ?_, fun _ _ => rfl, fun _ ht => by cases ht⟩
    rcases h with h | ⟨hs, ht⟩
    · exact absurd rfl h
    · rw [hs] at ht; cases ht
  · obtain ⟨hs, htxp, hset⟩ := arqCompleteEnabled_iff.1 henabled
    refine ⟨fun _ => .inl ⟨rfl, hs, hset, htxp⟩, fun hclear _ => ?_, fun _ ht => ?_⟩
    · rw [hset] at hclear; cases hclear
    · rw [hlatch, hset] at ht; cases ht
  · refine ⟨fun h => ?_, fun _ ht => ?_, fun _ _ => .inl ⟨rfl, hphase, hword, hidle⟩⟩
    · rcases h with h | ⟨hs, -⟩
      · exact absurd hbit h
      · rw [hidle] at hs; cases hs
    · rw [hlatch] at ht; cases ht

/-- Settles O32: of the five things a turn can do to the sender, only a reset and SEND write ARQ_FRAME. -/
theorem onlySendWritesArqFrame : Obligations.OnlySendWritesArqFrame := by
  intro s t tn rest hturns hstep hne
  rcases (step_transition hturns hstep).sender with ⟨hreset, -⟩ | ⟨-, -, hframe, -⟩ | ⟨-, harq⟩ | ⟨-, -, -, hframe⟩
    | ⟨rfl, -, hword, hidle, -, -⟩
  · exact .inr hreset
  · exact absurd hframe hne
  · exact absurd (congrArg ArqUnit.frame harq) hne
  · exact absurd hframe hne
  · exact .inl ⟨rfl, hword, hidle⟩

end Sys2Proof.Machine
end

section
/-! ### RESULT and the wire (45_control.md R166, 20_memory.md R73) -/

namespace Sys2Proof.Machine

/-- A turn that is no reset changes RESULT only where a command ends (R166). -/
theorem Transition.result {tn : Turn} {s t : State} (h : Transition tn s t) (hne : t.result ≠ s.result) :
    tn.isReset = true
      ∨ ((tn = .cmdExec ∧ s.cmd.phase = .exec
            ∨ tn = .injEmit ∧ (∃ req, s.inj.serving = some req ∧ (req.tag = .cmdXmit ∨ req.tag = .arqSend))
            ∨ (∃ d, tn = .injStart d) ∧ s.inj.serving = none
              ∧ ∃ req queue, s.inj.txq = req :: queue ∧ (req.tag = .cmdXmit ∨ req.tag = .arqSend))
          ∧ t.cmd.phase = .idle ∧ t.irqPend.getLsbD 0 = true) := by
  have pending (p : BitVec 6) : (p ||| 0x01#6).getLsbD 0 = true := by simp
  cases h with
  | still units => exact absurd units.result hne
  | reset isReset => exact .inl isReset
  | hostLram o w units => exact absurd units.result hne
  | accept w idle units => exact absurd units.result hne
  | command i phase word next =>
    rcases exec_cases next with hends | ⟨-, b, -, rfl⟩ | ⟨-, -, w, -, rfl⟩
    · refine .inr ⟨.inl ⟨rfl, phase⟩, ?_, ?_⟩
      · rw [hends.cmd]
      · rw [hends.done]; exact pending _
    · exact absurd rfl hne
    · exact absurd rfl hne
  | illegal phase => exact .inr ⟨.inl ⟨rfl, phase⟩, rfl, pending _⟩
  | arqComplete enabled => exact absurd rfl hne
  | arqTimeout enabled => exact absurd rfl hne
  | take d queue ready queued taken => exact absurd (takeBytes_frame taken).2.2.2 hne
  | injStart d req queue free queued =>
    rcases injServe_cases req queue d s with ⟨u, hu, hunits, -⟩ | ⟨b, delay, -, hunits, -⟩
    · rw [hu] at hne ⊢
      have hresult : u.result = s.result := hunits.result
      rcases completeRequest_result req.tag u with hkept | ⟨htag, hidle, hpend⟩
      · exact absurd (hkept.trans hresult) hne
      · refine .inr ⟨.inr (.inr ⟨⟨d, rfl⟩, free, req, queue, queued, htag⟩), hidle, ?_⟩
        show (completeRequest req.tag u).irqPend.getLsbD 0 = true
        rw [hpend]; exact pending _
    · exact absurd hunits.result hne
  | injEmit req serving =>
    rcases completeRequest_result req.tag (emitDatagram req s) with hkept | ⟨htag, hidle, hpend⟩
    · exact absurd hkept hne
    · refine .inr ⟨.inr (.inl ⟨rfl, req, serving, htag⟩), hidle, ?_⟩
      show (completeRequest req.tag (emitDatagram req s)).irqPend.getLsbD 0 = true
      rw [hpend]; exact pending _
  | tick =>
    obtain ⟨remain, delay, routers, htick, -⟩ := tick_frame s
    rw [htick] at hne
    exact absurd rfl hne
  | arrive k d u units =>
    obtain ⟨-, -, -, -, hresult, -⟩ := netArrive_frame d.bytes d.src u
    exact absurd (hresult.trans units.result) hne
  | emission x units => exact absurd units.result hne

/-- Settles O57: a step is a turn on the state with it taken, whose command unit and injector are the state's own. -/
theorem resultChangesOnlyAtCommandEnd : Obligations.ResultChangesOnlyAtCommandEnd :=
  fun _ _ _ _ hturns hstep hne => (step_transition hturns hstep).result hne

/-- What a turn does to the wire: it adds nothing, or one datagram at the end, in INJ.emit or in the environment (R73, R74). -/
theorem Transition.wire {tn : Turn} {s t : State} (h : Transition tn s t) :
    t.net.flight.Sublist s.net.flight
      ∨ ∃ x : Transit, t.net.flight = s.net.flight ++ [x]
        ∧ ((tn = .injEmit ∧ x.emitter = .block
              ∧ ∃ req, s.inj.serving = some req ∧ x.datagram.bytes = req.bytes ∧ x.datagram.dst = req.dst)
            ∨ (∃ n, tn = .netInject n x.datagram ∧ x.emitter = .other n) ∨ ∃ i, tn = .routerEmit i ∧ x.emitter = .router i) := by
  have kept {u : State} (hu : u.net = s.net) : u.net.flight.Sublist s.net.flight := by
    rw [hu]
  cases h with
  | still units lram wire => exact .inl wire
  | reset isReset units lram net => exact .inl (kept net)
  | hostLram o w units lram aligned inside net => exact .inl (kept net)
  | accept w idle units lram net => exact .inl (kept net)
  | command i phase word next =>
    rcases exec_cases next with hends | ⟨-, b, -, rfl⟩ | ⟨-, -, w, -, rfl⟩
    · exact .inl (kept hends.net)
    · exact .inl (kept rfl)
    · exact .inl (kept rfl)
  | illegal phase => exact .inl (kept rfl)
  | arqComplete enabled => exact .inl (kept rfl)
  | arqTimeout enabled => exact .inl (kept rfl)
  | take d queue ready queued taken => exact .inl (kept (takeBytes_frame taken).2.2.1)
  | injStart d req queue free queued =>
    rcases injServe_cases req queue d s with ⟨u, hu, -, -, -, hnet, -⟩ | ⟨b, delay, -, -, -, hnet⟩
    · rw [hu]
      exact .inl (kept ((completeRequest_frame req.tag u).1.trans hnet))
    · exact .inl (kept hnet)
  | injEmit req serving =>
    refine .inr ⟨{ emitter := .block, datagram := { bytes := req.bytes, dst := req.dst, src := s.sourceEndpoint } }, ?_,
      .inl ⟨rfl, rfl, req, serving, rfl, rfl⟩⟩
    exact congrArg Net.flight (completeRequest_frame req.tag (emitDatagram req s)).1
  | tick =>
    obtain ⟨remain, delay, routers, htick, -⟩ := tick_frame s
    rw [htick]
    exact .inl (.refl _)
  | arrive k d u units lram wire =>
    refine .inl ?_
    rw [(netArrive_frame d.bytes d.src u).1]
    exact wire
  | emission x units lram wire emitter => exact .inr ⟨x, wire, .inr emitter⟩

/-- Settles O58: the count of a datagram on the wire grows only where that datagram is the one added. -/
theorem onlyInjectorEmits : Obligations.OnlyInjectorEmits := by
  intro s t tn rest x hturns hstep hcount
  rcases (step_transition hturns hstep).wire with hsub | ⟨y, happend, horigin⟩
  · exact absurd (hsub.count_le x) (Nat.not_le.2 hcount)
  · have happend : t.net.flight = s.net.flight ++ [y] := happend
    rw [happend, List.count_append] at hcount ⊢
    have hyx : y = x := by
      by_contra hne
      rw [List.count_singleton, if_neg (by simpa using hne)] at hcount
      omega
    subst hyx
    exact ⟨by rw [List.count_singleton_self], horigin⟩

end Sys2Proof.Machine
end

section
/-! ### The bookkeeping of the protocol units (40_channel.md section 1, 43_arq.md section 1) -/

namespace Sys2Proof.Machine

/-! #### Requests counted -/

section
variable {p : Request → Bool} {l : List Request} {r : Request} {P Q : Prop} [Decidable P] [Decidable Q]

/-- A request submitted: where it is of the counted kind its requester did not wait and now does; else nothing changes. -/
theorem countP_submitted (h : l.countP p = if P then 1 else 0) (hr : if p r = true then ¬ P ∧ Q else (Q ↔ P)) :
    (l ++ [r]).countP p = if Q then 1 else 0 := by
  rw [List.countP_append, List.countP_singleton, h]
  by_cases hp : p r = true
  · rw [if_pos hp] at hr ⊢
    rw [if_neg hr.1, if_pos hr.2]
  · rw [if_neg hp] at hr ⊢
    simp only [hr, Nat.add_zero]

/-- A request completed: where it is of the counted kind its requester waits no more; else nothing changes. -/
theorem countP_completed (h : (r :: l).countP p = if P then 1 else 0) (hr : if p r = true then ¬ Q else (Q ↔ P)) :
    l.countP p = if Q then 1 else 0 := by
  rw [List.countP_cons] at h
  by_cases hp : p r = true
  · rw [if_pos hp] at hr h
    rw [if_neg hr]
    split at h <;> omega
  · rw [if_neg hp] at hr h
    simp only [hr]
    omega

/-- A request of the counted kind is there because its requester waits for it. -/
theorem waits_of_countP (h : (r :: l).countP p = if P then 1 else 0) (hp : p r = true) : P := by
  by_contra hP
  rw [if_neg hP, List.countP_cons, if_pos hp] at h
  omega

end

/-! #### What the invariant depends on -/

theorem outstanding_eq_of_inj {s t : State} (h : t.inj = s.inj) : t.outstanding = s.outstanding := by
  unfold State.outstanding
  rw [h]

/-- The head of what is outstanding is the request served. -/
theorem outstanding_serving {s : State} {req : Request} (h : s.inj.serving = some req) : s.outstanding = req :: s.inj.txq := by
  unfold State.outstanding
  rw [h]
  rfl

/-- An inactive injector has the queued requests outstanding. -/
theorem outstanding_free {s : State} (h : s.inj.serving = none) : s.outstanding = s.inj.txq := by
  unfold State.outstanding
  rw [h]
  rfl

/-- A submitted request is the last of those outstanding (R104). -/
theorem outstanding_submitted {s t : State} {r : Request} (hserving : t.inj.serving = s.inj.serving)
    (htxq : t.inj.txq = s.inj.txq ++ [r]) : t.outstanding = s.outstanding ++ [r] := by
  unfold State.outstanding
  rw [hserving, htxq, List.append_assoc]

/-- The bookkeeping does not look at the latch, at what was last accepted, or at the delivered-message slot. -/
theorem protocolOk_congr {s t : State} (h : s.protocolOk) (hinj : t.outstanding = s.outstanding) (hcmd : t.cmd = s.cmd)
    (harq : ∃ latch, t.arq = { s.arq with ackLatch := latch }) (hwait : t.rx.rxWait = s.rx.rxWait)
    (hrxq : t.rx.rxq = s.rx.rxq) : t.protocolOk := by
  obtain ⟨latch, harq⟩ := harq
  simp only [State.protocolOk, State.requestsOk, State.sessionOk, State.boundsOk, hinj, hcmd, harq, hwait, hrxq]
  exact h

theorem protocolOk_of_sameUnits {s t : State} (h : s.protocolOk) (hu : SameUnits s t) : t.protocolOk :=
  protocolOk_congr h (outstanding_eq_of_inj hu.inj) hu.cmd ⟨s.arq.ackLatch, hu.arq⟩ (by rw [hu.rx]) (by rw [hu.rx])

theorem reset_protocolOk : State.reset.protocolOk := by decide

/-! #### The command unit -/

/-- A command's end is the end of no request: CMD_PHASE was EXEC (R163). -/
theorem protocolOk_endsCommand {s t : State} (h : s.protocolOk) (hphase : s.cmd.phase = .exec) (hends : EndsCommand s t) :
    t.protocolOk := by
  obtain ⟨full, hrx⟩ := hends.rx
  obtain ⟨⟨hcmd, harq, hack⟩, hsession, hrxq, hrxd, hreq, hframe, hopc⟩ := h
  have hout := outstanding_eq_of_inj hends.inj
  simp only [State.protocolOk, State.requestsOk, State.sessionOk, State.boundsOk, hout, hends.cmd, hends.arq, hrx]
  rw [hphase] at hcmd
  exact ⟨⟨hcmd, harq, hack⟩, hsession, hrxq, hrxd, hreq, hframe, hopc⟩

/-- A taken command word waits for no request (R161). -/
theorem protocolOk_accept {s : State} (h : s.protocolOk) (hidle : s.cmd.phase = .idle) (w : Word) :
    State.protocolOk { s with cmd := { phase := .exec, word := w, opc := w.extractLsb' 0 8 } } := by
  obtain ⟨⟨hcmd, harq, hack⟩, hsession, hrxq, hrxd, hreq, hframe, -⟩ := h
  rw [hidle] at hcmd
  exact ⟨⟨hcmd, harq, hack⟩, hsession, hrxq, hrxd, hreq, hframe, rfl⟩

/-- The bytes outstanding are within FRAME_CAP where the submitted bytes are. -/
theorem bytes_le_submitted {l : List Request} {r : Request} (h : ∀ q ∈ l, q.bytes.length ≤ Config.frameCap)
    (hr : r.bytes.length ≤ Config.frameCap) : ∀ q ∈ l ++ [r], q.bytes.length ≤ Config.frameCap := by
  simpa [or_imp, forall_and] using ⟨h, hr⟩

theorem protocolOk_xmitWrites {s : State} {b : Bytes} (h : s.protocolOk) (hphase : s.cmd.phase = .exec)
    (hb : b.length ≤ Config.frameCap) : (xmitWrites s b).protocolOk := by
  obtain ⟨⟨hcmd, harq, hack⟩, hsession, hrxq, hrxd, hreq, hframe, hopc⟩ := h
  have hout : (xmitWrites s b).outstanding = s.outstanding ++ [{ bytes := b, dst := s.nextHop, tag := .cmdXmit }] :=
    outstanding_submitted rfl rfl
  refine ⟨⟨?_, ?_, ?_⟩, hsession, hrxq, hrxd, ?_, hframe, hopc⟩ <;> rw [hout]
  · exact countP_submitted hcmd ⟨by rw [hphase]; decide, rfl⟩
  · exact countP_submitted harq Iff.rfl
  · exact countP_submitted hack Iff.rfl
  · exact bytes_le_submitted hreq hb

/-! #### The sender -/

theorem protocolOk_sendWrites {s : State} {w : Bytes} (h : s.protocolOk) (hphase : s.cmd.phase = .exec)
    (hidle : s.arq.state = .idle) (hw : w.length ≤ Config.frameCap) : (sendWrites s w).protocolOk := by
  obtain ⟨⟨hcmd, harq, hack⟩, ⟨hclosed, -, -⟩, hrxq, hrxd, hreq, -, hopc⟩ := h
  have hout : (sendWrites s w).outstanding = s.outstanding ++ [{ bytes := w, dst := s.nextHop, tag := .arqSend }] :=
    outstanding_submitted rfl rfl
  refine ⟨⟨?_, ?_, ?_⟩, ⟨fun hs => ?_, fun _ => rfl, fun _ => rfl⟩, hrxq, hrxd, ?_, hw, hopc⟩
  · rw [hout]; exact countP_submitted hcmd ⟨by rw [hphase]; decide, rfl⟩
  · rw [hout]; exact countP_submitted harq ⟨by rw [(hclosed hidle).1]; decide, rfl⟩
  · rw [hout]; exact countP_submitted hack Iff.rfl
  · cases hs
  · rw [hout]; exact bytes_le_submitted hreq hw

/-- What ARQ.timeout waits for (R136, R137, R138). -/
theorem arqTimeoutEnabled_iff {s : State} : arqTimeoutEnabled s = true ↔
    s.arq.state = .awaitingAck ∧ s.arq.txp = false ∧ s.arq.timerRun = true ∧ timerExpired s = true ∧ s.arq.ackLatch = false := by
  simp [arqTimeoutEnabled, and_assoc]

theorem protocolOk_arqTimeout {s : State} (h : s.protocolOk) (henabled : arqTimeoutEnabled s = true) :
    (arqTimeout s).protocolOk := by
  obtain ⟨hstate, htxp, -⟩ := arqTimeoutEnabled_iff.1 henabled
  obtain ⟨⟨hcmd, harq, hack⟩, -, hrxq, hrxd, hreq, hframe, hopc⟩ := h
  have hout : (arqTimeout s).outstanding = s.outstanding ++ [{ bytes := s.arq.frame, dst := s.nextHop, tag := .arqRetx }] :=
    outstanding_submitted rfl rfl
  refine ⟨⟨?_, ?_, ?_⟩, ⟨fun hs => ?_, fun _ => rfl, fun _ => rfl⟩, hrxq, hrxd, ?_, hframe, hopc⟩
  · rw [hout]; exact countP_submitted hcmd Iff.rfl
  · rw [hout]; exact countP_submitted harq ⟨by rw [htxp]; decide, rfl⟩
  · rw [hout]; exact countP_submitted hack Iff.rfl
  · exact absurd (hstate.symm.trans hs) (by decide)
  · rw [hout]; exact bytes_le_submitted hreq hframe

theorem protocolOk_arqComplete {s : State} (h : s.protocolOk) (henabled : arqCompleteEnabled s = true) :
    (arqComplete s).protocolOk := by
  obtain ⟨-, htxp, -⟩ := arqCompleteEnabled_iff.1 henabled
  obtain ⟨hrequests, -, hbounds⟩ := h
  exact ⟨hrequests, ⟨fun _ => ⟨htxp, rfl⟩, (fun hs => by cases hs), fun _ => rfl⟩, hbounds⟩

/-- A tick leaves a stopped timer at 0 (R46, R138). -/
theorem protocolOk_tick {s : State} (h : s.protocolOk) : (tickRouters (tickBlock s)).protocolOk := by
  obtain ⟨remain, delay, routers, htick, hstopped⟩ := tick_frame s
  obtain ⟨hrequests, ⟨hclosed, hopen, hzero⟩, hbounds⟩ := h
  rw [htick]
  exact ⟨hrequests, ⟨hclosed, hopen, fun hrun => (hstopped hrun).trans (hzero hrun)⟩, hbounds⟩

/-! #### The injector -/

/-- The completion of the first outstanding request: its requester waits no more, and the session's timer runs (R112, R134). -/
theorem protocolOk_completed {s u : State} {req : Request} (h : s.protocolOk) (hout : s.outstanding = req :: u.inj.txq)
    (hcmdu : u.cmd = s.cmd) (harqu : u.arq = s.arq) (hrxu : u.rx = s.rx) :
    (injIdle (completeRequest req.tag u)).protocolOk := by
  obtain ⟨⟨hcmd, harq, hack⟩, ⟨hclosed, hopen, hzero⟩, hrxq, hrxd, hreq, hframe, hopc⟩ := h
  rw [hout] at hcmd harq hack hreq
  rw [← hcmdu] at hcmd hopc
  rw [← harqu] at harq hclosed hopen hzero hframe
  rw [← hrxu] at hack hrxq hrxd
  have hqueue : ∀ r ∈ u.inj.txq, r.bytes.length ≤ Config.frameCap := fun r hr => hreq r (List.mem_cons_of_mem _ hr)
  have hopened (hq : isArqRequest req = true) : u.arq.state = .awaitingAck := by
    have htxp : u.arq.txp = true := waits_of_countP harq hq
    cases hs : u.arq.state with
    | idle => rw [(hclosed hs).1] at htxp; cases htxp
    | awaitingAck => rfl
  obtain ⟨bytes, dst, tag⟩ := req
  cases tag with
  | cmdXmit =>
    refine ⟨⟨?_, ?_, ?_⟩, ⟨hclosed, hopen, hzero⟩, hrxq, hrxd, hqueue, hframe, hopc⟩
    · exact countP_completed hcmd (by decide : ¬ CmdPhase.idle = .waitInj)
    · exact countP_completed harq Iff.rfl
    · exact countP_completed hack Iff.rfl
  | arqSend =>
    refine ⟨⟨?_, ?_, ?_⟩, ⟨fun hs => ?_, fun _ => rfl, fun hs => by cases hs⟩, hrxq, hrxd, hqueue, hframe, hopc⟩
    · exact countP_completed hcmd (by decide : ¬ CmdPhase.idle = .waitInj)
    · exact countP_completed harq (by decide : ¬ false = true)
    · exact countP_completed hack Iff.rfl
    · exact absurd ((hopened rfl).symm.trans hs) (by decide)
  | arqRetx =>
    refine ⟨⟨?_, ?_, ?_⟩, ⟨fun hs => ?_, fun _ => rfl, fun hs => by cases hs⟩, hrxq, hrxd, hqueue, hframe, hopc⟩
    · exact countP_completed hcmd Iff.rfl
    · exact countP_completed harq (by decide : ¬ false = true)
    · exact countP_completed hack Iff.rfl
    · exact absurd ((hopened rfl).symm.trans hs) (by decide)
  | rxeAck =>
    refine ⟨⟨?_, ?_, ?_⟩, ⟨hclosed, hopen, hzero⟩, hrxq, hrxd, hqueue, hframe, hopc⟩
    · exact countP_completed hcmd Iff.rfl
    · exact countP_completed harq Iff.rfl
    · exact countP_completed hack (by decide : ¬ false = true)

/-- The request served may have other bytes than the one queued, of the same number (R108). -/
theorem protocolOk_served {s t : State} {req : Request} {queue : List Request} {b : Bytes} {delay : Word} (h : s.protocolOk)
    (hout : s.outstanding = req :: queue) (hb : b.length = req.bytes.length)
    (hu : SameUnits { s with inj := { txq := queue, serving := some { req with bytes := b }, delay := delay } } t) :
    t.protocolOk := by
  refine protocolOk_of_sameUnits ?_ hu
  obtain ⟨⟨hcmd, harq, hack⟩, hsession, hrxq, hrxd, hreq, hframe, hopc⟩ := h
  rw [hout] at hcmd harq hack hreq
  refine ⟨⟨hcmd, harq, hack⟩, hsession, hrxq, hrxd, fun r hr => ?_, hframe, hopc⟩
  rcases List.mem_cons.1 hr with rfl | hr
  · exact hb.trans_le (hreq req List.mem_cons_self)
  · exact hreq r (List.mem_cons_of_mem _ hr)

theorem protocolOk_injServe {s : State} {req : Request} {queue : List Request} (h : s.protocolOk) (hfree : s.inj.serving = none)
    (hqueued : s.inj.txq = req :: queue) (d : Draws) : (injServe req queue d s).protocolOk := by
  have hout : s.outstanding = req :: queue := (outstanding_free hfree).trans hqueued
  rcases injServe_cases req queue d s with ⟨u, hlost, hunits, htxq, -⟩ | ⟨b, delay, hb, hunits, -⟩
  · rw [hlost]
    exact protocolOk_completed h (htxq.symm ▸ hout) hunits.cmd hunits.arq hunits.rx
  · exact protocolOk_served h hout hb hunits

/-! #### The receive engine -/

/-- A datagram taken from the RXQ, or put into it where there is room, keeps the bounds (R53). -/
theorem protocolOk_rxq {s t : State} (h : s.protocolOk) (hinj : t.inj = s.inj) (hcmd : t.cmd = s.cmd) (harq : t.arq = s.arq)
    (hwait : t.rx.rxWait = s.rx.rxWait) (hlen : t.rx.rxq.length ≤ Config.rxqDepth)
    (hbytes : ∀ d ∈ t.rx.rxq, d.bytes.length ≤ Config.frameCap) : t.protocolOk := by
  obtain ⟨hrequests, hsession, -, -, hreq, hframe, hopc⟩ := h
  simp only [State.protocolOk, State.requestsOk, State.sessionOk, State.boundsOk, outstanding_eq_of_inj hinj, hcmd, harq, hwait]
  exact ⟨hrequests, hsession, hlen, hbytes, hreq, hframe, hopc⟩

theorem protocolOk_netArrive {s : State} (h : s.protocolOk) (b : Bytes) (src : Endpoint) : (netArrive b src s).protocolOk := by
  obtain ⟨-, harq, hinj, hcmd, -⟩ := netArrive_frame b src s
  obtain ⟨-, -, hlen, hbytes, -⟩ := id h
  rcases netArrive_rx b src s with hrx | ⟨hroom, hb, hrx⟩
  · exact protocolOk_rxq h hinj hcmd harq (by rw [hrx]) (by rwa [hrx]) (by rwa [hrx])
  · refine protocolOk_rxq h hinj hcmd harq (by rw [hrx]) ?_ ?_ <;> rw [hrx]
    · simpa using hroom
    · simpa [or_imp, forall_and] using ⟨hbytes, hb⟩

/-- An ACK of strings within their capacities is submitted while the engine waits for none (R155). -/
theorem protocolOk_sendAck {f : Frame} {s t : State} (h : s.protocolOk) (hwait : s.rx.rxWait = false) (hf : f.wf = true)
    (hids : ∀ sl ∈ [Slot.myPhys, .myLog], ∃ n, s.lram.slotLen sl = .ok n ∧ n ≤ sl.cap) (hack : sendAck f s = .ok t) :
    t.protocolOk := by
  obtain ⟨w, myPhys, myLog, hphys, hlog, rfl, rfl⟩ := sendAck_eq_ok hack
  have cphys : myPhys.length ≤ 64 := (Memory.holds_of_checked hphys (hids _ (by simp))).2.1
  have clog : myLog.length ≤ 64 := (Memory.holds_of_checked hlog (hids _ (by simp))).2.1
  obtain ⟨csrcPhys, -, csrcLog, -⟩ := Frame.wf_caps hf
  have hwf : (encodedFrame myPhys f.srcPhys (ackPacket f myLog s.cfg.ttlInit)).wf = true := by
    simp [Frame.wf, Packet.wf, encodedFrame, ackPacket, Config.maxAddr, cphys, clog, csrcPhys, csrcLog]
  generalize hw : (encodeAlg myPhys f.srcPhys (ackPacket f myLog s.cfg.ttlInit)).1 = w
  have hlen : w.length ≤ Config.frameCap := hw ▸ encodeAlg_length_le hwf
  obtain ⟨⟨hcmd, harq, hack⟩, hsession, hrxq, hrxd, hreq, hframe, hopc⟩ := h
  have hout : State.outstanding { (s.enqueue w .rxeAck).bump .ackTx with rx := { s.rx with rxWait := true } }
      = s.outstanding ++ [{ bytes := w, dst := s.nextHop, tag := .rxeAck }] := outstanding_submitted rfl rfl
  refine ⟨⟨?_, ?_, ?_⟩, hsession, hrxq, hrxd, ?_, hframe, hopc⟩ <;> rw [hout]
  · exact countP_submitted hcmd Iff.rfl
  · exact countP_submitted harq Iff.rfl
  · exact countP_submitted hack ⟨by rw [hwait]; decide, rfl⟩
  · exact bytes_le_submitted hreq hlen

/-- The identity check that answers yes has read both lengths within capacity (R151). -/
theorem identityFits_true {m : Memory} (h : identityFits m = .ok true) :
    ∀ sl ∈ [Slot.myPhys, .myLog], ∃ n, m.slotLen sl = .ok n ∧ n ≤ sl.cap := by
  unfold identityFits at h
  split at h
  next hlens => exact checkLens_eq_ok hlens
  next => cases h
  next => cases h

/-- A delivery leaves the identity slots' lengths as they were (R154). -/
theorem deliver_slotLen {f : Frame} (hf : f.wf = true) (s : State) {sl : Slot} (hsl : sl ∈ [Slot.myPhys, .myLog]) :
    (deliver f s).lram.slotLen sl = s.lram.slotLen sl := by
  have hne : sl ≠ .rxmType ∧ sl ≠ .rxmSender ∧ sl ≠ .rxmText ∧ sl ≠ .rxmSrcLog := by
    simp only [List.mem_cons, List.not_mem_nil, or_false] at hsl
    rcases hsl with rfl | rfl <;> decide
  obtain ⟨x1, x2, x3, x4, hcaps, hlram⟩ := deliver_lram f s
  obtain ⟨c1, c2, c3, c4⟩ := hcaps hf
  rw [hlram, (Memory.slotWrite_other _ hne.2.2.2 c4).1, (Memory.slotWrite_other _ hne.2.2.1 c3).1,
    (Memory.slotWrite_other _ hne.2.1 c2).1, (Memory.slotWrite_other _ hne.1 c1).1]

theorem protocolOk_takeBytes {b : Bytes} {s t : State} (h : s.protocolOk) (hwait : s.rx.rxWait = false)
    (htake : takeBytes b s = .ok t) : t.protocolOk := by
  rcases takeBytes_cases htake with rfl | rfl | rfl | rfl | ⟨f, -, rfl⟩ | ⟨f, hparse, hfits, hack⟩ | ⟨f, hparse, hfits, hack⟩
  · exact protocolOk_of_sameUnits h ⟨rfl, rfl, rfl, rfl, rfl⟩
  · exact protocolOk_of_sameUnits h ⟨rfl, rfl, rfl, rfl, rfl⟩
  · exact protocolOk_of_sameUnits h ⟨rfl, rfl, rfl, rfl, rfl⟩
  · exact protocolOk_of_sameUnits h ⟨rfl, rfl, rfl, rfl, rfl⟩
  · by_cases houtstanding : s.arq.state = .awaitingAck ∧ f.pkt.seg.seq = s.arq.seqBit
    · rw [takeAck_outstanding houtstanding]
      exact protocolOk_congr h rfl rfl ⟨true, rfl⟩ rfl rfl
    · rw [takeAck_ignored houtstanding]
      exact protocolOk_of_sameUnits h ⟨rfl, rfl, rfl, rfl, rfl⟩
  · exact protocolOk_sendAck (s := s.bump .rxDup) h hwait (parse_eq_some_iff.1 hparse).1 (identityFits_true hfits) hack
  · have hf : f.wf = true := (parse_eq_some_iff.1 hparse).1
    obtain ⟨dinj, dcmd, darq, -, -, drx⟩ := deliver_frame f s
    have hdelivered : (deliver f s).protocolOk :=
      protocolOk_congr h (outstanding_eq_of_inj dinj) dcmd ⟨s.arq.ackLatch, darq⟩ (by rw [drx]) (by rw [drx])
    refine protocolOk_sendAck hdelivered (by rw [drx]; exact hwait) hf (fun sl hsl => ?_) hack
    rw [deliver_slotLen hf s hsl]
    exact identityFits_true hfits sl hsl

/-! #### Every turn -/

theorem Transition.protocolOk {tn : Turn} {s t : State} (h : Transition tn s t) (hs : s.protocolOk) : t.protocolOk := by
  cases h with
  | still units => exact protocolOk_of_sameUnits hs units
  | reset isReset units => exact protocolOk_of_sameUnits reset_protocolOk units
  | hostLram o w units => exact protocolOk_of_sameUnits hs units
  | accept w idle units => exact protocolOk_of_sameUnits (protocolOk_accept hs idle w) units
  | command i phase word next =>
    rcases exec_cases next with hends | ⟨-, b, hb, rfl⟩ | ⟨-, hidle, w, hw, rfl⟩
    · exact protocolOk_endsCommand hs phase hends
    · exact protocolOk_xmitWrites hs phase hb
    · exact protocolOk_sendWrites hs phase hidle hw
  | illegal phase => exact protocolOk_endsCommand hs phase (endsCommand_execIllegal s)
  | arqComplete enabled => exact protocolOk_arqComplete hs enabled
  | arqTimeout enabled => exact protocolOk_arqTimeout hs enabled
  | take d queue ready queued taken =>
    obtain ⟨-, -, hlen, hbytes, -⟩ := id hs
    rw [queued] at hlen hbytes
    have hpopped : State.protocolOk ({ s with rx := { s.rx with rxq := queue } }.bump .rx) :=
      protocolOk_rxq hs rfl rfl rfl rfl (Nat.le_of_succ_le hlen) (List.forall_mem_of_forall_mem_cons hbytes)
    exact protocolOk_takeBytes hpopped ready taken
  | injStart d req queue free queued => exact protocolOk_injServe hs free queued d
  | injEmit req serving => exact protocolOk_completed hs (outstanding_serving serving) rfl rfl rfl
  | tick => exact protocolOk_tick hs
  | arrive k d u units => exact protocolOk_netArrive (protocolOk_of_sameUnits hs units) d.bytes d.src
  | emission x units => exact protocolOk_of_sameUnits hs units

/-- Settles O54: every turn keeps the bookkeeping, and taking the turn from the list changes none of it. -/
theorem stepKeepsProtocolInvariant : Obligations.StepKeepsProtocolInvariant := by
  intro s t hs hstep
  obtain ⟨tn, turns, count, htransition⟩ := exists_step_transition hstep
  exact htransition.protocolOk hs

/-- Every outstanding request is the command unit's, the ARQ unit's or the receive engine's (R105). -/
theorem length_le_countP (l : List Request) :
    l.length ≤ l.countP isCmdRequest + l.countP isArqRequest + l.countP isAckRequest := by
  induction l with
  | nil => simp
  | cons r l ih =>
    have hkind : isCmdRequest r = true ∨ isArqRequest r = true ∨ isAckRequest r = true := by
      obtain ⟨bytes, dst, tag⟩ := r
      cases tag with
      | cmdXmit => exact .inl rfl
      | arqSend => exact .inl rfl
      | arqRetx => exact .inr (.inl rfl)
      | rxeAck => exact .inr (.inr rfl)
    rw [List.length_cons, List.countP_cons, List.countP_cons, List.countP_cons]
    rcases hkind with hr | hr | hr <;> rw [if_pos hr] <;> omega

/-- Settles O55: each of the three requesters has at most one request outstanding. -/
theorem atMostThreeRequests : Obligations.AtMostThreeRequests := by
  intro s hs
  obtain ⟨⟨hcmd, harq, hack⟩, -⟩ := hs
  have one_at_most {P : Prop} [Decidable P] : (if P then 1 else 0) ≤ 1 := by split <;> omega
  have hcmd' : s.outstanding.countP isCmdRequest ≤ 1 := hcmd.trans_le one_at_most
  have harq' : s.outstanding.countP isArqRequest ≤ 1 := harq.trans_le one_at_most
  have hack' : s.outstanding.countP isAckRequest ≤ 1 := hack.trans_le one_at_most
  have hall := length_le_countP s.outstanding
  have htxq : s.inj.txq.length ≤ s.outstanding.length := by
    unfold State.outstanding
    rw [List.length_append]
    omega
  exact ⟨by omega, by omega, harq'⟩

end Sys2Proof.Machine
end

section
/-! ### LRAM's form (10_state.md R41, 20_memory.md R58) -/

namespace Sys2Proof.Machine

/-- Canonical form, offsets of the map, and whole words of them: what `State.memoryOk` says of LRAM. -/
def Memory.formOk (m : Memory) : Prop := m.wf ∧ (∀ c ∈ m, isLramOffset c.1 = true) ∧ m.wholeWords

theorem memoryOk_iff {s : State} : s.memoryOk ↔ s.lram.formOk := Iff.rfl

theorem formOk_nil : Memory.formOk [] := by
  refine ⟨.nil, ?_, ?_⟩ <;> exact List.forall_mem_nil _

/-- A word-aligned write whose words lie in the map keeps LRAM's form. -/
theorem Memory.write_formOk {m : Memory} (h : m.formOk) {a : Nat} {bs : Bytes} (ha : a % 4 = 0)
    (hin : ∀ x, a ≤ x → x < a + bs.length + wordPad bs.length → isLramOffset x = true) : (m.write a bs).formOk := by
  obtain ⟨hwf, hmap, hwords⟩ := h
  refine ⟨Memory.write_wf hwf a bs, fun c hc => ?_, Memory.write_wholeWords hwords ha bs⟩
  rcases Memory.mem_write hc with hold | ⟨hlo, hhi⟩
  · exact hmap c hold
  · exact hin c.1 hlo hhi

/-- A write of a string within the slot's capacity keeps LRAM's form (R58). -/
theorem Memory.slotWrite_formOk {m : Memory} (h : m.formOk) {sl : Slot} {x : Bytes} (hx : x.length ≤ sl.cap) :
    (m.slotWrite sl x).formOk := by
  have hbase := sl.base_mod
  have hpad := Slot.pad_le hx
  have hdata : sl.data = sl.base + 4 := rfl
  have hword : wordPad 4 = 0 := rfl
  refine Memory.write_formOk (Memory.write_formOk h hbase fun a h1 h2 => ?_) (by omega) fun a h1 h2 => ?_
  · rw [bytesOfWord_length, hword] at h2
    exact isLramOffset_slot (sl := sl) (by omega)
  · exact isLramOffset_slot (sl := sl) (by omega)

/-- A write of a frame within FRAME_CAP keeps LRAM's form (R119). -/
theorem Memory.frameWrite_formOk {m : Memory} (h : m.formOk) {w : Bytes} (hw : w.length ≤ Config.frameCap) :
    (m.write frameBase w).formOk := by
  have hcap : w.length ≤ 12288 := hw
  have hpad : w.length + wordPad w.length ≤ 12288 := by unfold wordPad; omega
  refine Memory.write_formOk h (by decide) fun a h1 h2 => isLramOffset_frame ?_
  unfold frameBase at h1 h2
  omega

/-- Four slots written in a row, each within capacity. -/
theorem Memory.slotWrite_four_formOk {m : Memory} (h : m.formOk) {s1 s2 s3 s4 : Slot} {x1 x2 x3 x4 : Bytes}
    (h1 : x1.length ≤ s1.cap) (h2 : x2.length ≤ s2.cap) (h3 : x3.length ≤ s3.cap) (h4 : x4.length ≤ s4.cap) :
    ((((m.slotWrite s1 x1).slotWrite s2 x2).slotWrite s3 x3).slotWrite s4 x4).formOk :=
  Memory.slotWrite_formOk (Memory.slotWrite_formOk (Memory.slotWrite_formOk (Memory.slotWrite_formOk h h1) h2) h3) h4

theorem decodePayload_formOk {s : State} {p : Option Message} (h : s.lram.formOk) (hp : p.all Message.wf = true) :
    (decodePayload s p).lram.formOk := by
  cases p with
  | none => exact h
  | some m =>
    simp only [Option.all_some, Message.wf, Bool.and_eq_true, decide_eq_true_eq] at hp
    obtain ⟨⟨htype, hsender⟩, htext⟩ := hp
    exact Memory.slotWrite_formOk (Memory.slotWrite_formOk (Memory.slotWrite_formOk h htype) hsender) htext

/-- What parses is within the capacities, so DECODE's writes stay inside their slots (R120). -/
theorem decodeFrom_formOk {s : State} (h : s.lram.formOk) (b : Bytes) : (decodeFrom s b).lram.formOk := by
  unfold decodeFrom
  split
  next => exact h
  next f c v hd =>
    have hwf := (parse_eq_some_iff.1 (decodeAlg_eq_some hd).1).1
    simp only [Frame.wf, Packet.wf, Bool.and_eq_true, decide_eq_true_eq] at hwf
    obtain ⟨⟨hsrcPhys, hdstPhys⟩, ⟨hsrcLog, hdstLog⟩, hpayload⟩ := hwf
    rw [decodeWrites_lram]
    exact decodePayload_formOk (Memory.slotWrite_four_formOk (s1 := .wsSrcPhys) (s2 := .wsDstPhys) (s3 := .wsSrcLog)
      (s4 := .wsDstLog) h hsrcPhys hdstPhys hsrcLog hdstLog) hpayload

/-- A command leaves LRAM alone, or it is ENCODE, which writes a frame within FRAME_CAP, or DECODE (R119, R120). -/
theorem exec_formOk {i : Instr} {s t : State} (hs : s.lram.formOk) (h : exec i s = .next t) : t.lram.formOk := by
  cases i with
  | nop => cases h; exact hs
  | mkpkt => cases h; exact hs
  | ttlchk => cases h; exact hs
  | encode =>
    rcases State.endCommand_next h with hwrites | ⟨c, -, rfl⟩
    · obtain ⟨x, -, hfrom⟩ := Except.bind_eq_ok_iff.1 hwrites
      unfold encodeFrom at hfrom
      split at hfrom
      next => cases hfrom
      next hlen => cases hfrom; exact Memory.frameWrite_formOk hs (Nat.le_of_not_lt hlen)
    · exact hs
  | decode =>
    rcases State.endCommand_next h with hwrites | ⟨c, -, rfl⟩
    · obtain ⟨b, -, rfl⟩ := Except.map_eq_ok_iff.1 hwrites
      exact decodeFrom_formOk hs b
    · exact hs
  | crc32 =>
    rcases State.endCommand_next h with hwrites | ⟨c, -, rfl⟩
    · obtain ⟨b, -, rfl⟩ := Except.map_eq_ok_iff.1 hwrites; exact hs
    · exact hs
  | xmit =>
    rcases State.endCommand_next h with hwrites | ⟨c, -, rfl⟩
    · obtain ⟨b, -, rfl⟩ := Except.map_eq_ok_iff.1 hwrites; exact hs
    · exact hs
  | send =>
    rcases State.endCommand_next h with hwrites | ⟨c, -, rfl⟩
    · split at hwrites
      · obtain ⟨x, -, rfl⟩ := Except.map_eq_ok_iff.1 hwrites; exact hs
      · cases hwrites
    · exact hs
  | rxpop =>
    rcases State.endCommand_next h with hwrites | ⟨c, -, rfl⟩
    · split at hwrites <;> cases hwrites; exact hs
    · exact hs

/-- The receive engine writes the RXM slots alone, with strings within their capacities (R154). -/
theorem takeBytes_formOk {b : Bytes} {s t : State} (hs : s.lram.formOk) (h : takeBytes b s = .ok t) : t.lram.formOk := by
  rcases takeBytes_cases h with rfl | rfl | rfl | rfl | ⟨f, -, rfl⟩ | ⟨f, -, -, hack⟩ | ⟨f, hparse, -, hack⟩
  · exact hs
  · exact hs
  · exact hs
  · exact hs
  · unfold takeAck; split <;> exact hs
  · obtain ⟨-, -, -, -, hlram, -⟩ := sendAck_frame hack
    rw [hlram]; exact hs
  · obtain ⟨-, -, -, -, hlram, -⟩ := sendAck_frame hack
    obtain ⟨x1, x2, x3, x4, hcaps, hdelivered⟩ := deliver_lram f s
    obtain ⟨c1, c2, c3, c4⟩ := hcaps (parse_eq_some_iff.1 hparse).1
    rw [hlram, hdelivered]
    exact Memory.slotWrite_four_formOk hs c1 c2 c3 c4

theorem Transition.formOk {tn : Turn} {s t : State} (h : Transition tn s t) (hs : s.lram.formOk) : t.lram.formOk := by
  cases h with
  | still units lram => rw [lram]; exact hs
  | reset isReset units lram =>
    rcases lram with hkept | hempty
    · rw [hkept]; exact hs
    · rw [hempty]; exact formOk_nil
  | hostLram o w units lram aligned inside =>
    rw [lram]
    refine Memory.write_formOk hs aligned fun x h1 h2 => ?_
    have hword : wordPad 4 = 0 := rfl
    rw [bytesOfWord_length, hword] at h2
    have hx := inside (x - o) (by omega)
    rwa [show o + (x - o) = x by omega] at hx
  | accept w idle units lram => rw [lram]; exact hs
  | command i phase word next => exact exec_formOk hs next
  | illegal phase => exact hs
  | arqComplete enabled => exact hs
  | arqTimeout enabled => exact hs
  | take d queue ready queued taken =>
    exact takeBytes_formOk (s := { s with rx := { s.rx with rxq := queue } }.bump .rx) hs taken
  | injStart d req queue free queued =>
    rcases injServe_cases req queue d s with ⟨u, hu, -, -, hlram, -⟩ | ⟨b, delay, -, -, hlram, -⟩
    · rw [hu]
      have hkept : (injIdle (completeRequest req.tag u)).lram = s.lram := (completeRequest_frame req.tag u).2.2.1.trans hlram
      rw [hkept]; exact hs
    · rw [hlram]; exact hs
  | injEmit req serving =>
    have hkept : (injIdle (completeRequest req.tag (emitDatagram req s))).lram = s.lram :=
      (completeRequest_frame req.tag (emitDatagram req s)).2.2.1
    rw [hkept]; exact hs
  | tick =>
    obtain ⟨remain, delay, routers, htick, -⟩ := tick_frame s
    rw [htick]; exact hs
  | arrive k d u units lram =>
    obtain ⟨-, -, -, -, -, hkept⟩ := netArrive_frame d.bytes d.src u
    rw [hkept, lram]; exact hs
  | emission x units lram => rw [lram]; exact hs

/-- Settles O53: LRAM is written by the host word by word, by ENCODE, by DECODE and by a delivery, each time whole words inside
the map; every other turn leaves it, or empties it. -/
theorem stepKeepsMemoryForm : Obligations.StepKeepsMemoryForm := by
  intro s t hs hstep
  obtain ⟨tn, turns, count, htransition⟩ := exists_step_transition hstep
  exact htransition.formOk (memoryOk_iff.1 hs)

/-- Settles O52: the reset state has nothing written and nothing outstanding. -/
theorem resetIsSound : Obligations.ResetIsSound := ⟨formOk_nil, reset_protocolOk⟩

end Sys2Proof.Machine
end

section
/-! ### DECODE's ends (41_codec.md R120) -/

namespace Sys2Proof.Machine

/-- The end of a command that raised a result: RESULT, IRQ_PEND.CMD_DONE and CMD_PHASE (R163). -/
theorem State.raiseResult_eq (s : State) (code : ResultCode) : s.raiseResult code =
    { s with
      result  := { code := code, flag := false, parseOk := false, opc := s.cmd.opc }
      irqPend := s.irqPend ||| 0x01#6
      cmd     := { s.cmd with phase := .idle } } := rfl

/-- DECODE of a frame buffer that does not parse writes no field (R120). -/
theorem exec_decode_unparsed {s : State} {b : Bytes} (hb : frameOperand s = .ok b) (hp : parse b = none) :
    exec .decode s = .next (s.finish { code := .eIntegrity, flag := false, parseOk := false, opc := 0x02#8 }) := by
  rw [exec_decode, hb]
  simp only [Except.map, State.endCommand, decodeFrom, decodeAlg_none hp]

/-- Settles O9: both ends are a command's end on the state as it was. -/
theorem decodeRejectsWithoutWriting : Obligations.DecodeRejectsWithoutWriting := by
  intro s b
  constructor
  · intro hcap hlen hbytes hparse
    rw [exec_decode_unparsed (frameOperand_ok hcap hlen hbytes) hparse, State.finish_eq]
  · intro hlong
    rw [exec_decode, frameOperand_long hlong]
    exact congrArg Host.Outcome.next (State.raiseResult_eq s .eLen)

/-! #### Slots written in a row -/

/-- The strings of a list of slots, written in the order of the list. -/
def Memory.slotWrites (m : Memory) (l : List (Slot × Bytes)) : Memory := l.foldl (fun m p => m.slotWrite p.1 p.2) m

/-- Slot writes leave every byte outside the words of their strings as it was. -/
theorem Memory.read_slotWrites_outside {m : Memory} {l : List (Slot × Bytes)} {a : Nat}
    (h : ∀ p ∈ l, ¬ slotTouched p.1 p.2 a) : (m.slotWrites l).read a = m.read a := by
  induction l generalizing m with
  | nil => rfl
  | cons p l ih =>
    obtain ⟨hp, hl⟩ := List.forall_mem_cons.1 h
    calc (m.slotWrites (p :: l)).read a = (m.slotWrite p.1 p.2).read a := ih hl
      _ = m.read a := Memory.read_slotWrite_outside hp

/-- Slot writes keep every value but those of the length words and the strings' own bytes (R58). -/
theorem Memory.read_slotWrites_keeps {m : Memory} {l : List (Slot × Bytes)} {a : Nat} {v : Byte} (hv : m.read a = some v)
    (h : ∀ p ∈ l, ¬ slotWritten p.1 p.2 a) : (m.slotWrites l).read a = some v := by
  induction l generalizing m with
  | nil => exact hv
  | cons p l ih =>
    obtain ⟨hp, hl⟩ := List.forall_mem_cons.1 h
    exact ih (Memory.read_slotWrite_keeps hv hp) hl

/-- The slots DECODE writes, with their strings: the addresses, then the message's where there is one (R120). -/
def decodedSlots (f : Frame) : List (Slot × Bytes) :=
  [(.wsSrcPhys, f.srcPhys), (.wsDstPhys, f.dstPhys), (.wsSrcLog, f.pkt.srcLog), (.wsDstLog, f.pkt.dstLog)]
    ++ match f.pkt.seg.payload with
      | none => []
      | some m => [(.wsType, m.type), (.wsSender, m.senderAddr), (.wsText, m.text)]

theorem decodeWrites_lram_eq_slotWrites (s : State) (f : Frame) (c : Word) (v : Bool) :
    (decodeWrites s f c v).lram = s.lram.slotWrites (decodedSlots f) := by
  rw [decodeWrites_lram]
  cases hp : f.pkt.seg.payload with
  | none => simp only [decodedSlots, hp]; rfl
  | some m => simp only [decodedSlots, hp]; rfl

/-! #### DECODE's writes field by field -/

/-- DECODE of a frame buffer that parses to `f`. -/
theorem exec_decode_frame {s : State} {b : Bytes} {f : Frame} (hcap : s.ws.frameLen.toNat ≤ 12288)
    (hlen : b.length = s.ws.frameLen.toNat) (hbytes : ∀ i < b.length, s.lram.read (0x4000 + i) = b[i]?)
    (hparse : parse b = some f) :
    exec .decode s = .next (decodeWrites s f (crc32 (canon f)) (crc32 (canon f) == f.checksum)) :=
  exec_decode_parsed (frameOperand_ok hcap hlen hbytes) (decodeAlg_some hparse)

section
variable {s : State} {f : Frame} {c : Word} {v : Bool}

/-- What DECODE writes of a frame with a message, LRAM aside (R120). -/
theorem decodeWrites_message {m : Message} (h : f.pkt.seg.payload = some m) (hv : v = decide (c = f.checksum)) :
    decodeWrites s f c v =
      { s with
        lram    := (decodeWrites s f c v).lram
        ws      :=
          { ttl := f.pkt.ttl, seg := 1#1 ++ BitVec.ofBool f.pkt.seg.isAck ++ f.pkt.seg.seq, checksum := f.checksum,
            tsLo := m.ts.extractLsb' 0 32, tsHi := m.ts.extractLsb' 32 32, frameLen := s.ws.frameLen }
        crcOut  := c
        result  :=
          { code := if c = f.checksum then .ok else .eIntegrity, flag := decide (c = f.checksum), parseOk := true,
            opc := 0x02#8 }
        irqPend := s.irqPend ||| 0x01#6
        cmd     := { s.cmd with phase := .idle } } := by
  subst hv
  simp [decodeWrites, decodePayload, h, State.finish_eq, segBits, timestampLo, timestampHi]

/-- What DECODE writes of a frame with a null payload, LRAM aside (R120). -/
theorem decodeWrites_null (h : f.pkt.seg.payload = none) (hv : v = decide (c = f.checksum)) :
    decodeWrites s f c v =
      { s with
        lram    := (decodeWrites s f c v).lram
        ws      :=
          { s.ws with
            ttl := f.pkt.ttl, seg := 0#1 ++ BitVec.ofBool f.pkt.seg.isAck ++ f.pkt.seg.seq, checksum := f.checksum }
        crcOut  := c
        result  :=
          { code := if c = f.checksum then .ok else .eIntegrity, flag := decide (c = f.checksum), parseOk := true,
            opc := 0x02#8 }
        irqPend := s.irqPend ||| 0x01#6
        cmd     := { s.cmd with phase := .idle } } := by
  subst hv
  simp [decodeWrites, decodePayload, h, State.finish_eq, segBits]

end

/-- Settles O10: DECODE writes the seven strings in a row, each to its own slot, and then the registers. -/
theorem decodeWritesMessageFrame : Obligations.DecodeWritesMessageFrame := by
  intro s b f m hcap hlen hbytes hparse hm
  have hwf := (parse_eq_some_iff.1 hparse).1
  have hlram := decodeWrites_lram_eq_slotWrites s f (crc32 (canon f)) (crc32 (canon f) == f.checksum)
  obtain ⟨h1, h2, h3, h4⟩ := decodeWrites_holds_addresses s hwf (crc32 (canon f)) (crc32 (canon f) == f.checksum)
  obtain ⟨h5, h6, h7⟩ := decodeWrites_holds_message s hwf hm (crc32 (canon f)) (crc32 (canon f) == f.checksum)
  have hslots : decodedSlots f = [(.wsSrcPhys, f.srcPhys), (.wsDstPhys, f.dstPhys), (.wsSrcLog, f.pkt.srcLog),
      (.wsDstLog, f.pkt.dstLog), (.wsType, m.type), (.wsSender, m.senderAddr), (.wsText, m.text)] := by
    simp only [decodedSlots, hm, List.cons_append, List.nil_append]
  refine ⟨_, exec_decode_frame hcap hlen hbytes hparse, h1, h2, h3, h4, h5, h6, h7, ?_, ?_, ?_⟩
  · intro a n1 n2 n3 n4 n5 n6 n7
    rw [hlram]
    refine Memory.read_slotWrites_outside ?_
    simp only [hslots, List.forall_mem_cons]
    exact ⟨n1, n2, n3, n4, n5, n6, n7, List.forall_mem_nil _⟩
  · intro a v hv n1 n2 n3 n4 n5 n6 n7
    rw [hlram]
    refine Memory.read_slotWrites_keeps hv ?_
    simp only [hslots, List.forall_mem_cons]
    exact ⟨n1, n2, n3, n4, n5, n6, n7, List.forall_mem_nil _⟩
  · exact decodeWrites_message hm (beq_eq_decide _ _)

/-- Settles O11: with a null payload DECODE writes the four address strings, and neither WS_TS_* nor a message slot. -/
theorem decodeWritesNullPayloadFrame : Obligations.DecodeWritesNullPayloadFrame := by
  intro s b f hcap hlen hbytes hparse hnone
  have hwf := (parse_eq_some_iff.1 hparse).1
  have hlram := decodeWrites_lram_eq_slotWrites s f (crc32 (canon f)) (crc32 (canon f) == f.checksum)
  obtain ⟨h1, h2, h3, h4⟩ := decodeWrites_holds_addresses s hwf (crc32 (canon f)) (crc32 (canon f) == f.checksum)
  have hslots : decodedSlots f = [(.wsSrcPhys, f.srcPhys), (.wsDstPhys, f.dstPhys), (.wsSrcLog, f.pkt.srcLog),
      (.wsDstLog, f.pkt.dstLog)] := by
    simp only [decodedSlots, hnone, List.append_nil]
  refine ⟨_, exec_decode_frame hcap hlen hbytes hparse, h1, h2, h3, h4, ?_, ?_, ?_⟩
  · intro a n1 n2 n3 n4
    rw [hlram]
    refine Memory.read_slotWrites_outside ?_
    simp only [hslots, List.forall_mem_cons]
    exact ⟨n1, n2, n3, n4, List.forall_mem_nil _⟩
  · intro a v hv n1 n2 n3 n4
    rw [hlram]
    refine Memory.read_slotWrites_keeps hv ?_
    simp only [hslots, List.forall_mem_cons]
    exact ⟨n1, n2, n3, n4, List.forall_mem_nil _⟩
  · exact decodeWrites_null hnone (beq_eq_decide _ _)

end Sys2Proof.Machine
end

section
/-! ### ENCODE (41_codec.md R119) -/

namespace Sys2Proof.Machine

/-- The slots of a workspace message, and its timestamp, hold `p`; with HASPL = 0 there is none (R34, R119). -/
def holdsPayload (m : Memory) (w : Workspace) : Option Message → Prop
  | none => w.hasPl = false
  | some p => w.hasPl = true ∧ m.holds .wsType p.type ∧ m.holds .wsSender p.senderAddr ∧ m.holds .wsText p.text
      ∧ p.ts = timestamp w.tsLo w.tsHi

theorem workspacePayload_ok {m : Memory} {w : Workspace} {p : Option Message} (h : holdsPayload m w p) :
    workspacePayload m w = .ok p := by
  cases p with
  | none =>
    have hnone : w.hasPl = false := h
    simp only [workspacePayload, hnone, Bool.false_eq_true, if_false]
    rfl
  | some msg =>
    obtain ⟨hpl, htype, hsender, htext, hts⟩ := h
    have hlens : checkLens m [.wsType, .wsSender, .wsText] = .ok () := checkLens_ok (by
      simp only [List.forall_mem_cons]
      exact ⟨⟨_, htype⟩, ⟨_, hsender⟩, ⟨_, htext⟩, List.forall_mem_nil _⟩)
    simp only [workspacePayload, hpl, if_true, hlens, messageOperand_ok htype hsender htext, ← hts]
    rfl

/-- ENCODE's operands, every slot it reads holding a string (R119). -/
theorem workspaceOperands_ok {m : Memory} {w : Workspace} {srcPhys dstPhys srcLog dstLog : Bytes} {p : Option Message}
    (h1 : m.holds .wsSrcPhys srcPhys) (h2 : m.holds .wsDstPhys dstPhys) (h3 : m.holds .wsSrcLog srcLog)
    (h4 : m.holds .wsDstLog dstLog) (hp : holdsPayload m w p) :
    workspaceOperands m w = .ok (srcPhys, dstPhys,
      { srcLog := srcLog, dstLog := dstLog, ttl := w.ttl, seg := { seq := w.seq, isAck := w.isAck, payload := p } }) := by
  have hlens : checkLens m [.wsSrcPhys, .wsDstPhys, .wsSrcLog, .wsDstLog] = .ok () := checkLens_ok (by
    simp only [List.forall_mem_cons]
    exact ⟨⟨_, h1⟩, ⟨_, h2⟩, ⟨_, h3⟩, ⟨_, h4⟩, List.forall_mem_nil _⟩)
  simp only [workspaceOperands, hlens, workspacePayload_ok hp, slotOperand_ok h1, slotOperand_ok h2, slotOperand_ok h3,
    slotOperand_ok h4]
  rfl

/-- ENCODE whose operands are readable writes its frame, which always fits (R100, R119). -/
theorem exec_encode_of_operands {s : State} {srcPhys dstPhys : Bytes} {pkt : Packet}
    (h : workspaceOperands s.lram s.ws = .ok (srcPhys, dstPhys, pkt)) :
    exec .encode s = .next (encodeWrites s (encodeAlg srcPhys dstPhys pkt).1 (encodeAlg srcPhys dstPhys pkt).2) := by
  have hfits : ¬ Config.frameCap < (encodeAlg srcPhys dstPhys pkt).1.length :=
    Nat.not_lt.2 (encodeAlg_length_le (encodedFrame_wf h))
  rw [exec_encode, h]
  simp only [Except.bind, encodeFrom, if_neg hfits, State.endCommand]

/-- Settles O12: the operands are the held strings, and ENCODE's one write to LRAM is the frame at 0x4000. -/
theorem encodeWritesFrame : Obligations.EncodeWritesFrame := by
  intro s srcPhys dstPhys srcLog dstLog p h1 h2 h3 h4 hp f c w
  have hpayload : holdsPayload s.lram s.ws p := by
    cases p with
    | none => exact hp
    | some m => exact hp
  have hexec := exec_encode_of_operands (workspaceOperands_ok h1 h2 h3 h4 hpayload)
  rw [encodeAlg_eq] at hexec
  refine ⟨encodeWrites s w c, hexec, fun i hi => ?_, fun a ha => ?_, fun a v hv ha => ?_, rfl⟩
  · show (s.lram.write frameBase w).read (frameBase + i) = w[i]?
    rw [Memory.read_write_inside _ _ _ _ (by omega), Nat.add_sub_cancel_left]
  · exact Memory.read_write_outside _ _ _ _ ha
  · exact Memory.read_write_keeps hv ha

/-- ENCODE with a length above capacity among those it checks, all of them readable (R119). -/
theorem workspaceOperands_long {m : Memory} {w : Workspace} (h : checkLens m
    (if w.hasPl then [.wsSrcPhys, .wsDstPhys, .wsSrcLog, .wsDstLog] ++ [.wsType, .wsSender, .wsText]
      else [.wsSrcPhys, .wsDstPhys, .wsSrcLog, .wsDstLog]) = .error (.result .eLen)) :
    workspaceOperands m w = .error (.result .eLen) := by
  by_cases hpl : w.hasPl = true
  · rw [if_pos hpl, checkLens_append] at h
    rcases Except.bind_eq_error_iff.1 h with h | ⟨⟨⟩, hpass, h⟩
    · simp only [workspaceOperands, h]; rfl
    · have hpayload : workspacePayload m w = .error (.result .eLen) := by
        simp only [workspacePayload, hpl, if_true, h]; rfl
      simp only [workspaceOperands, hpass, hpayload]; rfl
  · rw [if_neg hpl] at h
    simp only [workspaceOperands, h]; rfl

/-- Settles O13: the lengths ENCODE checks are those listed, in that order, and the first above its capacity raises E_LEN. -/
theorem encodeRefusesLongSlots : Obligations.EncodeRefusesLongSlots := by
  intro s slots hreadable hlong
  rw [exec_encode, workspaceOperands_long (checkLens_long hreadable hlong)]
  exact congrArg Host.Outcome.next (State.raiseResult_eq s .eLen)

end Sys2Proof.Machine
end

section
/-! ### XMIT and SEND (40_channel.md R113, 43_arq.md R132) -/

namespace Sys2Proof.Machine

/-- Settles O14: the frame buffer's bytes are the request's, or the buffer's length is above FRAME_CAP. -/
theorem xmitQueuesFrameBuffer : Obligations.XmitQueuesFrameBuffer := by
  intro s b
  constructor
  · intro hcap hlen hbytes
    rw [exec_xmit, frameOperand_ok hcap hlen hbytes]
    rfl
  · intro hlong
    rw [exec_xmit, frameOperand_long hlong]
    exact congrArg Host.Outcome.next (State.raiseResult_eq s .eLen)

/-- SEND's operands, every slot it reads holding a string (R132). -/
theorem sendOperands_ok {s : State} {myPhys peerPhys myLog peerLog type sender text : Bytes}
    (h1 : s.lram.holds .myPhys myPhys) (h2 : s.lram.holds .peerPhys peerPhys) (h3 : s.lram.holds .myLog myLog)
    (h4 : s.lram.holds .peerLog peerLog) (h5 : s.lram.holds .txmType type) (h6 : s.lram.holds .txmSender sender)
    (h7 : s.lram.holds .txmText text) :
    sendOperands s = .ok (myPhys, peerPhys,
      { srcLog := myLog, dstLog := peerLog, ttl := s.cfg.ttlInit,
        seg := { seq := s.arq.seqBit, isAck := false,
                 payload := some { type := type, senderAddr := sender, text := text,
                                   ts := timestamp s.txm.tsLo s.txm.tsHi } } }) := by
  have hlens : checkLens s.lram [.myPhys, .peerPhys, .myLog, .peerLog, .txmSender, .txmType, .txmText] = .ok () :=
    checkLens_ok (by
      simp only [List.forall_mem_cons]
      exact ⟨⟨_, h1⟩, ⟨_, h2⟩, ⟨_, h3⟩, ⟨_, h4⟩, ⟨_, h6⟩, ⟨_, h5⟩, ⟨_, h7⟩, List.forall_mem_nil _⟩)
  simp only [sendOperands, hlens, messageOperand_ok h5 h6 h7, slotOperand_ok h1, slotOperand_ok h2, slotOperand_ok h3,
    slotOperand_ok h4]
  rfl

/-- SEND from IDLE is its operands' check and then its writes (R132). -/
theorem exec_send_idle {s : State} (h : s.arq.state = .idle) :
    exec .send s = s.endCommand ((sendOperands s).map fun x => sendWrites s (encodeAlg x.1 x.2.1 x.2.2).1) := by
  rw [exec_send, if_pos h]

/-- Settles O15: from IDLE the operands are the held strings, and SEND's writes are the session's and the request's. -/
theorem sendOpensSession : Obligations.SendOpensSession := by
  intro s myPhys peerPhys myLog peerLog type sender text hidle h1 h2 h3 h4 h5 h6 h7 f w
  rw [exec_send_idle hidle, sendOperands_ok h1 h2 h3 h4 h5 h6 h7]
  simp only [Except.map, encodeAlg_eq]
  rfl

/-- SEND with a length above capacity among those it checks, all of them readable (R132). -/
theorem sendOperands_long {s : State} (h : checkLens s.lram
    [.myPhys, .peerPhys, .myLog, .peerLog, .txmSender, .txmType, .txmText] = .error (.result .eLen)) :
    sendOperands s = .error (.result .eLen) := by
  simp only [sendOperands, h]
  rfl

/-- Settles O16: SEND looks at the session first, then at the lengths, and writes nothing before either check. -/
theorem sendRefusals : Obligations.SendRefusals := by
  refine fun s => ⟨fun hopen => ?_, fun hidle hreadable hlong => ?_⟩
  · have hne : ¬ s.arq.state = .idle := by rw [hopen]; decide
    rw [exec_send, if_neg hne]
    exact congrArg Host.Outcome.next (State.raiseResult_eq s .eState)
  · rw [exec_send_idle hidle, sendOperands_long (checkLens_long hreadable hlong)]
    exact congrArg Host.Outcome.next (State.raiseResult_eq s .eLen)

end Sys2Proof.Machine
end

section
/-! ### A turn of the running block (00_scope.md R13) -/

namespace Sys2Proof.Machine

/-- A turn of the running block is its agent's own step, whatever the turns behind it. -/
theorem takesTurn_of_live {tn : Turn} {s t : State} (hrun : s.resetHeld = false)
    (h : ∀ rest, liveTurn tn { s with turns := rest } = .next { t with turns := rest }) : takesTurn tn s t :=
  fun rest => (step_live hrun tn rest).trans (h rest)

/-- Settles O2: the step of the listed turn is CMD.exec, which runs what the decoder answers. -/
theorem stepRunsDecodedCommand : Obligations.StepRunsDecodedCommand := by
  intro s i rest hrun hturns hphase hdecode
  rw [step_of_turns hturns]
  simp only [runTurn, hrun, Bool.false_eq_true, if_false, liveTurn, cmdExec, hphase, if_true, hdecode]

theorem exec_mkpkt (s : State) :
    exec .mkpkt s = .next ({ s with ws := { s.ws with ttl := s.cfg.ttlInit } }.finishOk 0x04#8) := rfl

/-- Settles O5: MKPKT is a command's end with OK on the state with WS_TTL written. -/
theorem mkpktSetsInitialTtl : Obligations.MkpktSetsInitialTtl := by
  intro s
  rw [exec_mkpkt, State.finishOk, State.finish_eq]

end Sys2Proof.Machine
end

section
/-! ### The injector (40_channel.md section 2) -/

namespace Sys2Proof.Machine

theorem completeRequest_cmdXmit (s : State) : completeRequest .cmdXmit s = s.finishOk 0x06#8 := rfl

theorem completeRequest_arqSend (s : State) : completeRequest .arqSend s = (arqTxDone s).finishOk 0x07#8 := rfl

theorem completeRequest_arqRetx (s : State) : completeRequest .arqRetx s = arqTxDone s := rfl

theorem completeRequest_rxeAck (s : State) : completeRequest .rxeAck s = { s with rx := { s.rx with rxWait := false } } := rfl

/-- Settles O24: by the tag, a command's end, the end of a transmission, both, or the end of the receive engine's wait. -/
theorem requestCompletionByTag : Obligations.RequestCompletionByTag := by
  intro s
  rw [completeRequest_cmdXmit, completeRequest_arqSend, completeRequest_arqRetx, completeRequest_rxeAck, State.finishOk,
    State.finishOk, State.finish_eq, State.finish_eq, arqTxDone]
  exact ⟨rfl, rfl, rfl, rfl⟩

/-- The completion of a request looks at neither the injector nor the turns to come, and leaves both (R112). -/
theorem injIdle_completeRequest (tag : RequestTag) (s : State) :
    injIdle (completeRequest tag s) = completeRequest tag (injIdle s) := by
  cases tag <;> rfl

theorem completeRequest_withTurns (tag : RequestTag) (s : State) (rest : List Turn) :
    completeRequest tag { s with turns := rest } = { completeRequest tag s with turns := rest } := by
  cases tag <;> rfl

/-! #### One attempt -/

section
variable {p : ChannelParams} {d : Draws} {b : Bytes}

theorem isLost_iff : isLost p d = true ↔ d.loss.toNat < min p.pLoss.toNat 0x10000 :=
  decide_eq_true_iff

theorem isCorrupted_iff : isCorrupted p d b = true ↔ b ≠ [] ∧ d.corrupt.toNat < min p.pCorrupt.toNat 0x10000 := by
  simp [isCorrupted, threshold]

theorem attempt_lost (h : isLost p d = true) : attempt p d b = .lost := if_pos h

theorem attempt_corrupted (hl : ¬ isLost p d = true) (hc : isCorrupted p d b = true) :
    attempt p d b = .sent (complementAt b (drawRange 0 (b.length - 1) d.pos)) true (attemptDelay p d) := by
  rw [attempt, if_neg hl, if_pos hc]

theorem attempt_sent (hl : ¬ isLost p d = true) (hc : ¬ isCorrupted p d b = true) :
    attempt p d b = .sent b false (attemptDelay p d) := by
  rw [attempt, if_neg hl, if_neg hc]

theorem drawRange_mem {lo hi : Nat} (h : lo ≤ hi) (x : Nat) : lo ≤ drawRange lo hi x ∧ drawRange lo hi x ≤ hi := by
  unfold drawRange
  omega

/-- A draw inside its interval is the one taken (R11). -/
theorem drawRange_of_mem {lo hi x : Nat} (hlo : lo ≤ x) (hhi : x ≤ hi) : drawRange lo hi x = x := by
  unfold drawRange
  omega

/-- The delay is the number drawn, the bounds being 32-bit numbers (R109). -/
theorem attemptDelay_toNat (p : ChannelParams) (d : Draws) : (attemptDelay p d).toNat =
    drawRange (min p.latMin.toNat p.latMax.toNat) (max p.latMin.toNat p.latMax.toNat) d.delay := by
  have hle := (drawRange_mem (lo := min p.latMin.toNat p.latMax.toNat) (hi := max p.latMin.toNat p.latMax.toNat)
    (by omega) d.delay).2
  have hmin := p.latMin.isLt
  have hmax := p.latMax.isLt
  rw [attemptDelay, BitVec.toNat_ofNat, Nat.mod_eq_of_lt (by omega)]

end

/-! #### INJ.start -/

section
variable {s : State} {req : Request} {queue : List Request} {d : Draws}

/-- INJ.start, enabled, serves the head of TXQ (R106). -/
theorem injStart_cons (hfree : s.inj.serving = none) (hqueued : s.inj.txq = req :: queue) :
    injStart d s = injServe req queue d s := by
  simp only [injStart, hfree, hqueued]

/-- A lost attempt is counted and completes at once (R107). -/
theorem injServe_lost (hfree : s.inj.serving = none) (hlost : isLost s.cfg.channel d = true) :
    injServe req queue d s = completeRequest req.tag
      { s with
        inj := { s.inj with txq := queue }
        cnt := { s.cnt with xmit := s.cnt.xmit + 1#32, loss := s.cnt.loss + 1#32 } } := by
  have hidle : ({ s.inj with txq := queue } : Injector) = { s.inj with txq := queue, serving := none } := by rw [← hfree]
  unfold injServe
  rw [attempt_lost hlost, hidle]
  exact injIdle_completeRequest _ _

/-- A corrupted attempt is counted and served with one byte complemented (R108). -/
theorem injServe_corrupted (hkept : ¬ isLost s.cfg.channel d = true) (hc : isCorrupted s.cfg.channel d req.bytes = true) :
    injServe req queue d s =
      { s with
        inj :=
          { txq := queue,
            serving := some
              { req with bytes := req.bytes.modify (drawRange 0 (req.bytes.length - 1) d.pos) (· ^^^ 0xFF#8) },
            delay := attemptDelay s.cfg.channel d }
        cnt := { s.cnt with xmit := s.cnt.xmit + 1#32, corrupt := s.cnt.corrupt + 1#32 } } := by
  unfold injServe
  rw [attempt_corrupted hkept hc]
  rfl

/-- Any other attempt is counted and served as it is (R106). -/
theorem injServe_sent (hkept : ¬ isLost s.cfg.channel d = true) (hc : ¬ isCorrupted s.cfg.channel d req.bytes = true) :
    injServe req queue d s =
      { s with
        inj := { txq := queue, serving := some req, delay := attemptDelay s.cfg.channel d }
        cnt := { s.cnt with xmit := s.cnt.xmit + 1#32 } } := by
  unfold injServe
  rw [attempt_sent hkept hc]
  rfl

end

/-- Settles O25: the attempt's three ends, with the position and the delay the draws give. -/
theorem injectorServesHeadRequest : Obligations.InjectorServesHeadRequest := by
  intro s d req queue hrun hfree hqueued
  have hstart (rest : List Turn) : liveTurn (.injStart d) { s with turns := rest }
      = .next (injServe req queue d { s with turns := rest }) :=
    congrArg Host.Outcome.next (injStart_cons (s := { s with turns := rest }) hfree hqueued)
  refine ⟨fun hlost => takesTurn_of_live hrun fun rest => ?_, fun hkept =>
    ⟨attemptDelay s.cfg.channel d, drawRange 0 (req.bytes.length - 1) d.pos, ?_, ?_, fun hlo hhi => ?_, fun hne => ?_,
      fun hpos => ?_, takesTurn_of_live hrun fun rest => ?_⟩⟩
  · rw [hstart, injServe_lost (s := { s with turns := rest }) hfree (isLost_iff.2 hlost), ← completeRequest_withTurns]
  · rw [attemptDelay_toNat]
    exact (drawRange_mem (by omega) _).1
  · rw [attemptDelay_toNat]
    exact (drawRange_mem (by omega) _).2
  · rw [attemptDelay_toNat, drawRange_of_mem hlo hhi]
  · have hlen : 0 < req.bytes.length := List.length_pos_iff.2 hne
    have hle := (drawRange_mem (Nat.zero_le (req.bytes.length - 1)) d.pos).2
    omega
  · exact drawRange_of_mem (Nat.zero_le _) (by omega)
  · have hkept : ¬ isLost s.cfg.channel d = true := fun h => Nat.not_lt.2 hkept (isLost_iff.1 h)
    rw [hstart]
    by_cases hc : isCorrupted s.cfg.channel d req.bytes = true
    · rw [if_pos (isCorrupted_iff.1 hc), injServe_corrupted (s := { s with turns := rest }) hkept hc]
    · rw [if_neg (mt isCorrupted_iff.2 hc), injServe_sent (s := { s with turns := rest }) hkept hc]

/-! #### INJ.emit -/

/-- The delay has run out, or time does not pass (R109, R138). -/
theorem delayElapsed_iff {delay : Word} : delayElapsed delay = true ↔ delay = 0#32 ∨ Config.timeModel = .untimed := by
  simp only [delayElapsed, Bool.or_eq_true, beq_iff_eq]

/-- INJ.emit, enabled (R111). -/
theorem injEmit_elapsed {s : State} {req : Request} (hserving : s.inj.serving = some req)
    (helapsed : delayElapsed s.inj.delay = true) :
    injEmit s = completeRequest req.tag (injIdle (emitDatagram req s)) := by
  simp only [injEmit, hserving, helapsed, if_true, injIdle_completeRequest]

/-- INJ.emit with a delay left is not enabled (R111). -/
theorem injEmit_waiting {s : State} {req : Request} (hserving : s.inj.serving = some req)
    (hwaiting : ¬ delayElapsed s.inj.delay = true) : injEmit s = s := by
  simp only [injEmit, hserving, if_neg hwaiting]

/-- Settles O26: the delay's test, and what INJ.emit does on either side of it. -/
theorem injectorEmitsWhenDelayElapsed : Obligations.InjectorEmitsWhenDelayElapsed := by
  intro s req hrun hserving
  refine ⟨fun helapsed => ⟨s.sourceEndpoint, takesTurn_of_live hrun fun rest => ?_⟩,
    fun hleft hticked => takesTurn_of_live hrun fun rest => ?_⟩
  · rw [← completeRequest_withTurns]
    exact congrArg Host.Outcome.next (injEmit_elapsed (s := { s with turns := rest }) hserving (delayElapsed_iff.2 helapsed))
  · have hwaiting : ¬ delayElapsed s.inj.delay = true := fun h => by
      rcases delayElapsed_iff.1 h with hzero | huntimed
      · exact hleft hzero
      · rw [hticked] at huntimed; cases huntimed
    exact congrArg Host.Outcome.next (injEmit_waiting (s := { s with turns := rest }) hserving hwaiting)

end Sys2Proof.Machine
end

section
/-! ### The sender's own steps and the tick (43_arq.md section 3) -/

namespace Sys2Proof.Machine

/-- A turn of ARQ.complete that is not enabled changes nothing. -/
theorem takesTurn_arqComplete_idle {s : State} (hrun : s.resetHeld = false) (h : ¬ arqCompleteEnabled s = true) :
    takesTurn .arqComplete s s :=
  takesTurn_of_live hrun fun rest => congrArg Host.Outcome.next
    (if_neg (c := arqCompleteEnabled { s with turns := rest } = true) h)

/-- A turn of ARQ.timeout that is not enabled changes nothing. -/
theorem takesTurn_arqTimeout_idle {s : State} (hrun : s.resetHeld = false) (h : ¬ arqTimeoutEnabled s = true) :
    takesTurn .arqTimeout s s :=
  takesTurn_of_live hrun fun rest => congrArg Host.Outcome.next
    (if_neg (c := arqTimeoutEnabled { s with turns := rest } = true) h)

/-- Settles O27: ARQ.complete is enabled, and its effect is the statement's. -/
theorem arqCompletesSession : Obligations.ArqCompletesSession := by
  intro s hrun hstate htxp hlatch
  refine takesTurn_of_live hrun fun rest => congrArg Host.Outcome.next ?_
  exact if_pos (c := arqCompleteEnabled { s with turns := rest } = true) (arqCompleteEnabled_iff.2 ⟨hstate, htxp, hlatch⟩)

/-- The timer has run out, or time does not pass (R138). -/
theorem timerExpired_iff {s : State} : timerExpired s = true ↔ s.arq.timerRemain = 0#32 ∨ Config.timeModel = .untimed := by
  exact delayElapsed_iff (delay := s.arq.timerRemain)

/-- Settles O28: ARQ.timeout is enabled exactly where the timer has run out, and its effect is the statement's. -/
theorem arqTimeoutRetransmits : Obligations.ArqTimeoutRetransmits := by
  intro s hrun hstate htxp htimer hlatch
  refine ⟨fun hexpired => takesTurn_of_live hrun fun rest => congrArg Host.Outcome.next ?_,
    fun hleft hticked => takesTurn_arqTimeout_idle hrun fun h => ?_⟩
  · exact if_pos (c := arqTimeoutEnabled { s with turns := rest } = true)
      (arqTimeoutEnabled_iff.2 ⟨hstate, htxp, htimer, timerExpired_iff.2 hexpired, hlatch⟩)
  · obtain ⟨-, -, -, hexpired, -⟩ := arqTimeoutEnabled_iff.1 h
    rcases timerExpired_iff.1 hexpired with hzero | huntimed
    · exact hleft hzero
    · rw [hticked] at huntimed; cases huntimed

/-- Settles O29: each clause negates something the step waits for. -/
theorem latchedAckDisablesTimeout : Obligations.LatchedAckDisablesTimeout := by
  intro s hrun
  have timeout_idle (h : s.arq.state = .idle ∨ s.arq.txp = true ∨ s.arq.timerRun = false ∨ s.arq.ackLatch = true) :
      takesTurn .arqTimeout s s := takesTurn_arqTimeout_idle hrun fun henabled => by
    obtain ⟨hstate, htxp, htimer, -, hlatch⟩ := arqTimeoutEnabled_iff.1 henabled
    simp [hstate, htxp, htimer, hlatch] at h
  have complete_idle (h : s.arq.state = .idle ∨ s.arq.txp = true ∨ s.arq.ackLatch = false) :
      takesTurn .arqComplete s s := takesTurn_arqComplete_idle hrun fun henabled => by
    obtain ⟨hstate, htxp, hlatch⟩ := arqCompleteEnabled_iff.1 henabled
    simp [hstate, htxp, hlatch] at h
  exact ⟨fun h => timeout_idle (.inr (.inr (.inr h))), fun h => timeout_idle (.inr (.inr (.inl h))),
    fun h => complete_idle (.inr (.inr h)), fun h => ⟨timeout_idle (.inr (.inl h)), complete_idle (.inr (.inl h))⟩,
    fun h => ⟨timeout_idle (.inl h), complete_idle (.inl h)⟩⟩

/-- A down-counter that runs loses 1 where it is above 0. -/
theorem countDown_if (run : Bool) (w : Word) : (if run then countDown w else w) =
    if run = true ∧ 0 < w.toNat then w - 1#32 else w := by
  cases run with
  | false => simp
  | true =>
    by_cases hw : w = 0#32
    · subst hw; rfl
    · have hpos : 0 < w.toNat := Nat.pos_of_ne_zero fun h => hw (BitVec.eq_of_toNat_eq h)
      simp [countDown, hw, hpos]

/-- Under UNTIMED the routers' delays stand still too (R138). -/
theorem tickRouters_untimed (h : Config.timeModel ≠ .ticked) (s : State) : tickRouters s = s := if_neg h

/-- Settles O30: under TICKED a tick counts the two down-counters down and then the routers'; under UNTIMED it does nothing. -/
theorem tickCountsDown : Obligations.TickCountsDown := by
  intro s hrun
  by_cases hticked : Config.timeModel = .ticked
  · refine ⟨(tickRouters s).net.routers, fun _ => takesTurn_of_live hrun fun rest => ?_, fun huntimed => ?_⟩
    · rw [← countDown_if, ← countDown_if]
      simp only [liveTurn, tickBlock_ticked hticked, tickRouters, if_pos hticked]
      rfl
    · rw [hticked] at huntimed; cases huntimed
  · refine ⟨s.net.routers, fun h => absurd h hticked, fun _ => takesTurn_of_live hrun fun rest => ?_⟩
    simp only [liveTurn, tickBlock_untimed hticked, tickRouters_untimed hticked]

/-- With the timer stopped and nothing served a tick leaves the block as it is (R138, R110). -/
theorem tickBlock_stopped {s : State} (hrun : s.arq.timerRun = false) (hserving : s.inj.serving = none) : tickBlock s = s := by
  by_cases hticked : Config.timeModel = .ticked
  · have hactive : s.injActive = false := by rw [State.injActive, hserving]; rfl
    rw [tickBlock_ticked hticked, hrun, hactive]
    rfl
  · exact tickBlock_untimed hticked s

/-- A tick of the routers does not look at the turns to come. -/
theorem tickRouters_turns (s : State) (rest : List Turn) : tickRouters { s with turns := rest } =
    { s with turns := rest, net := { s.net with routers := (tickRouters s).net.routers } } := by
  unfold tickRouters
  by_cases hticked : Config.timeModel = .ticked
  · rw [if_pos hticked, if_pos hticked]; rfl
  · rw [if_neg hticked, if_neg hticked]

/-- Settles O56: nothing an agent's step waits for is there, and a tick moves counters that stand still, and the routers'. -/
theorem quiescentBlockStays : Obligations.QuiescentBlockStays := by
  intro s tn hrun hok hquiet hinternal
  obtain ⟨hcmd, harq, htxq, hserving, hrxq, hwait⟩ := hquiet
  have unmoved {tn : Turn} (h : ∀ rest, liveTurn tn { s with turns := rest } = .next { s with turns := rest }) :
      ∃ routers : List Router, takesTurn tn s { s with net := { s.net with routers := routers } } :=
    ⟨s.net.routers, takesTurn_of_live hrun h⟩
  cases tn with
  | cmdExec =>
    refine unmoved fun rest => if_neg (c := s.cmd.phase = .exec) ?_
    rw [hcmd]; decide
  | arqComplete =>
    exact ⟨s.net.routers, takesTurn_arqComplete_idle hrun fun h => by
      rw [(arqCompleteEnabled_iff.1 h).1] at harq; cases harq⟩
  | arqTimeout =>
    exact ⟨s.net.routers, takesTurn_arqTimeout_idle hrun fun h => by
      rw [(arqTimeoutEnabled_iff.1 h).1] at harq; cases harq⟩
  | rxeTake =>
    refine unmoved fun rest => ?_
    simp only [liveTurn, rxeTake, hwait, hrxq, Bool.false_eq_true, if_false]
  | injStart d =>
    refine unmoved fun rest => ?_
    simp only [liveTurn, injStart, hserving, htxq]
  | injEmit =>
    refine unmoved fun rest => ?_
    simp only [liveTurn, injEmit, hserving]
  | tick =>
    obtain ⟨-, ⟨hclosed, -, -⟩, -⟩ := hok
    refine ⟨(tickRouters s).net.routers, takesTurn_of_live hrun fun rest => ?_⟩
    simp only [liveTurn, tickBlock_stopped (s := { s with turns := rest }) (hclosed harq).2 hserving, tickRouters_turns]
  | host a => cases hinternal
  | netDeliver k => cases hinternal
  | netLose k => cases hinternal
  | netInject n d => cases hinternal
  | routerStart i d => cases hinternal
  | routerEmit i => cases hinternal
  | hardReset b => cases hinternal
  | wire e rs => cases hinternal

end Sys2Proof.Machine
end

section
/-! ### RXE.take on a datagram that is no ACK (44_endpoint.md R146 to R158) -/

namespace Sys2Proof.Machine

/-- The integrity gate discards what does not parse, or claims another checksum than its own (R147). -/
theorem takeBytes_invalid {b : Bytes} (h : parse b = none ∨ ∃ f, parse b = some f ∧ crc32 (canon f) ≠ f.checksum) (s : State) :
    takeBytes b s = .ok (discard .rxIntegrity .integrity s) := by
  rcases h with hnone | ⟨f, hparse, hcrc⟩
  · simp only [takeBytes, decodeAlg_none hnone]
  · have hinvalid : (crc32 (canon f) == f.checksum) = false := beq_eq_false_iff_ne.2 hcrc
    simp only [takeBytes, decodeAlg_some hparse, hinvalid, Bool.not_false, if_true]

/-- The TTL gate discards a valid frame whose ttl is 0 (R148). -/
theorem takeBytes_expired {b : Bytes} {f : Frame} (hparse : parse b = some f) (hcrc : crc32 (canon f) = f.checksum)
    (httl : f.pkt.ttl = 0#32) (s : State) : takeBytes b s = .ok (discard .rxTtl .ttl s) := by
  have hvalid : (crc32 (canon f) == f.checksum) = true := beq_iff_eq.2 hcrc
  have hexpired : isTtlValid f.pkt.ttl = false := by rw [httl]; rfl
  simp only [takeBytes, decodeAlg_some hparse, hvalid, hexpired, Bool.not_true, Bool.false_eq_true, if_false, Bool.not_false,
    if_true]

/-- A turn of RXE that takes `d`, its gates answering `t` in the state with the datagram popped and counted (R146). -/
theorem takesTurn_rxeTake {s t : State} {d : RxDatagram} {queue : List RxDatagram} (hrun : s.resetHeld = false)
    (hwait : s.rx.rxWait = false) (hq : s.rx.rxq = d :: queue)
    (h : ∀ rest, takeBytes d.bytes ({ s with turns := rest, rx := { s.rx with rxq := queue } }.bump .rx)
      = .ok { t with turns := rest }) : takesTurn .rxeTake s t :=
  takesTurn_of_live hrun fun rest => by
    rw [liveTurn, rxeTake_cons (s := { s with turns := rest }) hwait hq, h rest]
    rfl

/-- Settles O34: the first two gates' discards, and the two things RXE.take waits for. -/
theorem receiveGatesDiscard : Obligations.ReceiveGatesDiscard := by
  refine ⟨fun s d queue hrun hwait hq => ⟨fun hinvalid => ?_, fun ⟨f, hparse, hcrc, httl⟩ => ?_⟩, fun s hrun hidle => ?_⟩
  · refine takesTurn_rxeTake hrun hwait hq fun rest => ?_
    rw [takeBytes_invalid hinvalid, discard_eq]
    rfl
  · refine takesTurn_rxeTake hrun hwait hq fun rest => ?_
    rw [takeBytes_expired hparse hcrc httl, discard_eq]
    rfl
  · refine takesTurn_of_live hrun fun rest => ?_
    rcases hidle with hwait | hempty
    · exact if_pos (c := s.rx.rxWait = true) hwait
    · simp only [liveTurn, rxeTake, hempty, ite_self]

/-! #### Data segments -/

/-- A datagram that is a data segment past the first two gates (R147, R148). -/
structure DataSegment (b : Bytes) (f : Frame) : Prop where
  parse : parse b = some f
  checksum : crc32 (canon f) = f.checksum
  ttl : f.pkt.ttl ≠ 0#32
  data : f.pkt.seg.isAck = false

theorem DataSegment.takeBytes {b : Bytes} {f : Frame} (h : DataSegment b f) (s : State) : takeBytes b s = takeData f s := by
  have hdata : ¬ f.pkt.seg.isAck = true := by rw [h.data]; decide
  rw [takeBytes_valid h.parse h.checksum h.ttl, if_neg hdata]

/-- A segment is discarded where an identity slot is above capacity (R151). -/
theorem takeData_config {f : Frame} {s : State} (h : identityFits s.lram = .ok false) :
    takeData f s = .ok ((s.drop .config).irq .rxDrop) := by
  simp only [takeData, h, bind, Except.bind, Bool.not_false, if_true]
  rfl

/-- A new segment is discarded where the delivered-message slot is held (R153). -/
theorem takeData_full {f : Frame} {s : State} (h1 : identityFits s.lram = .ok true) (h2 : s.rx.lastAcc ≠ some f.pkt.seg.seq)
    (h3 : s.rx.rxmFull = true) : takeData f s = .ok (discard .rxFull .rxFull s) := by
  simp only [takeData, h1, bind, Except.bind, Bool.not_true, Bool.false_eq_true, if_false, h2, h3, if_true]
  rfl

/-- Settles O36: the identity check reads both lengths before anything else of a data segment. -/
theorem dataSegmentDiscards : Obligations.DataSegmentDiscards := by
  intro s d queue f n m hrun hwait hq hparse hcrc httl hdata hphys hlog
  have hseg : DataSegment d.bytes f := ⟨hparse, hcrc, httl, hdata⟩
  have hfits : identityFits s.lram = .ok (decide (n ≤ 64 ∧ m ≤ 64)) := identityFits_ok hphys hlog
  refine ⟨fun hlong => takesTurn_rxeTake hrun hwait hq fun rest => ?_,
    fun hn hm hnew hfull => takesTurn_rxeTake hrun hwait hq fun rest => ?_⟩
  · rw [decide_eq_false (by omega)] at hfits
    rw [hseg.takeBytes, takeData_config (by exact hfits)]
    rfl
  · rw [decide_eq_true ⟨hn, hm⟩] at hfits
    rw [hseg.takeBytes, takeData_full (by exact hfits) (by exact hnew) (by exact hfull), discard_eq]
    rfl

/-! #### Acknowledgements -/

/-- The acknowledgement of `f`, its checksum not yet computed (R155). -/
def ackFrame (f : Frame) (myPhys myLog : Bytes) (ttl : Word) : Frame :=
  { srcPhys := myPhys, dstPhys := f.srcPhys, checksum := 0#32, pkt := ackPacket f myLog ttl }

/-- The request that carries the acknowledgement of `f` to NEXT_HOP (R155). -/
def ackRequest (f : Frame) (myPhys myLog : Bytes) (s : State) : Request :=
  { bytes := frameT (ackFrame f myPhys myLog s.cfg.ttlInit) (crc32 (frameT (ackFrame f myPhys myLog s.cfg.ttlInit) 0#32)),
    dst := s.nextHop, tag := .rxeAck }

/-- Identity slots that hold strings pass the check (R151). -/
theorem identityFits_holds {m : Memory} {myPhys myLog : Bytes} (h1 : m.holds .myPhys myPhys) (h2 : m.holds .myLog myLog) :
    identityFits m = .ok true := by
  obtain ⟨hlen1, hcap1, -⟩ := h1
  obtain ⟨hlen2, hcap2, -⟩ := h2
  rw [identityFits_ok hlen1 hlen2, decide_eq_true ⟨hcap1, hcap2⟩]

/-- What an acknowledgement writes (R155). -/
theorem sendAck_holds {f : Frame} {s : State} {myPhys myLog : Bytes} (h1 : s.lram.holds .myPhys myPhys)
    (h2 : s.lram.holds .myLog myLog) :
    sendAck f s = .ok
      { s with
        rx  := { s.rx with rxWait := true }
        cnt := s.cnt.bump .ackTx
        inj := { s.inj with txq := s.inj.txq ++ [ackRequest f myPhys myLog s] } } := by
  rw [sendAck_ok h1 h2, encodeAlg_eq]
  rfl

/-- Settles O37: a duplicate is counted and acknowledged, and the delivered-message slot is not looked at. -/
theorem duplicateIsAcknowledged : Obligations.DuplicateIsAcknowledged := by
  intro s d queue f myPhys myLog hrun hwait hq hparse hcrc httl hdata hphys hlog hdup a
  have hseg : DataSegment d.bytes f := ⟨hparse, hcrc, httl, hdata⟩
  refine takesTurn_rxeTake hrun hwait hq fun rest => ?_
  rw [hseg.takeBytes, takeData_dup (by exact identityFits_holds hphys hlog) (by exact hdup),
    sendAck_holds (by exact hphys) (by exact hlog)]
  rfl

/-! #### Delivery -/

/-- The slots a delivery writes, with their strings (R154). -/
def deliveredSlots (f : Frame) : List (Slot × Bytes) :=
  [(.rxmType, (deliveredMessage f.pkt.seg.payload).type), (.rxmSender, (deliveredMessage f.pkt.seg.payload).senderAddr),
    (.rxmText, (deliveredMessage f.pkt.seg.payload).text), (.rxmSrcLog, f.pkt.srcLog)]

/-- What a delivery writes (R154). -/
theorem deliver_eq (f : Frame) (s : State) : deliver f s =
    { s with
      lram    := s.lram.slotWrites (deliveredSlots f)
      rxm     :=
        { tsLo := timestampLo (deliveredMessage f.pkt.seg.payload).ts, tsHi := timestampHi (deliveredMessage f.pkt.seg.payload).ts,
          info := infoBits f.pkt.seg.payload.isSome f.pkt.seg.seq }
      rx      := { s.rx with rxmFull := true, lastAcc := some f.pkt.seg.seq }
      cnt     := s.cnt.bump .deliver
      irqPend := s.irqPend ||| 0x04#6 } := by
  simp [deliver, State.irq, State.bump, IrqBit.mask, Memory.slotWrites, deliveredSlots]

/-- A delivered message is within the capacities of the RXM slots (R91). -/
theorem deliveredMessage_caps {f : Frame} (hf : f.wf = true) :
    (deliveredMessage f.pkt.seg.payload).type.length ≤ 32 ∧ (deliveredMessage f.pkt.seg.payload).senderAddr.length ≤ 64
      ∧ (deliveredMessage f.pkt.seg.payload).text.length ≤ 1024 := by
  obtain ⟨-, -, -, -, hcaps⟩ := Frame.wf_caps hf
  cases hp : f.pkt.seg.payload with
  | none => simp [deliveredMessage]
  | some m => exact hcaps m hp

/-- After a delivery the RXM slots hold the delivered strings, and every other slot what it held (R154). -/
theorem holds_deliveredSlots {f : Frame} (hf : f.wf = true) (m : Memory) :
    (m.slotWrites (deliveredSlots f)).holds .rxmType (deliveredMessage f.pkt.seg.payload).type
      ∧ (m.slotWrites (deliveredSlots f)).holds .rxmSender (deliveredMessage f.pkt.seg.payload).senderAddr
      ∧ (m.slotWrites (deliveredSlots f)).holds .rxmText (deliveredMessage f.pkt.seg.payload).text
      ∧ (m.slotWrites (deliveredSlots f)).holds .rxmSrcLog f.pkt.srcLog
      ∧ ∀ sl, sl ≠ .rxmType → sl ≠ .rxmSender → sl ≠ .rxmText → sl ≠ .rxmSrcLog → ∀ x, m.holds sl x →
          (m.slotWrites (deliveredSlots f)).holds sl x := by
  obtain ⟨ctype, csender, ctext⟩ := deliveredMessage_caps hf
  obtain ⟨-, -, csrcLog, -⟩ := Frame.wf_caps hf
  obtain ⟨h1, h2, h3, h4, -, hother⟩ := Memory.slotWrite_four (m := m) (s1 := .rxmType) (s2 := .rxmSender) (s3 := .rxmText)
    (s4 := .rxmSrcLog) ctype csender ctext csrcLog (by decide) (by decide) (by decide) (by decide) (by decide) (by decide)
  exact ⟨h1, h2, h3, h4, hother⟩

/-- A turn of RXE on a new data segment with room: it is delivered and acknowledged (R154, R155). -/
theorem takesTurn_rxeTake_new {s : State} {d : RxDatagram} {queue : List RxDatagram} {f : Frame} {myPhys myLog : Bytes}
    (hrun : s.resetHeld = false) (hwait : s.rx.rxWait = false) (hq : s.rx.rxq = d :: queue) (hseg : DataSegment d.bytes f)
    (hphys : s.lram.holds .myPhys myPhys) (hlog : s.lram.holds .myLog myLog) (hnew : s.rx.lastAcc ≠ some f.pkt.seg.seq)
    (hroom : s.rx.rxmFull = false) :
    takesTurn .rxeTake s
      { s with
        lram    := s.lram.slotWrites (deliveredSlots f)
        rxm     :=
          { tsLo := timestampLo (deliveredMessage f.pkt.seg.payload).ts,
            tsHi := timestampHi (deliveredMessage f.pkt.seg.payload).ts,
            info := infoBits f.pkt.seg.payload.isSome f.pkt.seg.seq }
        rx      := { lastAcc := some f.pkt.seg.seq, rxmFull := true, rxWait := true, rxq := queue }
        cnt     :=
          { s.cnt with rx := s.cnt.rx + 1#32, deliver := s.cnt.deliver + 1#32, ackTx := s.cnt.ackTx + 1#32 }
        irqPend := s.irqPend ||| 0x04#6
        inj     := { s.inj with txq := s.inj.txq ++ [ackRequest f myPhys myLog s] } } := by
  obtain ⟨-, -, -, -, hother⟩ := holds_deliveredSlots (parse_eq_some_iff.1 hseg.parse).1 s.lram
  have hphys' := hother .myPhys (by decide) (by decide) (by decide) (by decide) _ hphys
  have hlog' := hother .myLog (by decide) (by decide) (by decide) (by decide) _ hlog
  refine takesTurn_rxeTake hrun hwait hq fun rest => ?_
  rw [hseg.takeBytes, takeData_new (by exact identityFits_holds hphys hlog) (by exact hnew) (by exact hroom), deliver_eq,
    sendAck_holds (by exact hphys') (by exact hlog')]
  rfl

/-- Settles O38: the delivery's four strings are written in a row, each to its own slot, and the identity slots the ACK reads are
not among them. -/
theorem newSegmentIsDelivered : Obligations.NewSegmentIsDelivered := by
  intro s d queue f m myPhys myLog hrun hwait hq hparse hcrc httl hdata hphys hlog hnew hroom hm a
  have hmsg : deliveredMessage f.pkt.seg.payload = m := by
    rcases hm with hsome | ⟨hnone, rfl⟩
    · rw [hsome]; rfl
    · rw [hnone]; rfl
  have hslots : deliveredSlots f
      = [(.rxmType, m.type), (.rxmSender, m.senderAddr), (.rxmText, m.text), (.rxmSrcLog, f.pkt.srcLog)] := by
    rw [deliveredSlots, hmsg]
  have hturn := takesTurn_rxeTake_new hrun hwait hq ⟨hparse, hcrc, httl, hdata⟩ hphys hlog hnew hroom
  obtain ⟨h1, h2, h3, h4, -⟩ := holds_deliveredSlots (parse_eq_some_iff.1 hparse).1 s.lram
  rw [hmsg] at h1 h2 h3 hturn
  refine ⟨s.lram.slotWrites (deliveredSlots f), h1, h2, h3, h4, fun x n1 n2 n3 n4 => ?_, fun x v hv n1 n2 n3 n4 => ?_, hturn⟩
  · refine Memory.read_slotWrites_outside ?_
    simp only [hslots, List.forall_mem_cons]
    exact ⟨n1, n2, n3, n4, List.forall_mem_nil _⟩
  · refine Memory.read_slotWrites_keeps hv ?_
    simp only [hslots, List.forall_mem_cons]
    exact ⟨n1, n2, n3, n4, List.forall_mem_nil _⟩

/-! #### Two segments with one bit -/

/-- A listed turn whose step is known. -/
theorem step_of_takesTurn {tn : Turn} {s t : State} {rest : List Turn} (h : takesTurn tn s t) (hturns : s.turns = tn :: rest) :
    step s = .next { t with turns := rest } := by
  have hs : s = { s with turns := tn :: rest } := by rw [← hturns]
  rw [hs]
  exact h rest

/-- What a listed turn leaves, unit by unit. -/
theorem exists_step_of_takesTurn {tn : Turn} {s t : State} {rest : List Turn} (h : takesTurn tn s t) (hturns : s.turns = tn :: rest) :
    ∃ u, step s = .next u ∧ u.turns = rest ∧ u.resetHeld = t.resetHeld ∧ u.rx = t.rx ∧ u.inj = t.inj ∧ u.cfg = t.cfg
      ∧ u.cnt = t.cnt ∧ u.lram = t.lram :=
  ⟨_, step_of_takesTurn h hturns, rfl, rfl, rfl, rfl, rfl, rfl, rfl⟩

/-- Settles O39: the first segment is delivered and its ACK queued; the ACK's attempt is lost, which ends the engine's wait; the
second segment's bit is then the last accepted one, so it is a duplicate. -/
theorem dedupDeliversOnceAcksTwice : Obligations.DedupDeliversOnceAcksTwice := by
  intro s d e f g x myPhys myLog hrun hwait hq htxq hserving hturns hlost hfparse hfcrc hfttl hfdata hgparse hgcrc hgttl hgdata
    hbit hnew hroom hphys hlog
  have hfwf := (parse_eq_some_iff.1 hfparse).1
  obtain ⟨h1, h2, h3, -, hother⟩ := holds_deliveredSlots hfwf s.lram
  have hphys' := hother .myPhys (by decide) (by decide) (by decide) (by decide) _ hphys
  have hlog' := hother .myLog (by decide) (by decide) (by decide) (by decide) _ hlog
  obtain ⟨u, hstep1, uturns, urun, urx, uinj, ucfg, ucnt, ulram⟩ := exists_step_of_takesTurn (takesTurn_rxeTake_new hrun hwait
    hq ⟨hfparse, hfcrc, hfttl, hfdata⟩ hphys hlog hnew hroom) hturns
  have userving : u.inj.serving = none := by rw [uinj]; exact hserving
  have utxq : u.inj.txq = [ackRequest f myPhys myLog s] := by rw [uinj, htxq]; rfl
  have ulost : x.loss.toNat < min u.cfg.channel.pLoss.toNat 0x10000 := by rw [ucfg]; exact hlost
  obtain ⟨v, hstep2, vturns, vrun, vrx, -, -, vcnt, vlram⟩ := exists_step_of_takesTurn
    ((injectorServesHeadRequest u x _ [] (urun.trans hrun) userving utxq).1 ulost) uturns
  have vwait : v.rx.rxWait = false := by rw [vrx]; rfl
  have vq : v.rx.rxq = [e] := by
    have hkept : v.rx.rxq = u.rx.rxq := by rw [vrx]; rfl
    rw [hkept, urx]
  have vacc : v.rx.lastAcc = some g.pkt.seg.seq := by
    have hkept : v.rx.lastAcc = u.rx.lastAcc := by rw [vrx]; rfl
    rw [hkept, urx, hbit]
  have vlram' : v.lram = s.lram.slotWrites (deliveredSlots f) := vlram.trans ulram
  obtain ⟨w, hstep3, -, -, wrx, -, -, wcnt, wlram⟩ := exists_step_of_takesTurn
    (duplicateIsAcknowledged v e [] g myPhys myLog (vrun.trans (urun.trans hrun)) vwait vq hgparse hgcrc hgttl hgdata
      (vlram' ▸ hphys') (vlram' ▸ hlog') vacc) vturns
  have vcnt' : v.cnt = { u.cnt with xmit := u.cnt.xmit + 1#32, loss := u.cnt.loss + 1#32 } := vcnt
  have wlram' : w.lram = s.lram.slotWrites (deliveredSlots f) := wlram.trans vlram'
  refine ⟨w, ⟨u, hstep1, v, hstep2, w, hstep3, rfl⟩, ?_, ?_, ?_, ?_, ?_, fun sl hsl m hm => ?_⟩
  · rw [wcnt, vcnt', ucnt]
  · rw [wcnt, vcnt', ucnt]
    exact BitVec.add_assoc ..
  · rw [wcnt, vcnt', ucnt]
  · rw [wcnt, vcnt', ucnt]
    exact BitVec.add_assoc ..
  · have hkept : w.rx.lastAcc = v.rx.lastAcc := by rw [wrx]
    rw [hkept, vacc, hbit]
  · have hmsg : deliveredMessage f.pkt.seg.payload = m := by rw [hm]; rfl
    rw [hmsg] at h1 h2 h3
    rw [wlram']
    simp only [List.mem_cons, List.not_mem_nil, or_false] at hsl
    rcases hsl with rfl | rfl | rfl
    · exact h1.slotRead
    · exact h2.slotRead
    · exact h3.slotRead

end Sys2Proof.Machine
end

section
/-! ### Routers and deliveries (20_memory.md section 6) -/

namespace Sys2Proof.Machine

/-- A router discards what fails the integrity gate (R77). -/
theorem routerDecide_invalid {b : Bytes} (h : parse b = none ∨ ∃ f, parse b = some f ∧ crc32 (canon f) ≠ f.checksum)
    (mode : RouterForward) (routes : List (Bytes × Endpoint)) : routerDecide mode routes b = none := by
  rcases h with hnone | ⟨f, hparse, hcrc⟩
  · simp only [routerDecide, decodeAlg_none hnone]
  · have hinvalid : (crc32 (canon f) == f.checksum) = false := beq_eq_false_iff_ne.2 hcrc
    simp only [routerDecide, decodeAlg_some hparse, hinvalid, Bool.not_false, true_or, if_true]

section
variable {b : Bytes} {f : Frame} (hparse : parse b = some f) (hcrc : crc32 (canon f) = f.checksum) (mode : RouterForward)
  (routes : List (Bytes × Endpoint))
include hparse hcrc

/-- A router's decision on a valid frame: the decremented ttl, then the route (R78, R79). -/
theorem routerDecide_valid : routerDecide mode routes b =
    if (f.pkt.ttl.toNat : Int) - 1 ≤ 0 then none
    else (routes.lookup f.pkt.dstLog).map fun e =>
      (e, forwardBytes mode b f (BitVec.ofInt 32 ((f.pkt.ttl.toNat : Int) - 1))) := by
  have hvalid : (crc32 (canon f) == f.checksum) = true := beq_iff_eq.2 hcrc
  simp only [routerDecide, decodeAlg_some hparse, hvalid, Bool.not_true, Bool.false_eq_true, false_or]
  split
  · rfl
  · cases routes.lookup f.pkt.dstLog <;> rfl

/-- A ttl of 0 or 1 has nothing left to forward with (R78). -/
theorem routerDecide_expired (httl : f.pkt.ttl.toNat ≤ 1) : routerDecide mode routes b = none := by
  rw [routerDecide_valid hparse hcrc, if_pos (by omega)]

/-- A frame with ttl left goes where its destination's route says (R79, R80). -/
theorem routerDecide_live (httl : 1 < f.pkt.ttl.toNat) : routerDecide mode routes b =
    (routes.lookup f.pkt.dstLog).map fun e => (e, forwardBytes mode b f (f.pkt.ttl - 1#32)) := by
  have ht : BitVec.ofInt 32 ((f.pkt.ttl.toNat : Int) - 1) = f.pkt.ttl - 1#32 := by
    have hcast : (f.pkt.ttl.toNat : Int) - 1 = ((f.pkt.ttl.toNat - 1 : Nat) : Int) := by omega
    have hlt := f.pkt.ttl.isLt
    rw [hcast, BitVec.ofInt_natCast]
    apply BitVec.eq_of_toNat_eq
    rw [BitVec.toNat_ofNat, BitVec.toNat_sub, BitVec.toNat_ofNat]
    omega
  rw [routerDecide_valid hparse hcrc, if_neg (by omega), ht]

end

/-- Settles O59: the gate, the ttl and the route, in that order. -/
theorem routerForwardsOrDiscards : Obligations.RouterForwardsOrDiscards := by
  refine fun mode routes b => ⟨fun h => routerDecide_invalid h mode routes, fun f hparse hcrc =>
    ⟨routerDecide_expired hparse hcrc mode routes, fun httl hroute => ?_, fun httl e hroute => ?_⟩⟩
  · rw [routerDecide_live hparse hcrc mode routes httl, hroute]
    rfl
  · rw [routerDecide_live hparse hcrc mode routes httl, hroute]
    cases mode with
    | originalBytes => rfl
    | reencode => simp only [Option.map_some, forwardBytes, encodeAlg_eq]

/-! #### Deliveries -/

/-- The block's port does not look at the turns to come. -/
theorem netArrive_turns (b : Bytes) (src : Endpoint) (s : State) (rest : List Turn) :
    netArrive b src { s with turns := rest } = { netArrive b src s with turns := rest } := by
  unfold netArrive
  split
  · rfl
  · split
    · rfl
    · split <;> rfl

/-- What is on the wire after a delivery, each model's case (R75). -/
theorem flightAfter_eq (model : NetModel) (flight : List Transit) (k : Nat) (x : Transit) :
    flightAfter model flight k x =
      match model with
      | .fifoLossy =>
        (flight.take k).filter (fun y => !decide (y.emitter = x.emitter ∧ y.datagram.dst = x.datagram.dst))
          ++ flight.drop (k + 1)
      | .anyOrder => flight := by
  cases model with
  | anyOrder => rfl
  | fifoLossy => simp only [flightAfter, samePath, Bool.decide_and, beq_eq_decide]

/-- A datagram for the block's endpoint reaches the running block's port (R74). -/
theorem netDeliver_block {s : State} {k : Nat} {x : Transit} (hrun : s.resetHeld = false) (hx : s.net.flight[k]? = some x)
    (hdst : s.net.endpoint = some x.datagram.dst) :
    netDeliver k s = netArrive x.datagram.bytes x.datagram.src
      (s.withNet { s.net with flight := flightAfter Config.netModel s.net.flight k x }) := by
  have hbound : isBound s.net x.datagram.dst = true := by simp [isBound, hdst]
  simp only [netDeliver, hx, hbound, Bool.not_true, Bool.false_eq_true, if_false, receiveAt, State.withNet_net, hdst, if_true,
    State.withNet_resetHeld, hrun]

/-- Settles O60: the datagram is bound to the block, so its port takes the datagram's bytes from the wire as it then is. -/
theorem deliveryReachesNetworkPort : Obligations.DeliveryReachesNetworkPort := by
  intro s k x hrun hx hdst
  refine takesTurn_of_live hrun fun rest => congrArg Host.Outcome.next ?_
  rw [netDeliver_block (s := { s with turns := rest }) hrun hx hdst, ← netArrive_turns, flightAfter_eq]
  rfl

end Sys2Proof.Machine
end

section
/-! ### Where the machine stops (10_state.md R41) -/

namespace Sys2Proof.Machine

/-- An aperture read faults only on an unwritten byte (R41). -/
theorem apertureRead_fault {s : State} {o : Nat} {f : Fault} (h : apertureRead s o = .error f) :
    ∃ a, f = .unwrittenLram a ∧ s.lram.read a = none := by
  unfold apertureRead at h
  split at h
  · cases h
  · exact Memory.readWord_error h
  · exact Memory.readWord_error h
  · exact Memory.readWord_error h
  · cases h

/-- The outcome is no refusal, and a fault only on an unwritten byte of the state's LRAM or outside the aperture (R41, R57). -/
def StopsOnlyThere (s : State) (x : Host.Outcome State Fault Refusal) : Prop :=
  (∀ r, x ≠ .refused r)
    ∧ ∀ f, x = .fault f → (∃ a, f = .unwrittenLram a ∧ s.lram.read a = none) ∨ ∃ o, f = .outsideAperture o ∧ 0x8000 ≤ o

theorem stopsOnlyThere_next (s t : State) : StopsOnlyThere s (.next t) := ⟨nofun, nofun⟩

theorem stopsOnlyThere_outside (s : State) {o : Nat} (h : 0x8000 ≤ o) : StopsOnlyThere s (.fault (.outsideAperture o)) :=
  ⟨nofun, fun f hf => by cases hf; exact .inr ⟨o, rfl, h⟩⟩

/-- An outcome that is no refusal, and a fault only on an unwritten byte. -/
theorem stopsOnlyThere_unwritten {s : State} {x : Host.Outcome State Fault Refusal} (hr : ∀ r, x ≠ .refused r)
    (hf : ∀ f, x = .fault f → ∃ a, f = .unwrittenLram a ∧ s.lram.read a = none) : StopsOnlyThere s x :=
  ⟨hr, fun f h => .inl (hf f h)⟩

theorem hostAccess_stops (a : HostAccess) (s : State) : StopsOnlyThere s (hostAccess a s) := by
  cases a with
  | read w o =>
    simp only [hostAccess]
    split
    next hout => exact stopsOnlyThere_outside s hout
    next =>
      split
      next => exact stopsOnlyThere_next ..
      next =>
        split
        next f hread => exact stopsOnlyThere_unwritten nofun fun g hg => by cases hg; exact apertureRead_fault hread
        next => exact stopsOnlyThere_next ..
  | write w o v =>
    simp only [hostAccess]
    split
    next hout => exact stopsOnlyThere_outside s hout
    next => split <;> exact stopsOnlyThere_next ..

/-- CMD.exec stops where its command does, on an unwritten operand byte (R41). -/
theorem cmdExec_stops (s : State) : StopsOnlyThere s (cmdExec s) := by
  unfold cmdExec
  split
  · split
    · exact stopsOnlyThere_unwritten (fun _ => exec_ne_refused) fun _ => exec_fault
    · exact stopsOnlyThere_next ..
  · exact stopsOnlyThere_next ..

theorem rxeTake_ne_refused {s : State} {r : Refusal} : rxeTake s ≠ .refused r := by
  intro h
  unfold rxeTake at h
  split at h
  · cases h
  · split at h
    · cases h
    · unfold outcomeOf at h
      split at h <;> cases h

/-- A turn is never refused; where it faults, a host access or a read of LRAM does. -/
theorem runTurn_stops (tn : Turn) (s : State) : StopsOnlyThere s (runTurn tn s) := by
  unfold runTurn
  split
  · cases tn <;> exact stopsOnlyThere_next ..
  · cases tn with
    | host a => exact hostAccess_stops a s
    | cmdExec => exact cmdExec_stops s
    | rxeTake => exact stopsOnlyThere_unwritten (fun _ => rxeTake_ne_refused) fun _ => rxeTake_fault
    | _ => exact stopsOnlyThere_next ..

/-- The frame buffer with an unwritten byte among its WS_FRAME_LEN (R40, R41). -/
theorem frameOperand_unwritten {s : State} (hcap : s.ws.frameLen.toNat ≤ 12288) {i : Nat} (hi : i < s.ws.frameLen.toNat)
    (h : s.lram.read (0x4000 + i) = none) :
    ∃ a, s.lram.read a = none ∧ frameOperand s = .error (.fault (.unwrittenLram a)) := by
  obtain ⟨a, hread, ha⟩ := Memory.readBytes_unwritten (a := frameBase) hi h
  have hfits : ¬ Config.frameCap < s.ws.frameLen.toNat := by unfold Config.frameCap; omega
  exact ⟨a, ha, by simp only [frameOperand, if_neg hfits, hread, Except.mapError]⟩

/-- Length checks whose first length word is unwritten fault there (R41, R59). -/
theorem checkLens_unwritten {m : Memory} {sl : Slot} (h : m.read sl.base = none) (rest : List Slot) :
    checkLens m (sl :: rest) = .error (.fault (.unwrittenLram sl.base)) := by
  simp only [checkLens, Memory.slotLen, Memory.readWord_first h]

/-- Every byte of LRAM is a register's neighbour nowhere: an aligned offset of the map is read from LRAM (R60). -/
theorem apertureRead_lram {o : Nat} (ha : o % 4 = 0) (h : isLramOffset o = true) (s : State) :
    apertureRead s o = s.lram.readWord o := by
  simp only [isLramOffset, Bool.or_eq_true, List.any_eq_true, decide_eq_true_eq] at h
  rcases h with ⟨sl, -, hin⟩ | hin
  · have hslot := apertureAt_slot hin ha
    unfold apertureRead
    split at hslot <;> rw [hslot]
  · have hframe := apertureAt_frame (o := o) (by unfold frameBase Config.frameCap at hin; omega)
    simp only [apertureRead, hframe]

theorem isLramOffset_lt {o : Nat} (h : isLramOffset o = true) : o < 0x8000 := by
  simp only [isLramOffset, Bool.or_eq_true, List.any_eq_true, decide_eq_true_eq] at h
  rcases h with ⟨sl, -, hin⟩ | hin
  · have := sl.below_frame
    unfold frameBase at this
    omega
  · unfold frameBase Config.frameCap at hin
    omega

/-- A host access outside the aperture (R57). -/
theorem hostAccess_outside {o : Nat} (h : 0x8000 ≤ o) (w : AccessWidth) (v : BitVec 64) (s : State) :
    hostAccess (.read w o) s = .fault (.outsideAperture o) ∧ hostAccess (.write w o v) s = .fault (.outsideAperture o) :=
  ⟨if_pos h, if_pos h⟩

/-- Settles O42: a step stops only in a host access or in a read of LRAM; and the reads and accesses named do stop it. -/
theorem faultsAreUnwrittenReads : Obligations.FaultsAreUnwrittenReads := by
  refine ⟨fun s => ?_, fun s hcap ⟨i, hi, hread⟩ j hj => ?_, fun s hread => ?_, fun s hidle hread => ?_,
    fun s o w v rest hrun => ⟨fun ha hin hread => ?_, fun hout => ?_⟩⟩
  · have hlram : (takeTurn s).2.lram = s.lram := by unfold takeTurn; split <;> rfl
    obtain ⟨hrefused, hfault⟩ := runTurn_stops (takeTurn s).1 (takeTurn s).2
    exact ⟨hrefused, hlram ▸ hfault⟩
  · obtain ⟨a, ha, hoperand⟩ := frameOperand_unwritten hcap hi hread
    refine ⟨a, ha, ?_⟩
    simp only [List.mem_cons, List.not_mem_nil, or_false] at hj
    rcases hj with rfl | rfl | rfl
    · rw [exec_crc32, hoperand]; rfl
    · rw [exec_decode, hoperand]; rfl
    · rw [exec_xmit, hoperand]; rfl
  · have hlens := checkLens_unwritten (sl := .wsSrcPhys) hread [.wsDstPhys, .wsSrcLog, .wsDstLog]
    have hoperands : workspaceOperands s.lram s.ws = .error (.fault (.unwrittenLram 0x1800)) := by
      simp only [workspaceOperands, hlens]; rfl
    rw [exec_encode, hoperands]
    rfl
  · have hlens := checkLens_unwritten (sl := .myPhys) hread [.peerPhys, .myLog, .peerLog, .txmSender, .txmType, .txmText]
    have hoperands : sendOperands s = .error (.fault (.unwrittenLram 0x1000)) := by
      simp only [sendOperands, hlens]; rfl
    rw [exec_send_idle hidle, hoperands]
    rfl
  · have hin' : ¬ Config.apertureSize ≤ o := Nat.not_le.2 (isLramOffset_lt hin)
    have hok : accessOk .w32 o = true := by simp [accessOk, ha]
    have hfault : apertureRead { s with turns := rest } o = .error (.unwrittenLram o) :=
      (apertureRead_lram ha hin _).trans (Memory.readWord_first hread)
    rw [step_live hrun]
    simp only [liveTurn, hostAccess, if_neg hin', hok, Bool.not_true, Bool.false_eq_true, if_false, hfault]
  · rw [step_live hrun, step_live hrun]
    exact hostAccess_outside hout w v _

end Sys2Proof.Machine
end

section
/-! ### Host accesses to registers (20_memory.md section 3, 10_state.md section 2) -/

namespace Sys2Proof.Machine

/-- The only access the block takes is an aligned 32-bit one (R62). -/
theorem accessOk_eq_false {w : AccessWidth} {o : Nat} (h : w ≠ .w32 ∨ o % 4 ≠ 0) : accessOk w o = false := by
  simp only [accessOk, Bool.and_eq_false_iff, beq_eq_false_iff_ne]
  exact h

/-- Settles O41: the access is inside the aperture, and is refused before anything is read or written. -/
theorem badAccessIsRefused : Obligations.BadAccessIsRefused := by
  intro s w o v hrun ho hbad
  have hin : ¬ Config.apertureSize ≤ o := Nat.not_le.2 ho
  have hrefused := accessOk_eq_false hbad
  constructor <;> refine takesTurn_of_live hrun fun rest => ?_
  · simp only [liveTurn, hostAccess, if_neg hin, hrefused, Bool.not_false, if_true]
  · simp only [liveTurn, hostAccess, if_neg hin, hrefused, Bool.not_false, if_true]

/-- Every register stands at its own aligned offset inside the aperture (R17). -/
theorem regMap_offset {o : Nat} {r : Reg} (h : (o, r) ∈ regMap) : o < 0x8000 ∧ o % 4 = 0 ∧ apertureAt o = .reg r := by
  have hall : ∀ p ∈ regMap, p.1 < 0x8000 ∧ p.1 % 4 = 0 ∧ regMap.lookup p.1 = some p.2 := by decide
  obtain ⟨hlt, haligned, hlookup⟩ := hall _ h
  exact ⟨hlt, haligned, by simp only [apertureAt, hlookup]⟩

/-! #### Reads -/

/-- A host read that answers changes the bus's answer alone (R65). -/
theorem hostAccess_read {s t : State} {w : AccessWidth} {o : Nat} (h : hostAccess (.read w o) s = .next t) :
    t = { s with bus := t.bus } := by
  rcases hostAccess_cases h with hbus | ⟨o', v, hwrite, -⟩
  · exact hbus
  · cases hwrite

/-- No register's word depends on the turns to come. -/
theorem regRead_turns (s : State) (rest : List Turn) (r : Reg) : regRead { s with turns := rest } r = regRead s r := by
  cases r <;> rfl

/-- A read of a register answers its word (R62). -/
theorem takesTurn_readReg {s : State} (hrun : s.resetHeld = false) {o : Nat} {r : Reg} (h : (o, r) ∈ regMap) :
    takesTurn (.host (.read .w32 o)) s { s with bus := .data (regRead s r) } := by
  obtain ⟨hlt, haligned, hat⟩ := regMap_offset h
  intro rest
  refine step_hostRead hrun hlt haligned rest ?_
  simp only [apertureRead, hat, regRead_turns]

theorem bitField_zero (b : Bool) : bitField b 0 = (BitVec.ofBool b).setWidth 32 := by
  cases b <;> rfl

/-- What holds of each register and its value holds along a list of the registers with their values. -/
theorem forall_mem_of_eq_map {α β : Type} {L : List β} {l : List α} {f : α → β} {P : β → Prop} (hL : L = l.map f)
    (h : ∀ q ∈ l, P (f q)) : ∀ p ∈ L, P p := by
  rw [hL]
  exact List.forall_mem_map.2 h

/-- Settles O44: the statement's table is the register map with each register's word. -/
theorem hostReadHasNoSideEffect : Obligations.HostReadHasNoSideEffect := by
  refine ⟨fun s t w o rest hturns hstep => ?_, fun s hrun => ?_⟩
  · rw [step_of_turns hturns] at hstep
    unfold runTurn at hstep
    split at hstep
    · cases hstep; rfl
    · exact hostAccess_read hstep
  · refine forall_mem_of_eq_map (f := fun q : Nat × Reg => (q.1, regRead s q.2)) ?_ fun q hq => takesTurn_readReg hrun hq
    simp only [regMap, List.cons_append, List.nil_append, List.map_cons, List.map_nil, regRead, bitField_zero]
    cases s.dropCause <;> rfl

/-! #### Writes -/

/-- The registers a host may only read (R17). -/
def Reg.readOnly : Reg → Bool
  | .id | .rev | .status | .result | .crcOut | .timerRemain | .rxmTsLo | .rxmTsHi | .rxmInfo | .cnt _ | .dropCause => true
  | .ctrl | .cmd | .irqPend | .irqEn | .pLoss | .pCorrupt | .latMin | .latMax | .arqTimeout | .ttlInit | .nextHopIp
  | .nextHopPort | .wsTtl | .wsSeg | .wsChecksum | .wsTsLo | .wsTsHi | .wsFrameLen | .txmTsLo | .txmTsHi => false

/-- A write to a read-only register is ignored (R17). -/
theorem regWrite_readOnly {r : Reg} (h : r.readOnly = true) (s : State) (v : Word) : regWrite s v r = s := by
  cases r <;> first | rfl | cases h

/-- A register's write does not look at the turns to come. -/
theorem regWrite_turns (s : State) (rest : List Turn) (v : Word) (r : Reg) :
    regWrite { s with turns := rest } v r = { regWrite s v r with turns := rest } := by
  cases r with
  | ctrl => simp only [regWrite, writeCtrl]; split <;> rfl
  | cmd => simp only [regWrite, acceptCommand]; split <;> rfl
  | _ => rfl

/-- A write of a word to a register is the register's write (R62). -/
theorem takesTurn_writeReg {s : State} (hrun : s.resetHeld = false) {o : Nat} {r : Reg} (h : (o, r) ∈ regMap) (v : Word) :
    takesTurn (.host (.write .w32 o (v.setWidth 64))) s { regWrite s v r with bus := .written } := by
  obtain ⟨hlt, haligned, hat⟩ := regMap_offset h
  intro rest
  rw [step_hostWrite_word hrun hlt haligned]
  simp only [apertureWrite, hat, regWrite_turns]

/-- A write that leaves the state as it was is answered by the bus alone. -/
theorem takesTurn_write_ignored {s : State} (hrun : s.resetHeld = false) {o : Nat} (ho : o < 0x8000) (ha : o % 4 = 0)
    (v : BitVec 64) (h : ∀ u : State, apertureWrite u o (v.setWidth 32) = u) :
    takesTurn (.host (.write .w32 o v)) s { s with bus := .written } := by
  intro rest
  rw [step_hostWrite hrun ho ha, h]

/-- The slots from 0x2000 on are the RXM slots, which the host may only read (R60, R61). -/
theorem Slot.readOnly_of_base {sl : Slot} (h : 0x2000 ≤ sl.data + sl.cap) : sl.readOnly = true := by
  revert h
  cases sl <;> decide

/-- The registers at the listed offsets are the read-only ones (R17). -/
theorem readOnly_of_offset {o : Nat} {r : Reg} (h : (o, r) ∈ regMap)
    (ho : o ∈ [0x000, 0x004, 0x00C, 0x014, 0x040, 0x044, 0x068, 0x06C, 0x070, 0x0C0] ∨ 0x080 ≤ o ∧ o ≤ 0x0B8) :
    r.readOnly = true := by
  have hall : ∀ p ∈ regMap, p.1 ∈ [0x000, 0x004, 0x00C, 0x014, 0x040, 0x044, 0x068, 0x06C, 0x070, 0x0C0]
      ∨ 0x080 ≤ p.1 ∧ p.1 ≤ 0x0B8 → p.2.readOnly = true := by decide
  exact hall _ h ho

/-- Settles O45: what stands at such an offset is a read-only register, a word of a read-only slot, or a hole. -/
theorem readOnlyWordsIgnoreWrites : Obligations.ReadOnlyWordsIgnoreWrites := by
  intro s o v hrun ha ho
  have hrange : o ≤ 0x0C0 ∨ 0x2000 ≤ o ∧ o < 0x4000 := by
    simp only [List.mem_cons, List.not_mem_nil, or_false] at ho
    omega
  refine takesTurn_write_ignored hrun (by omega) ha v fun u => ?_
  unfold apertureWrite
  rcases apertureAt_cases o with ⟨r, hmap, h⟩ | ⟨-, hframe⟩ | h | ⟨sl, hbase, h⟩ | ⟨sl, hlo, hhi, h⟩
  · rw [h]
    have hlt := (regMap_gaps hmap).2.2
    refine regWrite_readOnly (readOnly_of_offset hmap ?_) u _
    rcases ho with ho | ho | ho
    · exact .inl ho
    · exact .inr ho
    · omega
  · omega
  · rw [h]
  · have hbelow := sl.below_frame
    have hdata : sl.data = sl.base + 4 := rfl
    simp only [h, Slot.readOnly_of_base (sl := sl) (by omega), if_true]
  · have hbelow := sl.below_frame
    have hdata : sl.data = sl.base + 4 := rfl
    simp only [h, Slot.readOnly_of_base (sl := sl) (by omega), if_true]

/-! #### Words of LRAM -/

theorem mem_slotAll (sl : Slot) : sl ∈ Slot.all := by
  cases sl <;> decide

/-- The offset is a slot's length word exactly where it is a slot's base (R58). -/
theorem any_base_iff {o : Nat} : Slot.all.any (fun sl => o == sl.base) = true ↔ ∃ sl : Slot, o = sl.base := by
  simp only [List.any_eq_true, beq_iff_eq]
  exact ⟨fun ⟨sl, _, h⟩ => ⟨sl, h⟩, fun ⟨sl, h⟩ => ⟨sl, mem_slotAll sl, h⟩⟩

/-- A data word of a slot is no slot's length word (R58, R60). -/
theorem not_base_of_data {o : Nat} {sl : Slot} (hlo : sl.base < o) (hhi : o < sl.data + sl.cap) (t : Slot) : o ≠ t.base := by
  rintro rfl
  by_cases h : t = sl
  · subst h; omega
  · have hdata : t.data = t.base + 4 := rfl
    rcases Slot.disjoint h with h | h <;> omega

/-- A host write that stores the word `w` at an aligned offset of LRAM: the word reads back, and no other byte changes. -/
theorem lramWord_readsBack {s : State} {o : Nat} {v w : Word}
    (hwrite : apertureWrite s o v = s.withLram (s.lram.write o (bytesOfWord w)))
    (hread : ∀ u : State, apertureRead u o = u.lram.readWord o) :
    apertureRead (apertureWrite s o v) o = .ok w
      ∧ (∀ a, a < o ∨ o + 4 ≤ a → (apertureWrite s o v).lram.read a = s.lram.read a)
      ∧ apertureWrite s o v = { s with lram := (apertureWrite s o v).lram } := by
  refine ⟨?_, fun a ha => ?_, ?_⟩
  · rw [hread, hwrite]
    exact Memory.readWord_write_self ..
  · rw [hwrite]
    refine Memory.read_write_outside _ _ _ _ ?_
    rw [bytesOfWord_length]
    exact ha
  · rw [hwrite]
    rfl

/-- Settles O46: the offset is a word of WS_FRAME, a length word or a data word, and its write stores one word. -/
theorem lramWordReadsBack : Obligations.LramWordReadsBack := by
  intro s o v ha hin
  rcases hin with hframe | ⟨sl, hrw, hlo, hhi⟩
  · have hat := apertureAt_frame hframe
    have hbase : ¬ Slot.all.any (fun sl => o == sl.base) = true := fun h => by
      obtain ⟨sl, hsl⟩ := any_base_iff.1 h
      have hbelow := sl.below_frame
      have hdata : sl.data = sl.base + 4 := rfl
      unfold frameBase at hbelow
      omega
    rw [if_neg hbase]
    exact lramWord_readsBack (by simp only [apertureWrite, hat]) fun u => by simp only [apertureRead, hat]
  · have hat := apertureAt_slot ⟨hlo, hhi⟩ ha
    by_cases ho : o = sl.base
    · rw [if_pos ho] at hat
      rw [if_pos (any_base_iff.2 ⟨sl, ho⟩)]
      exact lramWord_readsBack (by simp only [apertureWrite, hat, hrw, Bool.false_eq_true, if_false])
        fun u => by simp only [apertureRead, hat]
    · rw [if_neg ho] at hat
      have hbase : ¬ Slot.all.any (fun sl => o == sl.base) = true := fun h => by
        obtain ⟨t, ht⟩ := any_base_iff.1 h
        exact not_base_of_data (by omega) hhi t ht
      rw [if_neg hbase]
      exact lramWord_readsBack (by simp only [apertureWrite, hat, hrw, Bool.false_eq_true, if_false])
        fun u => by simp only [apertureRead, hat]

/-! #### The interrupt registers -/

/-- The interrupt output is the OR of pending AND enabled, bit by bit (R175). -/
theorem irqOutput_iff (s : State) :
    s.irqOutput = true ↔ ∃ i < 6, s.irqPend.getLsbD i = true ∧ s.irqEn.getLsbD i = true := by
  have hne : s.irqOutput = true ↔ s.irqPend &&& s.irqEn ≠ 0#6 := by simp [State.irqOutput]
  rw [hne]
  constructor
  · intro h
    by_contra hnone
    refine h (BitVec.eq_of_getLsbD_eq fun i hi => ?_)
    rw [BitVec.getLsbD_and, BitVec.getLsbD_zero]
    by_contra hbit
    exact hnone ⟨i, hi, by simpa using hbit⟩
  · rintro ⟨i, -, hpend, hen⟩ h
    have hbit := congrArg (BitVec.getLsbD · i) h
    simp [hpend, hen] at hbit

/-- Settles O47: a write to IRQ_PEND clears the bits written as 1, and the output looks at each of the six bits. -/
theorem interruptPendingAndOutput : Obligations.InterruptPendingAndOutput := by
  refine fun s v => ⟨fun hrun => ⟨s.irqPend &&& ~~~(v.setWidth 6), fun i hi => ?_, ?_⟩, irqOutput_iff s⟩
  · simp [hi]
  · exact takesTurn_writeReg hrun (o := 0x018) (r := .irqPend) (by decide) v

end Sys2Proof.Machine
end

section
/-! ### The layout of the registers (10_state.md section 2) -/

namespace Sys2Proof.Machine

/-! #### Fields of a word -/

/-- A field of `n` bits at bit `k` has the bits from `k` to `k + n` (R16). -/
theorem getLsbD_field {n k : Nat} (x : BitVec n) (hn : k + n ≤ 32) (j : Nat) :
    (x.setWidth 32 <<< k).getLsbD j = (decide (k ≤ j ∧ j < k + n) && x.getLsbD (j - k)) := by
  rw [BitVec.getLsbD_shiftLeft, BitVec.getLsbD_setWidth]
  by_cases hj : k ≤ j ∧ j < k + n
  · have h1 : j < 32 := by omega
    have h2 : ¬ j < k := by omega
    have h3 : j - k < 32 := by omega
    simp [h1, h2, h3, hj]
  · by_cases hk : j < k
    · simp [hk, hj]
    · simp [hj, BitVec.getLsbD_of_ge x (j - k) (by omega)]

theorem bitField_eq_field (b : Bool) (i : Nat) : bitField b i = (BitVec.ofBool b).setWidth 32 <<< i := by
  cases b with
  | false => exact (BitVec.zero_shiftLeft i).symm
  | true => rfl

/-- A one-bit field is its bit and no other. -/
theorem getLsbD_bitField (b : Bool) {i : Nat} (hi : i < 32) (j : Nat) : (bitField b i).getLsbD j = (decide (j = i) && b) := by
  rw [bitField_eq_field, getLsbD_field _ hi]
  by_cases h : j = i
  · subst h; simp
  · have hj : ¬ (i ≤ j ∧ j < i + 1) := by omega
    rw [decide_eq_false hj, decide_eq_false h, Bool.false_and, Bool.false_and]

/-- A byte in bits [7:0]. -/
theorem getLsbD_setWidth_word {n : Nat} (x : BitVec n) (hn : n ≤ 32) (j : Nat) :
    (x.setWidth 32).getLsbD j = (decide (j < n) && x.getLsbD j) := by
  rw [BitVec.getLsbD_setWidth]
  by_cases hj : j < n
  · have h1 : j < 32 := by omega
    simp [hj, h1]
  · simp [BitVec.getLsbD_of_ge x j (Nat.le_of_not_lt hj)]

/-- The bits of STATUS (R21). -/
theorem getLsbD_statusWord (s : State) (j : Nat) : s.statusWord.getLsbD j =
    (decide (j = 0) && s.busy || decide (j = 1) && s.arqAwait || decide (2 ≤ j ∧ j < 3) && s.arq.seqBit.getLsbD (j - 2)
      || decide (j = 3) && s.arq.ackLatch || decide (j = 4) && s.arq.timerRun
      || decide (5 ≤ j ∧ j < 7) && (lastAccCode s.rx.lastAcc).getLsbD (j - 5) || decide (j = 7) && s.rx.rxmFull
      || decide (8 ≤ j ∧ j < 11) && (BitVec.ofNat 3 s.inj.txq.length).getLsbD (j - 8)
      || decide (11 ≤ j ∧ j < 14) && (BitVec.ofNat 3 s.rx.rxq.length).getLsbD (j - 11) || decide (j = 14) && s.injActive
      || decide (j = 15) && s.rx.rxWait || decide (j = 16) && s.arq.txp) := by
  simp only [State.statusWord, BitVec.getLsbD_or, getLsbD_bitField _ (show 0 < 32 by decide),
    getLsbD_bitField _ (show 1 < 32 by decide), getLsbD_bitField _ (show 3 < 32 by decide),
    getLsbD_bitField _ (show 4 < 32 by decide), getLsbD_bitField _ (show 7 < 32 by decide),
    getLsbD_bitField _ (show 14 < 32 by decide), getLsbD_bitField _ (show 15 < 32 by decide),
    getLsbD_bitField _ (show 16 < 32 by decide), getLsbD_field _ (show 2 + 1 ≤ 32 by decide),
    getLsbD_field _ (show 5 + 2 ≤ 32 by decide), getLsbD_field _ (show 8 + 3 ≤ 32 by decide),
    getLsbD_field _ (show 11 + 3 ≤ 32 by decide)]

/-- The bits of RESULT (R23). -/
theorem getLsbD_toWord (r : CmdResult) (j : Nat) : r.toWord.getLsbD j =
    (decide (j < 8) && r.code.toByte.getLsbD j || decide (j = 8) && r.flag || decide (j = 9) && r.parseOk
      || decide (16 ≤ j ∧ j < 24) && r.opc.getLsbD (j - 16)) := by
  simp only [CmdResult.toWord, BitVec.getLsbD_or, getLsbD_setWidth_word _ (show 8 ≤ 32 by decide),
    getLsbD_bitField _ (show 8 < 32 by decide), getLsbD_bitField _ (show 9 < 32 by decide),
    getLsbD_field _ (show 16 + 8 ≤ 32 by decide)]

/-- A field of a word, bit by bit. -/
theorem extractLsb'_eq_of_bits {w : Word} {k n : Nat} {x : BitVec n} (h : ∀ i < n, w.getLsbD (k + i) = x.getLsbD i) :
    w.extractLsb' k n = x := by
  refine BitVec.eq_of_getLsbD_eq fun i hi => ?_
  rw [BitVec.getLsbD_extractLsb', h i hi]
  simp [hi]

/-! #### Reset values and the layouts of STATUS and RESULT -/

theorem arqAwait_eq (s : State) : s.arqAwait = decide (s.arq.state = .awaitingAck) := beq_eq_decide _ _

theorem busy_eq (s : State) : s.busy = decide (s.cmd.phase ≠ .idle) := by
  simp [State.busy, bne, beq_eq_decide]

theorem statusWord_seqBit (s : State) : s.statusWord.extractLsb' 2 1 = s.arq.seqBit :=
  extractLsb'_eq_of_bits fun i hi => by
    obtain rfl : i = 0 := by omega
    rw [getLsbD_statusWord]
    simp

theorem statusWord_lastAcc (s : State) : s.statusWord.extractLsb' 5 2 = lastAccCode s.rx.lastAcc :=
  extractLsb'_eq_of_bits fun i hi => by
    rcases (by omega : i = 0 ∨ i = 1) with rfl | rfl <;> rw [getLsbD_statusWord] <;> simp

theorem statusWord_txq (s : State) : s.statusWord.extractLsb' 8 3 = BitVec.ofNat 3 s.inj.txq.length :=
  extractLsb'_eq_of_bits fun i hi => by
    rcases (by omega : i = 0 ∨ i = 1 ∨ i = 2) with rfl | rfl | rfl <;> rw [getLsbD_statusWord] <;> simp

theorem statusWord_rxq (s : State) : s.statusWord.extractLsb' 11 3 = BitVec.ofNat 3 s.rx.rxq.length :=
  extractLsb'_eq_of_bits fun i hi => by
    rcases (by omega : i = 0 ∨ i = 1 ∨ i = 2) with rfl | rfl | rfl <;> rw [getLsbD_statusWord] <;> simp

/-- Nothing stands above bit 16 of STATUS. -/
theorem getLsbD_statusWord_reserved (s : State) {j : Nat} (hj : 17 ≤ j) : s.statusWord.getLsbD j = false := by
  have h : j ≠ 0 ∧ j ≠ 1 ∧ ¬ (2 ≤ j ∧ j < 3) ∧ j ≠ 3 ∧ j ≠ 4 ∧ ¬ (5 ≤ j ∧ j < 7) ∧ j ≠ 7 ∧ ¬ (8 ≤ j ∧ j < 11)
      ∧ ¬ (11 ≤ j ∧ j < 14) ∧ j ≠ 14 ∧ j ≠ 15 ∧ j ≠ 16 := by omega
  rw [getLsbD_statusWord]
  simp only [h, decide_false, Bool.false_and, Bool.or_false]

/-- Nothing stands in bits [15:10] and [31:24] of RESULT. -/
theorem getLsbD_toWord_reserved (r : CmdResult) {j : Nat} (hj : 10 ≤ j ∧ j < 16 ∨ 24 ≤ j) : r.toWord.getLsbD j = false := by
  have h : ¬ j < 8 ∧ j ≠ 8 ∧ j ≠ 9 ∧ ¬ (16 ≤ j ∧ j < 24) := by omega
  rw [getLsbD_toWord]
  simp only [h, decide_false, Bool.false_and, Bool.or_false]

theorem toWord_code (r : CmdResult) : r.toWord.extractLsb' 0 8 = r.code.toByte :=
  extractLsb'_eq_of_bits fun i hi => by
    have h : i ≠ 8 ∧ i ≠ 9 ∧ ¬ (16 ≤ i ∧ i < 24) := by omega
    rw [Nat.zero_add, getLsbD_toWord]
    simp only [h, hi, decide_true, decide_false, Bool.true_and, Bool.false_and, Bool.or_false]

theorem toWord_opc (r : CmdResult) : r.toWord.extractLsb' 16 8 = r.opc :=
  extractLsb'_eq_of_bits fun i hi => by
    have h : ¬ 16 + i < 8 ∧ 16 + i ≠ 8 ∧ 16 + i ≠ 9 ∧ (16 ≤ 16 + i ∧ 16 + i < 24) := by omega
    rw [getLsbD_toWord]
    simp only [h, decide_true, decide_false, Bool.true_and, Bool.false_and, Bool.false_or, and_self, Nat.add_sub_cancel_left]

/-- A queue of at most 4 shows its length in a three-bit field. -/
theorem toNat_count {n : Nat} (h : n ≤ 4) : (BitVec.ofNat 3 n).toNat = n := by
  rw [BitVec.toNat_ofNat, Nat.mod_eq_of_lt (by omega)]

/-- Settles O49: the reset values are the table's, register by register; the layouts are read off the words bit by bit. -/
theorem resetValues : Obligations.ResetValues := by
  refine ⟨fun r => ?_, fun a => rfl, rfl, rfl, rfl, rfl, rfl, rfl, rfl, rfl, rfl, fun s => ?_, fun r => ?_⟩
  · cases r with
    | cnt c => cases c <;> rfl
    | _ => rfl
  · refine ⟨?_, ?_, statusWord_seqBit s, ?_, ?_, ?_, ?_, fun h => ?_, fun h => ?_, ?_, ?_, ?_, ?_⟩
    · rw [getLsbD_statusWord, busy_eq]
      simp
    · rw [getLsbD_statusWord, arqAwait_eq]
      simp
    · rw [getLsbD_statusWord]
      simp
    · rw [getLsbD_statusWord]
      simp
    · rw [statusWord_lastAcc]
      cases s.rx.lastAcc <;> rfl
    · rw [getLsbD_statusWord]
      simp
    · rw [statusWord_txq, toNat_count h]
    · rw [statusWord_rxq, toNat_count h]
    · rw [getLsbD_statusWord]
      simp [State.injActive]
    · rw [getLsbD_statusWord]
      simp
    · rw [getLsbD_statusWord]
      simp
    · exact extractLsb'_eq_of_bits fun i _ => by
        rw [getLsbD_statusWord_reserved s (by omega), BitVec.getLsbD_zero]
  · refine ⟨?_, ?_, ?_, ?_, toWord_opc r, ?_⟩
    · rw [toWord_code]
      cases r.code <;> rfl
    · rw [getLsbD_toWord]
      simp
    · rw [getLsbD_toWord]
      simp
    · exact extractLsb'_eq_of_bits fun i _ => by rw [getLsbD_toWord_reserved r (by omega), BitVec.getLsbD_zero]
    · exact extractLsb'_eq_of_bits fun i _ => by rw [getLsbD_toWord_reserved r (by omega), BitVec.getLsbD_zero]

/-! #### Writes and reserved bits -/

/-- The registers a host write stores to, CMD, IRQ_PEND and CTRL aside (R17). -/
def storedRegs : List (Nat × Reg) :=
  [(0x01C, .irqEn), (0x020, .pLoss), (0x024, .pCorrupt), (0x028, .latMin), (0x02C, .latMax), (0x030, .arqTimeout),
    (0x034, .ttlInit), (0x038, .nextHopIp), (0x03C, .nextHopPort), (0x048, .wsTtl), (0x04C, .wsSeg), (0x050, .wsChecksum),
    (0x054, .wsTsLo), (0x058, .wsTsHi), (0x05C, .wsFrameLen), (0x060, .txmTsLo), (0x064, .txmTsHi)]

theorem storedRegs_subset : ∀ q ∈ storedRegs, q ∈ regMap := by decide

/-- A word without the bits of a mask. -/
theorem and_eq_zero_of_bits {w m : Word} (h : ∀ i < 32, m.getLsbD i = true → w.getLsbD i = false) : w &&& m = 0#32 := by
  refine BitVec.eq_of_getLsbD_eq fun i hi => ?_
  rw [BitVec.getLsbD_and, BitVec.getLsbD_zero, Bool.and_eq_false_iff]
  by_cases hm : m.getLsbD i = true
  · exact .inl (h i hi hm)
  · exact .inr (Bool.eq_false_of_not_eq_true hm)

/-- A field narrower than the word has no bit under a mask of the bits above it. -/
theorem setWidth_and_eq_zero {n : Nat} {m : Word} (h : ∀ i < n, m.getLsbD i = false) (x : BitVec n) :
    x.setWidth 32 &&& m = 0#32 :=
  and_eq_zero_of_bits fun i hi hm => by
    have hn : ¬ i < n := fun hlt => by rw [h i hlt] at hm; cases hm
    rw [BitVec.getLsbD_setWidth, BitVec.getLsbD_of_ge x i (Nat.le_of_not_lt hn), Bool.and_false]

/-- The bits under STATUS's mask are above bit 16, those under RESULT's in its two gaps. -/
theorem reserved_masks : (∀ i < 32, (0xFFFE0000#32).getLsbD i = true → 17 ≤ i)
    ∧ ∀ i < 32, (0xFF00FC00#32).getLsbD i = true → 10 ≤ i ∧ i < 16 ∨ 24 ≤ i := by decide

/-- The registers with reserved bits, each with the mask of them (R16). -/
def reservedBits : List (Reg × Word) :=
  [(.ctrl, 0xFFFFFFFE#32), (.status, 0xFFFE0000#32), (.cmd, 0xFFFFFFFF#32), (.result, 0xFF00FC00#32),
    (.irqPend, 0xFFFFFFC0#32), (.irqEn, 0xFFFFFFC0#32), (.pLoss, 0xFFFE0000#32), (.pCorrupt, 0xFFFE0000#32),
    (.nextHopPort, 0xFFFF0000#32), (.wsSeg, 0xFFFFFFF8#32), (.wsFrameLen, 0xFFFF0000#32), (.rxmInfo, 0xFFFFFFFC#32),
    (.dropCause, 0xFFFFFF00#32)]

/-- Reserved bits read 0, whatever the state (R16). -/
theorem regRead_reserved (s : State) : ∀ p ∈ reservedBits, regRead s p.1 &&& p.2 = 0#32 := by
  simp only [reservedBits, List.forall_mem_cons]
  refine ⟨?_, ?_, ?_, ?_, ?_, ?_, ?_, ?_, ?_, ?_, ?_, ?_, ?_, List.forall_mem_nil _⟩
  · rw [regRead, bitField_zero]
    exact setWidth_and_eq_zero (by decide) _
  · exact and_eq_zero_of_bits fun i hi hm => getLsbD_statusWord_reserved s (reserved_masks.1 i hi hm)
  · exact BitVec.zero_and
  · exact and_eq_zero_of_bits fun i hi hm => getLsbD_toWord_reserved s.result (reserved_masks.2 i hi hm)
  all_goals exact setWidth_and_eq_zero (by decide) _

/-- Settles O48: each write is the register's own, at its offset; and no register stores a reserved bit. -/
theorem reservedBitsReadZero : Obligations.ReservedBitsReadZero := by
  refine fun s v => ⟨fun hrun => ⟨fun hclear => ?_, ?_⟩, fun p hp => ⟨regRead_reserved s p hp, regRead_reserved _ p hp⟩⟩
  · have hctrl := takesTurn_writeReg hrun (o := 0x008) (r := .ctrl) (by decide) v
    rwa [regWrite, writeCtrl_run (by rw [hclear]; decide)] at hctrl
  · exact forall_mem_of_eq_map (f := fun q : Nat × Reg => (q.1, regWrite s v q.2)) rfl fun q hq =>
      takesTurn_writeReg hrun (storedRegs_subset q hq) v

end Sys2Proof.Machine
end

section
/-! ### The hard reset input (70_reset_and_hazards.md R185) -/

namespace Sys2Proof.Machine

/-- The reset input's turn is taken whether the block runs or is held. -/
theorem step_hardReset (b : Bool) (s : State) (rest : List Turn) :
    step { s with turns := .hardReset b :: rest } = .next (hardReset b { s with turns := rest }) := by
  simp only [step, takeTurn, runTurn]
  exact ite_self _

/-- Settles O51: asserted or released, the block's whole state is the reset state's; held, every other turn is the
environment's. -/
theorem heldResetStopsBlock : Obligations.HeldResetStopsBlock := by
  refine fun s => ⟨fun rest => ?_, fun hheld tn t rest hturns hother hstep => ?_, fun hheld rest => ?_, fun hrun rest => ?_⟩
  · rw [step_hardReset]
    rfl
  · rw [step_of_turns hturns] at hstep
    rw [runTurn, if_pos (show ({ s with turns := rest } : State).resetHeld = true from hheld)] at hstep
    exact heldTurn_frame (s := { s with turns := rest }) hother hheld hstep
  · rw [step_hardReset]
    simp only [hardReset, hheld, Bool.false_eq_true, if_false, if_true]
    rfl
  · rw [step_hardReset]
    simp only [hardReset, hrun, Bool.false_eq_true, if_false]

end Sys2Proof.Machine
end
